-- ==== Sys2Proof/Word.lean ====
section
/-! DEFINITION. The word types of the block: buffer elements and words (00_scope.md R13). A code or a counter is a `Nat`: no arithmetic on it wraps (R11). -/

namespace Sys2Proof

/-- One element of `IN` or `OUT`, which is also one input or output unit: a 16-bit unsigned value
(20_memory.md R51, 00_scope.md R9 `UNIT_BITS`). -/
abbrev Elem := BitVec 16

/-- A word of R13: a finite sequence of 16-bit units, "substring" and "phrase" in the source. -/
abbrev Phrase := List Elem

end Sys2Proof
end

