-- ==== Sys2Proof/Config.lean ====
section
/-! DEFINITION. What an implementation fixes (the three parameters of 00_scope.md R10) and the free values, which
the spec leaves unspecified (93_implementation_defined.md, treatment `any value`). -/

namespace Sys2Proof

/-- The implementation parameters of 00_scope.md R10; `none` is `UNBOUNDED`.
A model takes each as an argument: they stand in `State.params` and no step changes them (log entry 1). -/
structure Params where
  /-- `P_MAX_CODE_BITS`: the largest code width `NB`. -/
  maxCodeBits : Option Nat
  /-- `P_OUT_MAX`: the largest number of elements `OUT` holds. -/
  outMax : Option Nat
  /-- `P_IN_MAX`: the largest number of elements the host may place in `IN`. -/
  inMax : Option Nat
  deriving DecidableEq, Repr

/-- Every parameter `UNBOUNDED`. -/
def Params.unbounded : Params := { maxCodeBits := none, outMax := none, inMax := none }

/-- The legal values of 00_scope.md R10: `P_MAX_CODE_BITS ≥ 2`, `P_OUT_MAX ≥ 1`, `P_IN_MAX ≥ 0`. -/
abbrev Params.wf (p : Params) : Prop :=
  (∀ m ∈ p.maxCodeBits, 2 ≤ m) ∧ (∀ m ∈ p.outMax, 1 ≤ m)

namespace Config

/-! Free values. None has a body, so no proof can see what it is. The first argument is the number of the draw
(`State.free`, advanced so that each event draws afresh), the second tells apart the values of one draw (log entry 6). -/

/-- A free natural number: unspecified `DBG_N`, `DBG_NB`, `IN_LEN`, `OUT_LEN` and the numbers of a dead working state. -/
opaque freeNat : Nat → Nat → Nat

/-- A free code or `none`: `PREV` and `PEND` of a dead working state. -/
opaque freeCode? : Nat → Nat → Option Nat

/-- A free word: `W` of a dead working state. -/
opaque freePhrase : Nat → Phrase

/-- A free bit sequence: `BITS` of a dead working state. -/
opaque freeBits : Nat → List Bool

/-- A free dictionary content: `DICT_C` of a dead working state. -/
opaque freeDictC : Nat → List (Phrase × Nat)

/-- A free dictionary content: `DICT_D` of a dead working state. -/
opaque freeDictD : Nat → List (Nat × Phrase)

/-- What `IN` holds at an index the host has not written since the reset numbered by the first argument (R250, I3). -/
opaque freeIn : Nat → Nat → Elem

/-- What `OUT` holds at an index the engine has not written since the event numbered by the first argument (I3, I4, I14),
and what a host read of `OUT` gives while the block is busy (R255, I5). -/
opaque freeOut : Nat → Nat → Elem

/-- Whether the operation whose input the host changed while it ran ends with success (R256, I6). -/
opaque freeSucceeds : Nat → Bool

/-- The output of such an operation if it succeeds (R256, I6: "any output"). -/
opaque freeOutput : Nat → List Elem

end Config

end Sys2Proof
end

