-- ==== Sys2Proof/Syntax.lean ====
section
/-! DEFINITION. The names of the block: adapters, fault causes, phases, and the one inductive of its instructions
(opcode_table.json: five kinds of code word and eight commands). -/

namespace Sys2Proof

/-- The alphabet adapters of 43_alphabets.md R190, selected by `CMD.ALPHA`. -/
inductive Adapter where
  | raw16
  | base64
  | uri
  | bytes
  deriving DecidableEq, Repr

/-- The fault causes of 60_exceptions.md R230. "(none)" is no constructor: no rule raises it. -/
inductive Cause where
  | alphabet
  | truncated
  | badCode
  | capacity
  deriving DecidableEq, Repr

/-- The engine's phases, 10_state.md R39. -/
inductive Phase where
  | idle
  | cScan
  | cEnd
  | dCheck
  | dDecode
  deriving DecidableEq, Repr

/-- The instructions: one constructor per row of opcode_table.json. The first five are the code words that
decompression executes (30_encoding.md R71, R74), the last eight the host commands (30_encoding.md R79). -/
inductive Instr where
  /-- `RAW`: raw-unit item with its 16-bit literal, 42_decompress.md R163. -/
  | raw (u : Elem)
  /-- `EOS`: end of stream, R162. -/
  | eos
  /-- `REF`: reference to a known entry, R164. -/
  | ref (k : Nat)
  /-- `REF_AHEAD`: the one-ahead reference, R165. -/
  | refAhead (k : Nat)
  /-- `ILLEGAL_CODE`: every other code value, R166. -/
  | illegalCode (k : Nat)
  /-- `CMD = 0`, 44_commands.md R213. -/
  | compressRaw16
  /-- `CMD = 1`, R214. -/
  | compressBase64
  /-- `CMD = 2`, R215. -/
  | compressUri
  /-- `CMD = 3`, R216. -/
  | compressBytes
  /-- `CMD = 4`, R217. -/
  | decompressRaw16
  /-- `CMD = 5`, R218. -/
  | decompressBase64
  /-- `CMD = 6`, R219. -/
  | decompressUri
  /-- `CMD = 7`, R220. -/
  | decompressBytes
  deriving DecidableEq, Repr

/-- The instruction is a code word of the code stream (30_encoding.md section 1), not a host command. -/
def Instr.isCodeWord : Instr → Bool
  | .raw _ => true
  | .eos => true
  | .ref _ => true
  | .refAhead _ => true
  | .illegalCode _ => true
  | .compressRaw16 => false
  | .compressBase64 => false
  | .compressUri => false
  | .compressBytes => false
  | .decompressRaw16 => false
  | .decompressBase64 => false
  | .decompressUri => false
  | .decompressBytes => false

/-- What decoding one code word depends on beside its bits: a code word encodes neither its length nor the entries
it may name (30_encoding.md R76), so the decoder's width and dictionary decide. -/
structure CodeCtx where
  /-- `NB`, the width of the next code word. -/
  nb : Nat
  /-- `PREV`: `none` before the first phrase. -/
  prev : Option Nat
  /-- `PEND`, the one-ahead code. -/
  pend : Option Nat
  /-- `dom DICT_D`. -/
  known : List Nat
  deriving DecidableEq, Repr

end Sys2Proof
end

