-- ==== Sys2Proof/Machine/State.lean ====
section
/-! DEFINITION. The state of the block (10_state.md R21), the reasons it can stop, and the state after reset (R250). -/

namespace Sys2Proof.Machine

/-- A finite map from numbers to values, as the list of its pairs; `Table.wf` is its canonical form. -/
abbrev Table (α : Type) := List (Nat × α)

/-- The canonical form: keys strictly rising. So no key stands twice, and equal maps are equal lists. -/
abbrev Table.wf {α : Type} (t : Table α) : Prop := (t.map Prod.fst).Pairwise (· < ·)

/-- `IN` or `OUT` (20_memory.md R50, R51): the elements written so far, by index.
The cell is the 16-bit element, the smallest unit the block moves (R58; log entry 5).
An index that is not listed reads as a free value: `State.inAt`, `State.outAt` (log entry 4). -/
abbrev Memory := Table Elem

/-- The canonical form of a memory: indices strictly rising. -/
abbrev Memory.wf (m : Memory) : Prop := Table.wf m

/-- `DICT_C`, a finite map from words to codes (10_state.md R31), in insertion order. -/
abbrev DictC := List (Phrase × Nat)

/-- `DICT_D`, a finite map from codes to words (10_state.md R35), in code order. -/
abbrev DictD := Table Phrase

/-- What the outside world does to the block, and when (44_commands.md R222, 70_reset_and_hazards.md R250 to R259).
`State.host` lists what is still to come, one entry a step (log entry 7). -/
inductive HostAct where
  /-- The host writes `CMD`. -/
  | writeCmd (v : BitVec 3)
  /-- The host writes element `i` of `IN`. -/
  | writeIn (i : Nat) (x : Elem)
  /-- The host writes `IN_LEN`. -/
  | writeInLen (n : Nat)
  /-- Power-on reset (R250, R251). -/
  | powerOnReset
  /-- The host does nothing for the time of one engine step. -/
  | engine
  deriving DecidableEq, Repr

/-- The complete state of the block, 10_state.md R21; the last six fields are the model's own. -/
structure State where
  /-- `CMD`: the command of the operation started last (R22). -/
  cmd : BitVec 3
  /-- `STATUS` (R23); its fields are read by `Machine/Flags.lean`. -/
  status : BitVec 8
  /-- `IN_LEN` (R24). -/
  inLen : Nat
  /-- `OUT_LEN` (R24). -/
  outLen : Nat
  /-- `DBG_N` (R25). -/
  dbgN : Nat
  /-- `DBG_NB` (R25). -/
  dbgNb : Nat
  /-- `PHASE` (R39). -/
  phase : Phase
  /-- `IN` (20_memory.md R51). -/
  inBuf : Memory
  /-- `OUT` (20_memory.md R51). -/
  outBuf : Memory
  /-- `N`: the count of assigned codes, which is the next code to assign (R26). -/
  n : Nat
  /-- `NB`: the current code width (R27). -/
  nb : Nat
  /-- `DICT_C` (R31). -/
  dictC : DictC
  /-- `W`: the pending phrase (R32). -/
  w : Phrase
  /-- `IN_PTR`: the index of the next input unit (R29). -/
  inPtr : Nat
  /-- `ACC`: the bits of the current partial symbol (R34). -/
  acc : Nat
  /-- `ACC_CNT`: how many bits `ACC` holds (R34). -/
  accCnt : Nat
  /-- `DICT_D` (R35). -/
  dictD : DictD
  /-- `PREV`: the code of the phrase decoded last (R36). -/
  prev : Option Nat
  /-- `PEND`: the code of the entry whose last unit is not yet known (R36). -/
  pend : Option Nat
  /-- `BITS`: the unpacked input (R38). -/
  bits : List Bool
  /-- `BP`: how many bits of `BITS` are consumed (R38). -/
  bp : Nat
  /-- The implementation parameters (00_scope.md R10; log entry 1). -/
  params : Params
  /-- What the host still does, oldest first (log entry 7). -/
  host : List HostAct
  /-- The number of the next draw of free values (log entry 6). -/
  free : Nat
  /-- The draw that says what the unwritten elements of `IN` hold (log entry 4). -/
  inEpoch : Nat
  /-- The draw that says what the unwritten elements of `OUT` hold (log entry 4). -/
  outEpoch : Nat
  /-- The host wrote `IN` or `IN_LEN` during the operation started last, so its result is unspecified
  (70_reset_and_hazards.md R256; log entry 11). -/
  spoiled : Bool
  deriving DecidableEq, Repr

/-- Why the model itself stops. The spec's own faults (60_exceptions.md R230) are no stop: they end the operation in a
next state. Each constructor here is raised only in a state no run reaches (log entry 10), so each is safe. -/
inductive Fault where
  /-- `EMIT_PHRASE` of a word that is neither in `DICT_C` nor a single unit, which 10_state.md R32 rules out.
  Raised by `emitPhrase`. Safe. -/
  | missingPhrase
  /-- A lookup of `DICT_D[PREV]` or of a decoded code finds no entry, which 10_state.md R36 rules out.
  Raised by `tail`, `execRef` and `execRefAhead`. Safe. -/
  | missingEntry
  /-- `e[0]` of an empty word `e`, which 42_decompress.md R167 rules out. Raised by `tail` and `execRefAhead`. Safe. -/
  | emptyPhrase
  /-- `FINISH` with `ACC_CNT ≥ SB`, which 10_state.md R34 rules out: its loop would not end. Raised by `finish`. Safe. -/
  | accumulatorOverrun
  deriving DecidableEq, Repr

/-- Why the model gives an instruction no meaning. -/
inductive Refusal where
  /-- The instruction has no meaning yet. Raised only by an arm of `exec`; none is left. Safe. -/
  | notModelled (mnemonic : String)
  deriving DecidableEq, Repr

/-- What ends a micro-operation early: a fault cause of the spec (`raise <Cause>`, 00_scope.md R14), or a stop of the
model. -/
inductive Stop where
  | cause (c : Cause)
  | broken (f : Fault)
  deriving DecidableEq, Repr

/-- The state right after power-on reset, 70_reset_and_hazards.md R250: `CMD`, `STATUS` and `OUT_LEN` are 0 and `PHASE` is
`IDLE`. The spec leaves every other register unspecified; the values of those here are the model's choice (DESIGN CHOICE,
unsafe: log entry 2), and no element of `IN` or `OUT` is listed. The parameters are `UNBOUNDED` (log entry 1). -/
def State.reset : State where
  cmd := 0
  status := 0
  inLen := 0
  outLen := 0
  dbgN := 0
  dbgNb := 0
  phase := .idle
  inBuf := []
  outBuf := []
  n := 0
  nb := 0
  dictC := []
  w := []
  inPtr := 0
  acc := 0
  accCnt := 0
  dictD := []
  prev := none
  pend := none
  bits := []
  bp := 0
  params := Params.unbounded
  host := []
  free := 0
  inEpoch := 0
  outEpoch := 0
  spoiled := false

end Sys2Proof.Machine
end

