-- ==== Sys2Proof/Machine/Alphabet.lean ====
section
/-! DEFINITION. The alphabet adapters, 43_alphabets.md: symbol widths, encode and decode tables, and the length hook. -/

namespace Sys2Proof

/-- `SB`, the symbol width of an adapter (00_scope.md R9, 43_alphabets.md R190). -/
def Adapter.sb : Adapter → Nat
  | .raw16 => 16
  | .base64 => 6
  | .uri => 6
  | .bytes => 8

/-- The Base64 pad character `=`, 43_alphabets.md R193. -/
def padElem : Elem := 0x003D

/-- The code unit of symbol 63: `/` under `BASE64` (R192), `-` under `URI` (R195). -/
def base64Last : Elem := 0x002F

/-- See `base64Last`. -/
def uriLast : Elem := 0x002D

/-- The 6-bit encode table of R192 and R195, which differ only at symbol 63. Used on `s < 64` only. -/
def encSextet (last : Elem) (s : Nat) : Elem :=
  if s < 26 then BitVec.ofNat 16 (0x41 + s)
  else if s < 52 then BitVec.ofNat 16 (0x61 + (s - 26))
  else if s < 62 then BitVec.ofNat 16 (0x30 + (s - 52))
  else if s = 62 then 0x002B
  else last

/-- The partial inverse of `encSextet` (R194, R195). -/
def decSextet (last : Elem) (x : Elem) : Option Nat :=
  let v := x.toNat
  if 0x41 ≤ v ∧ v ≤ 0x5A then some (v - 0x41)
  else if 0x61 ≤ v ∧ v ≤ 0x7A then some (v - 0x61 + 26)
  else if 0x30 ≤ v ∧ v ≤ 0x39 then some (v - 0x30 + 52)
  else if v = 0x2B then some 62
  else if x = last then some 63
  else none

/-- `ENC`: the buffer element of a symbol value (R191, R192, R195, R196). -/
def Adapter.enc : Adapter → Nat → Elem
  | .raw16, s => BitVec.ofNat 16 s
  | .base64, s => encSextet base64Last s
  | .uri, s => encSextet uriLast s
  | .bytes, s => BitVec.ofNat 16 s

/-- `DEC`: the symbol value of a buffer element, `none` where the spec says undefined (R191, R194, R195, R197). -/
def Adapter.dec : Adapter → Elem → Option Nat
  | .raw16, x => some x.toNat
  | .base64, x => decSextet base64Last x
  | .uri, x => decSextet uriLast x
  | .bytes, x => if x.toNat ≤ 0xFF then some x.toNat else none

/-- The length of the longest run of `=` at the end of the first `len` elements (R194). -/
def trailingPads (get : Nat → Elem) : Nat → Nat
  | 0 => 0
  | len + 1 => if get len = padElem then trailingPads get len + 1 else 0

/-- `ADAPTER_LENGTH()`: how many of the first `len` elements carry symbols (R194, R198). -/
def Adapter.length (ad : Adapter) (get : Nat → Elem) (len : Nat) : Nat :=
  match ad with
  | .raw16 => len
  | .base64 => len - trailingPads get len
  | .uri => len
  | .bytes => len

end Sys2Proof
end

