-- ==== Sys2Proof/WellFormed.lean ====
section
/-! DEFINITION. Which instruction can stand in a code stream where the decoder is in a given context:
the legality table of 30_encoding.md R74, in the normative form of 42_decompress.md R161. -/

namespace Sys2Proof

/-- The instruction is one the decoder in context `c` can read.
A code word fits in `NB` bits (R70); a reference names no reserved code (R71); `REF` names a known entry and
`REF_AHEAD` the pending one, each after the first phrase (R164, R165); every other code is illegal (R166).
A command has no operand, so each is well-formed (R79). -/
def Instr.wf (c : CodeCtx) : Instr → Bool
  | .raw _ => true
  | .eos => decide (1 ≤ c.nb)
  | .ref k => decide (2 ≤ k) && decide (k < 2 ^ c.nb) && c.prev.isSome && c.known.contains k
  | .refAhead k =>
    decide (2 ≤ k) && decide (k < 2 ^ c.nb) && c.prev.isSome && !c.known.contains k && (c.pend == some k)
  | .illegalCode k =>
    decide (2 ≤ k) && decide (k < 2 ^ c.nb) && (c.prev.isNone || (!c.known.contains k && !(c.pend == some k)))
  | .compressRaw16 => true
  | .compressBase64 => true
  | .compressUri => true
  | .compressBytes => true
  | .decompressRaw16 => true
  | .decompressBase64 => true
  | .decompressUri => true
  | .decompressBytes => true

end Sys2Proof
end

