-- ==== Sys2Proof/Decode.lean ====
section
/-! DEFINITION. The bit-field helpers (00_scope.md R12), the decoder of code words and commands, and the encoder
written from the same tables (30_encoding.md R70 to R81). -/

namespace Sys2Proof

/-! ## Constants and bit fields -/

/-- `RAW_CODE`, 00_scope.md R9. -/
def rawCode : Nat := 0

/-- `EOS_CODE`, 00_scope.md R9. -/
def eosCode : Nat := 1

/-- `FIRST_CODE`, 00_scope.md R9: the first code a dictionary entry can get, and the value of `N` at operation start. -/
def firstCode : Nat := 2

/-- `NB_INIT`, 00_scope.md R9. -/
def nbInit : Nat := 2

/-- `RAW_BITS`, 00_scope.md R9: the width of the literal after `RAW_CODE`. -/
def rawBits : Nat := 16

/-- `bitlen(v)` of R12: the least `b` with `v < 2^b`. -/
def bitlen (v : Nat) : Nat := if v = 0 then 0 else Nat.log2 v + 1

/-- `msb_n(v)` of R12: the `n` low bits of `v`, most significant first. -/
def msb : Nat → Nat → List Bool
  | 0, _ => []
  | n + 1, v => v.testBit n :: msb n v

/-- `val(s)` of R12: the value of a bit sequence whose first bit is the most significant. -/
def val (s : List Bool) : Nat := s.foldl (fun a b => 2 * a + b.toNat) 0

/-- The next `n` bits as a value, and the bits after them; `none` when fewer than `n` remain (40_bitstream.md R105). -/
def takeBits (n : Nat) (bits : List Bool) : Option (Nat × List Bool) :=
  if bits.length < n then none else some (val (bits.take n), bits.drop n)

/-! ## Code words -/

/-- Why a code word cannot be read. Both raise `ERR_TRUNCATED` (R105, R232). -/
inductive DecodeError where
  /-- Fewer than `NB` bits remain for the code word. -/
  | truncatedCode
  /-- Fewer than 16 bits remain for the literal after `RAW_CODE`. -/
  | truncatedLiteral
  deriving DecidableEq, Repr

/-- Reads one code word and says which instruction it is, in the order of tests of 42_decompress.md R161,
with the bits after it. Total: every code value is an instruction (`ILLEGAL_CODE` where no other applies). -/
def decodeCode (c : CodeCtx) (bits : List Bool) : Except DecodeError (Instr × List Bool) :=
  match takeBits c.nb bits with
  | none => .error .truncatedCode
  | some (k, rest) =>
    if k = eosCode then .ok (.eos, rest)
    else if k = rawCode then
      match takeBits rawBits rest with
      | none => .error .truncatedLiteral
      | some (u, rest') => .ok (.raw (BitVec.ofNat 16 u), rest')
    else if c.prev = none then .ok (.illegalCode k, rest)
    else if c.known.contains k then .ok (.ref k, rest)
    else if c.pend = some k then .ok (.refAhead k, rest)
    else .ok (.illegalCode k, rest)

/-! ## Commands -/

/-- The command a value of `CMD` selects, 30_encoding.md R79. Every value names one (R81). -/
def decodeCommand (v : BitVec 3) : Instr :=
  match v.toNat with
  | 0 => .compressRaw16
  | 1 => .compressBase64
  | 2 => .compressUri
  | 3 => .compressBytes
  | 4 => .decompressRaw16
  | 5 => .decompressBase64
  | 6 => .decompressUri
  | _ => .decompressBytes

/-! ## The encoder -/

/-- The value of `CMD` that selects a command (R79); `none` for a code word, which is no command. -/
def encodeCommand : Instr → Option (BitVec 3)
  | .raw _ => none
  | .eos => none
  | .ref _ => none
  | .refAhead _ => none
  | .illegalCode _ => none
  | .compressRaw16 => some 0
  | .compressBase64 => some 1
  | .compressUri => some 2
  | .compressBytes => some 3
  | .decompressRaw16 => some 4
  | .decompressBase64 => some 5
  | .decompressUri => some 6
  | .decompressBytes => some 7

/-- The words of an instruction as bits, the first bit first: a code word of width `nb` (R70, R71, R75), or the three
bits of a command value (R79). -/
def encode (nb : Nat) : Instr → List Bool
  | .raw u => msb nb rawCode ++ msb rawBits u.toNat
  | .eos => msb nb eosCode
  | .ref k => msb nb k
  | .refAhead k => msb nb k
  | .illegalCode k => msb nb k
  | .compressRaw16 => msb 3 0
  | .compressBase64 => msb 3 1
  | .compressUri => msb 3 2
  | .compressBytes => msb 3 3
  | .decompressRaw16 => msb 3 4
  | .decompressBase64 => msb 3 5
  | .decompressUri => msb 3 6
  | .decompressBytes => msb 3 7

/-- How many bits an instruction has: `NB` for a code word, `NB + 16` for a raw-unit item (R73), 3 for a command. -/
def Instr.width (nb : Nat) : Instr → Nat
  | .raw _ => nb + rawBits
  | .eos => nb
  | .ref _ => nb
  | .refAhead _ => nb
  | .illegalCode _ => nb
  | .compressRaw16 => 3
  | .compressBase64 => 3
  | .compressUri => 3
  | .compressBytes => 3
  | .decompressRaw16 => 3
  | .decompressBase64 => 3
  | .decompressUri => 3
  | .decompressBytes => 3

/-! ## The host's table words -/

/-- The decoder's context at operation start (42_decompress.md R161): no phrase yet, `NB = 2`. -/
def CodeCtx.atStart : CodeCtx := { nb := nbInit, prev := none, pend := none, known := [] }

/-- The instruction the decoder reads from the bits `w` of an opcode-table row (log entry 13).
Up to 16 bits, the word is a value of `CMD`, refused above 7. Above 16 bits it is the first item of a code stream, whose
one form wider than 16 bits is the raw-unit item: 2 code bits above 16 literal bits. -/
def decodeTableWord (nbits w : Nat) : Option Instr :=
  if nbits ≤ 16 then
    if w < 8 then some (decodeCommand (BitVec.ofNat 3 w)) else none
  else if w < 2 ^ (nbInit + rawBits) then
    match decodeCode CodeCtx.atStart (msb (nbInit + rawBits) w) with
    | .ok (i, _) => some i
    | .error _ => none
  else none

end Sys2Proof
end

