-- ==== Sys2Proof/Machine/Flags.lean ====
section
/-! DEFINITION. The fields of `STATUS` and `CMD` (10_state.md R22, R23) and the words the engine writes to `STATUS`.
The block has no other flags (R40). -/

namespace Sys2Proof.Machine

/-! ## `STATUS` -/

/-- `BUSY` = `STATUS[0]`. -/
def State.busy (s : State) : Bool := s.status.getLsbD 0

/-- `DONE` = `STATUS[1]`. -/
def State.done (s : State) : Bool := s.status.getLsbD 1

/-- `ERR` = `STATUS[2]`. -/
def State.err (s : State) : Bool := s.status.getLsbD 2

/-- `CAUSE` = `STATUS[7:4]`. -/
def State.cause (s : State) : BitVec 4 := s.status.extractLsb' 4 4

/-- The cause codes of 60_exceptions.md R230. -/
def causeCode : Cause → Nat
  | .alphabet => 1
  | .truncated => 2
  | .badCode => 3
  | .capacity => 4

/-- `STATUS` before any operation: `BUSY=0, DONE=0, ERR=0, CAUSE=0`. -/
def statusIdle : BitVec 8 := 0x00

/-- `STATUS` while an operation runs: `BUSY=1, DONE=0, ERR=0, CAUSE=0` (44_commands.md R210). -/
def statusBusy : BitVec 8 := 0x01

/-- `STATUS` after success: `BUSY=0, DONE=1, ERR=0, CAUSE=0` (44_commands.md R211). -/
def statusSuccess : BitVec 8 := 0x02

/-- `STATUS` after failure: `BUSY=0, DONE=1, ERR=1, CAUSE=e` (60_exceptions.md R233), which is `0x06 + 16 · cause`
(44_commands.md R221). -/
def statusFailure (c : Cause) : BitVec 8 := BitVec.ofNat 8 (0x06 + 16 * causeCode c)

/-! ## `CMD` -/

/-- `DIR` = `CMD[2]`: `true` selects decompression. -/
def cmdDir (v : BitVec 3) : Bool := v.getLsbD 2

/-- `ALPHA` = `CMD[1:0]`, as the adapter it selects. -/
def cmdAdapter (v : BitVec 3) : Adapter :=
  match v.toNat % 4 with
  | 0 => .raw16
  | 1 => .base64
  | 2 => .uri
  | _ => .bytes

/-- The adapter of the running operation, fixed by `CMD.ALPHA` (10_state.md R30). -/
def State.adapter (s : State) : Adapter := cmdAdapter s.cmd

end Sys2Proof.Machine
end

