-- ==== Sys2Proof/Machine/Ops.lean ====
section
/-! DEFINITION. The shared operations: finite maps and buffers (20_memory.md R50 to R53), the dictionaries, `ADVANCE`
(41_compress.md R134), and the start, the success and the failure of an operation (44_commands.md R210, R211,
60_exceptions.md R233). Failure is the block's one way of taking a fault; it has no trap and no return (R235). -/

namespace Sys2Proof.Machine

/-! ## Finite maps -/

/-- The value at a key. -/
def Table.read? {α : Type} : Table α → Nat → Option α
  | [], _ => none
  | (j, x) :: t, i => if i = j then some x else Table.read? t i

/-- The map with one value set; keeps the keys strictly rising. -/
def Table.write {α : Type} : Table α → Nat → α → Table α
  | [], i, v => [(i, v)]
  | (j, x) :: t, i, v =>
    if i < j then (i, v) :: (j, x) :: t
    else if i = j then (i, v) :: t
    else (j, x) :: Table.write t i v

/-- `DICT_C[p]` (10_state.md R31). -/
def DictC.code? : DictC → Phrase → Option Nat
  | [], _ => none
  | (q, k) :: d, p => if p = q then some k else DictC.code? d p

/-- `DICT_C[p] <- k`: the pair goes to the end, in place of an older one for the same word (there is none, R133). -/
def DictC.add (d : DictC) (p : Phrase) (k : Nat) : DictC := d.filter (fun e => e.1 ≠ p) ++ [(p, k)]

/-! ## Buffers -/

/-- `MemRead(IN, i)` (R52); an element the host has not written since reset is a free value (I3). -/
def State.inAt (s : State) (i : Nat) : Elem := (Table.read? s.inBuf i).getD (Config.freeIn s.inEpoch i)

/-- Element `i` of `OUT`; an element the engine has not written since the operation started is a free value (I14). -/
def State.outAt (s : State) (i : Nat) : Elem := (Table.read? s.outBuf i).getD (Config.freeOut s.outEpoch i)

/-- A value is above a parameter bound; nothing is above `UNBOUNDED` (00_scope.md R10). -/
def exceeds (bound : Option Nat) (v : Nat) : Bool :=
  match bound with
  | none => false
  | some m => decide (m < v)

/-- `APPEND(v)`, R53. -/
def append (v : Elem) (s : State) : Except Stop State :=
  if s.params.outMax = some s.outLen then .error (.cause .capacity)
  else .ok { s with outBuf := Table.write s.outBuf s.outLen v, outLen := s.outLen + 1 }

/-- `for each unit x of e, in order: APPEND(x)` (42_decompress.md R167). -/
def appendAll : Phrase → State → Except Stop State
  | [], s => .ok s
  | x :: e, s => (append x s).bind (appendAll e)

/-! ## Code assignment -/

/-- `ADVANCE()`, 41_compress.md R134: one more code is assigned, and the width grows when the count reaches `2^NB`. -/
def advance (s : State) : Except Stop State :=
  if s.n + 1 = 2 ^ s.nb then
    if exceeds s.params.maxCodeBits (s.nb + 1) then .error (.cause .capacity)
    else .ok { s with n := s.n + 1, nb := s.nb + 1 }
  else .ok { s with n := s.n + 1 }

/-! ## Start, success and failure of an operation -/

/-- The next draw of free values begins: every step of a busy engine, and a reset, draws afresh (log entry 6). -/
def tick (s : State) : State := { s with free := s.free + 1 }

/-- The working state of 10_state.md R42 after an operation: dead, every value unspecified (44_commands.md R211,
60_exceptions.md R233). -/
def deadWorking (s : State) : State :=
  { s with
    n := Config.freeNat s.free 0
    nb := Config.freeNat s.free 1
    dictC := Config.freeDictC s.free
    w := Config.freePhrase s.free
    inPtr := Config.freeNat s.free 2
    acc := Config.freeNat s.free 3
    accCnt := Config.freeNat s.free 4
    dictD := Config.freeDictD s.free
    prev := Config.freeCode? s.free 0
    pend := Config.freeCode? s.free 1
    bits := Config.freeBits s.free
    bp := Config.freeNat s.free 5
    free := s.free + 1 }

/-- `COMPLETE()`, 44_commands.md R211. -/
def complete (s : State) : State :=
  deadWorking { s with dbgN := s.n, dbgNb := s.nb, status := statusSuccess, phase := .idle }

/-- `FAIL(e)`, 60_exceptions.md R233: the whole effect of a fault. `OUT`, `DBG_N` and `DBG_NB` are unspecified after it. -/
def fail (c : Cause) (s : State) : State :=
  deadWorking
    { s with
      outLen := 0
      outBuf := []
      outEpoch := s.free
      dbgN := Config.freeNat s.free 6
      dbgNb := Config.freeNat s.free 7
      status := statusFailure c
      phase := .idle }

/-- The end of an engine step that began in `s`: a raised cause ends the operation in the same step (R233, R236). What the
step had done before is not kept: `FAIL` overwrites the part of it the host could see and the rest is dead. -/
def settle (s : State) : Except Stop State → Host.Outcome State Fault Refusal
  | .ok t => .next t
  | .error (.cause c) => .next (fail c s)
  | .error (.broken f) => .fault f

/-- The state an operation starts in: the assignments of `START(v)` (44_commands.md R210), with the working state of
41_compress.md R131 and 42_decompress.md R161 in the `op start` column of 10_state.md R21 (log entry 15). `OUT` and the
debug registers are unspecified from here until the operation is done. -/
def begun (v : BitVec 3) (s : State) : State :=
  { s with
    cmd := v
    status := statusBusy
    outLen := 0
    outBuf := []
    outEpoch := s.free
    dbgN := Config.freeNat s.free 6
    dbgNb := Config.freeNat s.free 7
    phase := if cmdDir v then .dCheck else .cScan
    n := firstCode
    nb := nbInit
    dictC := []
    w := []
    inPtr := 0
    acc := 0
    accCnt := 0
    dictD := []
    prev := none
    pend := none
    bp := 0
    free := s.free + 1
    spoiled := false }

/-- A host write of `v` to `CMD`. While busy it is ignored (70_reset_and_hazards.md R257). While idle it starts an operation
(44_commands.md R210), which fails at once when `IN_LEN` is above `P_IN_MAX` (70_reset_and_hazards.md R258). -/
def start (v : BitVec 3) (s : State) : Host.Outcome State Fault Refusal :=
  if s.busy then .next s
  else
    let t := begun v s
    settle t (if exceeds t.params.inMax t.inLen then .error (.cause .capacity) else .ok t)

end Sys2Proof.Machine
end

