-- ==== Sys2Proof/Machine/Operands.lean ====
section
/-! DEFINITION. Where the operands come from: the bit-stream reader, 40_bitstream.md R104 and R105, and the decoder's
context. -/

namespace Sys2Proof.Machine

/-- What the decoder knows when it reads the next code word (30_encoding.md R76). -/
def State.codeCtx (s : State) : CodeCtx :=
  { nb := s.nb, prev := s.prev, pend := s.pend, known := s.dictD.map Prod.fst }

/-- The bits not yet consumed: `BITS[BP …]`. -/
def State.restBits (s : State) : List Bool := s.bits.drop s.bp

/-- `BP <- BP + n`. -/
def State.consume (n : Nat) (s : State) : State := { s with bp := s.bp + n }

/-- `READ(n)`, R105. -/
def readBits (n : Nat) (s : State) : Except Stop (Nat × State) :=
  match takeBits n s.restBits with
  | none => .error (.cause .truncated)
  | some (v, _) => .ok (v, s.consume n)

/-- The bits of the given elements under an adapter, or `none` when one of them has no symbol value (R104, R199). -/
def unpackElems (ad : Adapter) : List Elem → Option (List Bool)
  | [] => some []
  | x :: xs =>
    match ad.dec x with
    | none => none
    | some v => (unpackElems ad xs).map (msb ad.sb v ++ ·)

/-- The first `len` elements of `IN`, in increasing index order. -/
def State.inElems (s : State) (len : Nat) : List Elem := (List.range len).map s.inAt

/-- `UNPACK()`, R104: checks every element of the first `ADAPTER_LENGTH()` and builds `BITS`. -/
def unpack (s : State) : Except Stop State :=
  match unpackElems s.adapter (s.inElems (s.adapter.length s.inAt s.inLen)) with
  | none => .error (.cause .alphabet)
  | some bits => .ok { s with bits := bits, bp := 0 }

end Sys2Proof.Machine
end

