-- ==== Sys2Proof/Machine/Writer.lean ====
section
/-! DEFINITION. The bit-stream writer, 40_bitstream.md R100 to R102, with the finish hook of 43_alphabets.md R193. -/

namespace Sys2Proof.Machine

/-- `PUTBIT(b)`, R101. -/
def putBit (b : Bool) (s : State) : Except Stop State :=
  let acc := (s.acc * 2 + b.toNat) % 2 ^ s.adapter.sb
  if s.accCnt + 1 = s.adapter.sb then
    (append (s.adapter.enc acc) s).map fun t => { t with acc := 0, accCnt := 0 }
  else .ok { s with acc := acc, accCnt := s.accCnt + 1 }

/-- The bits of a sequence through `PUTBIT`, in order. -/
def putBits : List Bool → State → Except Stop State
  | [], s => .ok s
  | b :: bs, s => (putBit b s).bind (putBits bs)

/-- `WRITE(v, n)`, R100: bits `n-1` down to 0 of `v`. -/
def write (v n : Nat) (s : State) : Except Stop State := putBits (msb n v) s

/-- The loop of `FINISH`, R102: zero bits until a flush empties the accumulator, at most `fuel` of them. -/
def padZeros : Nat → State → Except Stop State
  | 0, s => if s.accCnt = 0 then .ok s else .error (.broken .accumulatorOverrun)
  | fuel + 1, s => if s.accCnt = 0 then .ok s else (putBit false s).bind (padZeros fuel)

/-- `ADAPTER_FINISH()`, 43_alphabets.md R193: `=` until `OUT_LEN` is a multiple of 4 under `BASE64`; nothing else
(R191, R195, R196). -/
def adapterFinish (s : State) : Except Stop State :=
  match s.adapter with
  | .raw16 => .ok s
  | .base64 => appendAll (List.replicate ((4 - s.outLen % 4) % 4) padElem) s
  | .uri => .ok s
  | .bytes => .ok s

/-- `FINISH()`, R102. A partial group lacks fewer than `SB` bits. -/
def finish (s : State) : Except Stop State := (padZeros s.adapter.sb s).bind adapterFinish

end Sys2Proof.Machine
end

