-- ==== Sys2Proof/Machine/Compress.lean ====
section
/-! DEFINITION. The dictionary engine, compression: 41_compress.md R133 to R140. -/

namespace Sys2Proof.Machine

/-- `ASSIGN(p)`, R133. -/
def assign (p : Phrase) (s : State) : Except Stop State := advance { s with dictC := DictC.add s.dictC p s.n }

/-- `EMIT_PHRASE(p)`, R138: a reference, or the escape of a unit not yet registered. -/
def emitPhrase (p : Phrase) (s : State) : Except Stop State :=
  match DictC.code? s.dictC p with
  | some k => write k s.nb s
  | none =>
    match p with
    | [u] => ((write rawCode s.nb s).bind (write u.toNat rawBits)).bind (assign [u])
    | _ => .error (.broken .missingPhrase)

/-- `SCAN(c)`, R135 to R137. -/
def scan (c : Elem) (s : State) : Except Stop State :=
  if s.w = [] then .ok { s with w := [c] }
  else if (DictC.code? s.dictC (s.w ++ [c])).isSome then .ok { s with w := s.w ++ [c] }
  else ((emitPhrase s.w s).bind (assign (s.w ++ [c]))).map fun t => { t with w := [c] }

/-- The `C_SCAN` step, R139: one input unit, or the move to `C_END`. -/
def scanStep (s : State) : Except Stop State :=
  if s.inPtr < s.inLen then (scan (s.inAt s.inPtr) s).map fun t => { t with inPtr := t.inPtr + 1 }
  else .ok { s with phase := .cEnd }

/-- The emission of the final phrase and the code slot reserved after it, R140. -/
def endPhrase (s : State) : Except Stop State :=
  if s.w = [] then .ok s else (emitPhrase s.w s).bind advance

/-- The `C_END` step, R140: final phrase, terminator, flush and success. -/
def endStep (s : State) : Except Stop State :=
  (((endPhrase s).bind fun t => write eosCode t.nb t).bind finish).map complete

end Sys2Proof.Machine
end

