-- ==== Sys2Proof/Machine/CodeWords.lean ====
section
/-! DEFINITION. The dictionary engine, decompression: `TAIL` and one meaning per kind of code word, 42_decompress.md R162 to
R167. A meaning starts with the bits of its own code word and literal not yet consumed, and consumes them. -/

namespace Sys2Proof.Machine

/-- The fill of the pending entry in `TAIL`, R167. -/
def fillPending (x : Elem) (s : State) : Except Stop State :=
  match s.pend with
  | none => .ok s
  | some q =>
    match s.prev.bind (Table.read? s.dictD) with
    | none => .error (.broken .missingEntry)
    | some p => .ok { s with dictD := Table.write s.dictD q (p ++ [x]) }

/-- `TAIL(k, e)`, R167. -/
def tail (k : Nat) (e : Phrase) (s : State) : Except Stop State :=
  match e with
  | [] => .error (.broken .emptyPhrase)
  | x :: _ =>
    ((fillPending x s).bind (appendAll e)).bind fun t => advance { t with prev := some k, pend := some t.n }

/-- `RAW`, R163. -/
def execRaw (u : Elem) (s : State) : Host.Outcome State Fault Refusal :=
  settle s ((advance { s.consume (s.nb + rawBits) with dictD := Table.write s.dictD s.n [u] }).bind (tail s.n [u]))

/-- `EOS`, R162: success. -/
def execEos (s : State) : Host.Outcome State Fault Refusal :=
  .next (complete (s.consume s.nb))

/-- `REF`, R164. -/
def execRef (k : Nat) (s : State) : Host.Outcome State Fault Refusal :=
  match Table.read? s.dictD k with
  | none => .fault .missingEntry
  | some e => settle s (tail k e (s.consume s.nb))

/-- `REF_AHEAD`, R165: the previous phrase and its own first unit. -/
def execRefAhead (k : Nat) (s : State) : Host.Outcome State Fault Refusal :=
  match s.prev.bind (Table.read? s.dictD) with
  | none => .fault .missingEntry
  | some [] => .fault .emptyPhrase
  | some (x :: p) => settle s (tail k (x :: p ++ [x]) (s.consume s.nb))

/-- An illegal code, R166: `ERR_BAD_CODE`, whatever the code. -/
def execIllegalCode (_k : Nat) (s : State) : Host.Outcome State Fault Refusal :=
  .next (fail .badCode s)

end Sys2Proof.Machine
end

