-- ==== Sys2Proof/Machine/Commands.lean ====
section
/-! DEFINITION. The host commands, 44_commands.md R213 to R220. A command is a host write of its value to `CMD` (00_scope.md
R17): its own step is `START` (R210), and the engine steps of 70_reset_and_hazards.md R262 do the rest (log entry 8). -/

namespace Sys2Proof.Machine

/-- `COMPRESS_RAW16`, R213. -/
def execCompressRaw16 (s : State) : Host.Outcome State Fault Refusal := start 0 s

/-- `COMPRESS_BASE64`, R214. -/
def execCompressBase64 (s : State) : Host.Outcome State Fault Refusal := start 1 s

/-- `COMPRESS_URI`, R215. -/
def execCompressUri (s : State) : Host.Outcome State Fault Refusal := start 2 s

/-- `COMPRESS_BYTES`, R216. -/
def execCompressBytes (s : State) : Host.Outcome State Fault Refusal := start 3 s

/-- `DECOMPRESS_RAW16`, R217. -/
def execDecompressRaw16 (s : State) : Host.Outcome State Fault Refusal := start 4 s

/-- `DECOMPRESS_BASE64`, R218. -/
def execDecompressBase64 (s : State) : Host.Outcome State Fault Refusal := start 5 s

/-- `DECOMPRESS_URI`, R219. -/
def execDecompressUri (s : State) : Host.Outcome State Fault Refusal := start 6 s

/-- `DECOMPRESS_BYTES`, R220. -/
def execDecompressBytes (s : State) : Host.Outcome State Fault Refusal := start 7 s

end Sys2Proof.Machine
end

