-- ==== Sys2Proof/Machine/Dispatch.lean ====
section
/-! DEFINITION. One arm per instruction. -/

namespace Sys2Proof.Machine

def exec (i : Instr) (s : State) : Host.Outcome State Fault Refusal :=
  match i with
  -- the code words of decompression, 42_decompress.md R162 to R166
  | .raw u => Sys2Proof.Machine.execRaw u s
  | .eos => Sys2Proof.Machine.execEos s
  | .ref k => Sys2Proof.Machine.execRef k s
  | .refAhead k => Sys2Proof.Machine.execRefAhead k s
  | .illegalCode k => Sys2Proof.Machine.execIllegalCode k s
  -- the host commands, 44_commands.md R213 to R220
  | .compressRaw16 => Sys2Proof.Machine.execCompressRaw16 s
  | .compressBase64 => Sys2Proof.Machine.execCompressBase64 s
  | .compressUri => Sys2Proof.Machine.execCompressUri s
  | .compressBytes => Sys2Proof.Machine.execCompressBytes s
  | .decompressRaw16 => Sys2Proof.Machine.execDecompressRaw16 s
  | .decompressBase64 => Sys2Proof.Machine.execDecompressBase64 s
  | .decompressUri => Sys2Proof.Machine.execDecompressUri s
  | .decompressBytes => Sys2Proof.Machine.execDecompressBytes s

end Sys2Proof.Machine
end

