-- ==== Sys2Proof/Machine/HostPort.lean ====
section
/-! DEFINITION. The host's side of the block: its writes, power-on reset, and its reads (44_commands.md R222,
70_reset_and_hazards.md R250 to R259). -/

namespace Sys2Proof.Machine

/-! ## Writes and reset -/

/-- A host write of element `i` of `IN`. During an operation it makes the result unspecified (R256; log entry 11). -/
def hostWriteIn (i : Nat) (x : Elem) (s : State) : State :=
  { s with inBuf := Table.write s.inBuf i x, spoiled := s.spoiled || s.busy }

/-- A host write of `IN_LEN`, as `hostWriteIn`. -/
def hostWriteInLen (n : Nat) (s : State) : State :=
  { s with inLen := n, spoiled := s.spoiled || s.busy }

/-- Power-on reset while the block runs, R250 and R251: an operation is abandoned with no report. What the spec leaves
unspecified is free (log entry 3). -/
def powerOnReset (s : State) : State :=
  let d := tick s
  deadWorking
    { d with
      cmd := 0
      status := statusIdle
      inLen := Config.freeNat d.free 8
      outLen := 0
      dbgN := Config.freeNat d.free 6
      dbgNb := Config.freeNat d.free 7
      phase := .idle
      inBuf := []
      outBuf := []
      inEpoch := d.free
      outEpoch := d.free
      spoiled := false }

/-- The end of an operation whose input the host changed while it ran, R256: "it may end with any output or any cause".
The output is as long as the buffer can hold at most (00_scope.md R10; log entry 11). -/
def spoiledEnd (s : State) : State :=
  if Config.freeSucceeds s.free then
    let out := match s.params.outMax with
      | none => Config.freeOutput s.free
      | some m => (Config.freeOutput s.free).take m
    deadWorking
      { s with
        outLen := out.length
        outBuf := (List.range out.length).zip out
        outEpoch := s.free
        dbgN := Config.freeNat s.free 6
        dbgNb := Config.freeNat s.free 7
        status := statusSuccess
        phase := .idle }
  else
    match Config.freeNat s.free 9 % 4 with
    | 0 => fail .alphabet s
    | 1 => fail .truncated s
    | 2 => fail .badCode s
    | _ => fail .capacity s

/-- The host protocol of R222: the input, its length, then the command. -/
def hostProtocol (xs : List Elem) (v : BitVec 3) : List HostAct :=
  (List.range xs.length).zipWith HostAct.writeIn xs ++ [.writeInLen xs.length, .writeCmd v]

/-! ## Reads

A read is a function of the state: it has no side effect and is idempotent (20_memory.md R58, 70_reset_and_hazards.md R255). While
the block is busy, `OUT_LEN`, `OUT`, `DBG_N` and `DBG_NB` read as free values (R255, I5; log entry 14). -/

/-- The host reads `CMD`. -/
def hostReadCmd (s : State) : BitVec 3 := s.cmd

/-- The host reads `STATUS`. -/
def hostReadStatus (s : State) : BitVec 8 := s.status

/-- The host reads `IN_LEN`. -/
def hostReadInLen (s : State) : Nat := s.inLen

/-- The host reads element `i` of `IN`. -/
def hostReadIn (i : Nat) (s : State) : Elem := s.inAt i

/-- The host reads `OUT_LEN`. -/
def hostReadOutLen (s : State) : Nat := if s.busy then Config.freeNat s.free 10 else s.outLen

/-- The host reads element `i` of `OUT`. -/
def hostReadOut (i : Nat) (s : State) : Elem := if s.busy then Config.freeOut s.free i else s.outAt i

/-- The host reads `DBG_N`. -/
def hostReadDbgN (s : State) : Nat := if s.busy then Config.freeNat s.free 11 else s.dbgN

/-- The host reads `DBG_NB`. -/
def hostReadDbgNb (s : State) : Nat := if s.busy then Config.freeNat s.free 12 else s.dbgNb

end Sys2Proof.Machine
end

