-- ==== Sys2Proof/Machine/Sequencer.lean ====
section
/-! DEFINITION. The engine's atomic steps, 70_reset_and_hazards.md R262, by `PHASE` (44_commands.md R212). -/

namespace Sys2Proof.Machine

/-- The `D_CHECK` step: the whole of `UNPACK`, then `D_DECODE` (42_decompress.md R161). -/
def checkStep (s : State) : Except Stop State := (unpack s).map fun t => { t with phase := .dDecode }

/-- The `D_DECODE` step: one code word is decoded and executed (42_decompress.md R161). -/
def decodeStep (s : State) : Host.Outcome State Fault Refusal :=
  match decodeCode s.codeCtx s.restBits with
  | .error _ => .next (fail .truncated s)
  | .ok (i, _) => exec i s

/-- One engine step. An idle engine holds its state (60_exceptions.md R243). -/
def engineStep (s : State) : Host.Outcome State Fault Refusal :=
  if s.phase = .idle then .next s
  else if s.spoiled then .next (spoiledEnd (tick s))
  else
    match s.phase with
    | .idle => .next s
    | .cScan => settle (tick s) (scanStep (tick s))
    | .cEnd => settle (tick s) (endStep (tick s))
    | .dCheck => settle (tick s) (checkStep (tick s))
    | .dDecode => decodeStep (tick s)

end Sys2Proof.Machine
end

