-- ==== Sys2Proof/Machine/Step.lean ====
section
/-! DEFINITION. One step of the machine: what the host does next, or an engine step. -/

namespace Sys2Proof.Machine

/-- One step. The host's next action comes first; with none left, or when the host lets the engine run, the engine takes
one of its atomic steps (70_reset_and_hazards.md R262; log entry 7). A write of `CMD` runs the command it encodes. -/
def step (s : State) : Host.Outcome State Fault Refusal :=
  match s.host with
  | [] => engineStep s
  | .engine :: rest => engineStep { s with host := rest }
  | .writeCmd v :: rest => exec (decodeCommand v) { s with host := rest }
  | .writeIn i x :: rest => .next (hostWriteIn i x { s with host := rest })
  | .writeInLen n :: rest => .next (hostWriteInLen n { s with host := rest })
  | .powerOnReset :: rest => .next (powerOnReset { s with host := rest })

/-- `s` with an instruction placed where the next step takes it from (log entry 13). A command word becomes the host's next
action, a write of `CMD`; a running operation is out of its way (`STATUS.BUSY = 0`). The bits of a code item become the code
stream of a decompression at its first word. -/
def State.withFetchWord (s : State) (nbits w : Nat) : State :=
  if nbits ≤ 16 then
    { s with
      host := .writeCmd (BitVec.ofNat 3 w) :: s.host
      status := if s.busy then statusIdle else s.status
      phase := .idle }
  else
    { s with
      host := .engine :: s.host
      cmd := 4 ||| s.cmd
      status := statusBusy
      phase := .dDecode
      n := firstCode
      nb := nbInit
      dictD := []
      prev := none
      pend := none
      bits := msb (nbInit + rawBits) w
      bp := 0
      spoiled := false }

end Sys2Proof.Machine
end

