-- ==== Sys2Proof/Machine/Trie.lean ====
section
/-! DEFINITION. The dictionaries in their trie forms, which an implementation may hold instead of the maps: `DICT_C` with `W`
(10_state.md R33, 41_compress.md R144) and `DICT_D` (10_state.md R37, 42_decompress.md R174). The step relation uses the maps, which
are normative; here stand the trie steps and what it means that a trie represents a map. -/

namespace Sys2Proof.Machine

/-! ## Compression: a child table -/

/-- `W` as a kind, R33: nothing yet, a unit not yet registered, or the node of a registered word. -/
inductive WKind where
  | empty
  | new (u : Elem)
  | node (k : Nat)
  deriving DecidableEq, Repr

/-- `CHILD(parent, unit) -> code` with `parent` either `ROOT` (`none`) or a code, and `W` as a kind, R33. -/
structure TrieC where
  child : List ((Option Nat × Elem) × Nat)
  kind : WKind
  deriving DecidableEq, Repr

/-- `CHILD(parent, c)`. -/
def TrieC.child? (t : TrieC) (parent : Option Nat) (c : Elem) : Option Nat :=
  (t.child.find? fun e => e.1 = (parent, c)).map Prod.snd

/-- `CHILD(parent, c) <- k`. -/
def TrieC.setChild (t : TrieC) (parent : Option Nat) (c : Elem) (k : Nat) : TrieC :=
  { t with child := ((parent, c), k) :: t.child }

/-- `W <- [c]` of R144: the node of `[c]` when it has one, a new unit otherwise. -/
def TrieC.restart (t : TrieC) (c : Elem) : TrieC :=
  { t with kind := match t.child? none c with
      | some k => .node k
      | none => .new c }

/-- `SCAN(c)` in the trie form, R144: the writer and the counters are those of the state; its `DICT_C` and `W` are not
used. -/
def trieScan (c : Elem) (t : TrieC) (s : State) : Except Stop (TrieC × State) :=
  match t.kind with
  | .empty => .ok (t.restart c, s)
  | .node k =>
    match t.child? (some k) c with
    | some k' => .ok ({ t with kind := .node k' }, s)
    | none =>
      (write k s.nb s).bind fun s1 =>
        (advance s1).map fun s2 => ((t.setChild (some k) c s1.n).restart c, s2)
  | .new u =>
    ((write rawCode s.nb s).bind (write u.toNat rawBits)).bind fun s1 =>
      (advance s1).bind fun s2 =>
        (advance s2).map fun s3 =>
          (((t.setChild none u s1.n).setChild (some s1.n) c s2.n).restart c, s3)

/-- The code at the end of a path from a node. -/
def TrieC.walk (t : TrieC) : Option Nat → Phrase → Option Nat
  | at?, [] => at?
  | at?, c :: p =>
    match t.child? at? c with
    | none => none
    | some k => t.walk (some k) p

/-- The trie holds the map and the pending phrase of the state: a word's path from the root ends at its code, a link leaves the
root or an assigned code, and `W` is of the kind that stands for it (R33, R144). -/
def TrieC.represents (t : TrieC) (s : State) : Prop :=
  (∀ p : Phrase, p ≠ [] → t.walk none p = DictC.code? s.dictC p) ∧
  (∀ e ∈ t.child, ∀ k, e.1.1 = some k → k < s.n) ∧
  match t.kind with
  | .empty => s.w = []
  | .new u => s.w = [u] ∧ DictC.code? s.dictC [u] = none
  | .node k => s.w ≠ [] ∧ DictC.code? s.dictC s.w = some k

/-! ## Decompression: parent links -/

/-- `PARENT`, `LAST` and `FIRST`, R174. A root entry has no parent. -/
structure TrieD where
  parent : Table Nat
  last : Table Elem
  first : Table Elem
  deriving DecidableEq, Repr

/-- A `RAW` entry: no parent, `LAST = FIRST = u` (R174). -/
def TrieD.addRoot (t : TrieD) (k : Nat) (u : Elem) : TrieD :=
  { t with last := Table.write t.last k u, first := Table.write t.first k u }

/-- The word of an entry, rebuilt by following parent links from its last unit to the root (R174); a link leads to a smaller
code, so `k + 1` links are enough (`fuel`). -/
def TrieD.word (t : TrieD) : Nat → Nat → Option Phrase
  | 0, _ => none
  | fuel + 1, k =>
    match Table.read? t.last k with
    | none => none
    | some x =>
      match Table.read? t.parent k with
      | none => some [x]
      | some q => (t.word fuel q).map (· ++ [x])

/-- The fill of `TAIL` in the trie form, R174: `PARENT[PEND] <- PREV`, `LAST[PEND] <- e[0]`, `FIRST[PEND] <- FIRST[PREV]`. -/
def trieFill (x : Elem) (t : TrieD) (s : State) : Except Stop TrieD :=
  match s.pend with
  | none => .ok t
  | some q =>
    match s.prev.bind fun r => (Table.read? t.first r).map (r, ·) with
    | none => .error (.broken .missingEntry)
    | some (r, y) =>
      .ok { parent := Table.write t.parent q r, last := Table.write t.last q x, first := Table.write t.first q y }

/-- The trie holds a map: the same entries, each with its word and its first unit, and nothing at any other code (R37). -/
def TrieD.represents (t : TrieD) (d : DictD) : Prop :=
  ∀ k, t.word (k + 1) k = Table.read? d k ∧ Table.read? t.first k = (Table.read? d k).bind List.head? ∧
    (Table.read? d k = none → Table.read? t.parent k = none ∧ Table.read? t.last k = none)

end Sys2Proof.Machine
end

