-- ==== Sys2Proof/Machine/Whole.lean ====
section
/-! DEFINITION. Each command as one function of its input elements and the parameters: 41_compress.md R141, 42_decompress.md
R168, 44_commands.md R221. The step relation does not use it; it is the second form the spec gives an operation, on lists
and without registers or buffers. -/

namespace Sys2Proof.Machine.Whole

/-- The result of an operation, 44_commands.md R221. -/
inductive Result where
  /-- Success: the output elements, and the final `N` and `NB`. -/
  | ok (out : List Elem) (n nb : Nat)
  /-- Failure with its cause. -/
  | fail (c : Cause)
  deriving DecidableEq, Repr

/-! ## Compression -/

/-- What compression has built: the dictionary, the count of assigned codes, the pending phrase and the code stream so far. -/
structure Enc where
  dict : DictC
  n : Nat
  w : Phrase
  stream : List Bool
  deriving DecidableEq, Repr

/-- Nothing read yet, R131. -/
def Enc.init : Enc := { dict := [], n := firstCode, w := [], stream := [] }

/-- `EMIT_PHRASE(w)`, R138, with the width of 10_state.md R28. -/
def Enc.emit (e : Enc) : Enc :=
  match DictC.code? e.dict e.w with
  | some k => { e with stream := e.stream ++ msb (bitlen e.n) k }
  | none =>
    { e with
      stream := e.stream ++ msb (bitlen e.n) rawCode ++ (e.w.map fun u => msb rawBits u.toNat).flatten
      dict := DictC.add e.dict e.w e.n
      n := e.n + 1 }

/-- `SCAN(c)`, R135 to R137. -/
def Enc.scan (e : Enc) (c : Elem) : Enc :=
  if e.w = [] then { e with w := [c] }
  else if (DictC.code? e.dict (e.w ++ [c])).isSome then { e with w := e.w ++ [c] }
  else
    let d := e.emit
    { d with dict := DictC.add d.dict (e.w ++ [c]) d.n, n := d.n + 1, w := [c] }

/-- The end of input, R140: the final phrase with the slot reserved after it, and the terminator. -/
def Enc.close (e : Enc) : Enc :=
  let d := if e.w = [] then e else { e.emit with n := e.emit.n + 1 }
  { d with stream := d.stream ++ msb (bitlen d.n) eosCode }

/-- The code stream of an input and what is known when it ends. -/
def encodeStream (xs : List Elem) : Enc := (xs.foldl Enc.scan Enc.init).close

/-- The first `count` groups of `sb` bits as symbol values: symbol `i` is the value of the bits from `i · sb` on, where a bit
past the end is 0 (40_bitstream.md R103). -/
def symbols (sb count : Nat) (bits : List Bool) : List Nat :=
  (List.range count).map fun i => val ((bits.drop (i * sb) ++ List.replicate sb false).take sb)

/-- The `=` elements after `len` symbols: `BASE64` only, up to a multiple of 4 (43_alphabets.md R193). -/
def padding (ad : Adapter) (len : Nat) : List Elem :=
  match ad with
  | .raw16 => []
  | .base64 => List.replicate ((4 - len % 4) % 4) padElem
  | .uri => []
  | .bytes => []

/-- A code stream as the elements of an adapter: `⌈L / SB⌉` symbols, then the padding (R103, 30_encoding.md R77, R78). -/
def render (ad : Adapter) (bits : List Bool) : List Elem :=
  let syms := symbols ad.sb ((bits.length + ad.sb - 1) / ad.sb) bits
  syms.map ad.enc ++ padding ad syms.length

/-- Compression as one function, R141: the only failure is a capacity bound (60_exceptions.md R231). -/
def compress (ad : Adapter) (p : Params) (xs : List Elem) : Result :=
  let e := encodeStream xs
  let out := render ad e.stream
  if exceeds p.inMax xs.length || exceeds p.maxCodeBits (bitlen e.n) || exceeds p.outMax out.length then
    .fail .capacity
  else .ok out e.n (bitlen e.n)

/-! ## Decompression -/

/-- What decompression has built: the dictionary, the count of assigned codes, the last phrase's code, the pending code and
the output so far. -/
structure Dec where
  dict : DictD
  n : Nat
  prev : Option Nat
  pend : Option Nat
  out : List Elem
  deriving DecidableEq, Repr

/-- Nothing read yet, 42_decompress.md R161. -/
def Dec.init : Dec := { dict := [], n := firstCode, prev := none, pend := none, out := [] }

/-- `ADVANCE` with the width of 10_state.md R28. -/
def Dec.advance (p : Params) (d : Dec) : Option Dec :=
  if exceeds p.maxCodeBits (bitlen (d.n + 1)) then none else some { d with n := d.n + 1 }

/-- `TAIL(k, e)`, R167; `none` is `ERR_CAPACITY`. -/
def Dec.tail (p : Params) (k : Nat) (e : Phrase) (d : Dec) : Option Dec :=
  let filled := match d.pend with
    | none => d.dict
    | some q => Table.write d.dict q (((d.prev.bind (Table.read? d.dict)).getD []) ++ e.take 1)
  let out := d.out ++ e
  if exceeds p.outMax out.length then none
  else Dec.advance p { d with dict := filled, out := out, prev := some k, pend := some d.n }

/-- The word a reference stands for: a known entry, or the one-ahead word (R164, R165); `none` is an illegal code (R166). -/
def Dec.word? (d : Dec) (k : Nat) : Option Phrase :=
  match Table.read? d.dict k with
  | some e => some e
  | none => if d.pend = some k then (d.prev.bind (Table.read? d.dict)).map fun q => q ++ q.take 1 else none

/-- The unpacked bits of the input elements: the trailing `=` of `BASE64` dropped, then one group of bits each
(40_bitstream.md R104, 43_alphabets.md R194). -/
def unpackAll (ad : Adapter) (xs : List Elem) : Option (List Bool) :=
  match ad with
  | .raw16 => unpackElems .raw16 xs
  | .base64 => unpackElems .base64 (xs.reverse.dropWhile (· = padElem)).reverse
  | .uri => unpackElems .uri xs
  | .bytes => unpackElems .bytes xs

/-- One code word after another, R168. `fuel` bounds the words; one more than the bits is enough, since a word has bits. -/
def decodeStream (p : Params) : Nat → Dec → List Bool → Result
  | 0, _, _ => .fail .truncated
  | fuel + 1, d, bits =>
    match takeBits (bitlen d.n) bits with
    | none => .fail .truncated
    | some (k, rest) =>
      if k = eosCode then .ok d.out d.n (bitlen d.n)
      else if k = rawCode then
        match takeBits rawBits rest with
        | none => .fail .truncated
        | some (u, rest') =>
          let e : Phrase := [BitVec.ofNat 16 u]
          match (Dec.advance p { d with dict := Table.write d.dict d.n e }).bind (Dec.tail p d.n e) with
          | none => .fail .capacity
          | some d' => decodeStream p fuel d' rest'
      else if d.prev = none then .fail .badCode
      else
        match d.word? k with
        | none => .fail .badCode
        | some e =>
          match Dec.tail p k e d with
          | none => .fail .capacity
          | some d' => decodeStream p fuel d' rest

/-- Decompression as one function, R168. -/
def decompress (ad : Adapter) (p : Params) (xs : List Elem) : Result :=
  if exceeds p.inMax xs.length then .fail .capacity
  else
    match unpackAll ad xs with
    | none => .fail .alphabet
    | some bits => decodeStream p (bits.length + 1) Dec.init bits

/-! ## Commands -/

/-- The result of a command, R221: a function of `CMD`, the input elements and the parameters alone. -/
def command (v : BitVec 3) (p : Params) (xs : List Elem) : Result :=
  if cmdDir v then decompress (cmdAdapter v) p xs else compress (cmdAdapter v) p xs

end Sys2Proof.Machine.Whole
end

