-- ==== Sys2Proof/Safety.lean ====
section
/-! DEFINITION. What counts as a safe state: the invariants the spec states of every state of an operation (10_state.md R23, R28,
R31 to R36, R38; 20_memory.md R53; 60_exceptions.md R241). A run is safe when each of its states is. -/

namespace Sys2Proof.Safety

open Sys2Proof.Machine

/-- `k` steps of the block, as `Host.Core.run` takes them; a stop ends the run. -/
def run : Nat → State → Host.Outcome State Fault Refusal
  | 0, s => .next s
  | k + 1, s =>
    match step s with
    | .next t => run k t
    | .fault r => .fault r
    | .refused r => .refused r

/-- `STATUS` is one of the legal words of R23, and `BUSY = 1` exactly when `PHASE` is not `IDLE` (R39). -/
def StatusOk (s : State) : Prop :=
  if s.phase = .idle then s.status = statusIdle ∨ s.status = statusSuccess ∨ ∃ c, s.status = statusFailure c
  else s.status = statusBusy

/-- `OUT` holds the elements `0 … OUT_LEN-1` and no other (R53, R211), at most `P_OUT_MAX` of them (R10). -/
def OutOk (s : State) : Prop :=
  s.outBuf.map Prod.fst = List.range s.outLen ∧ ∀ m ∈ s.params.outMax, s.outLen ≤ m

/-- The invariant of `N` and `NB`, R28, with the bound of R54. -/
def CodesOk (s : State) : Prop :=
  2 ≤ s.n ∧ s.n < 2 ^ s.nb ∧ s.nb = bitlen s.n ∧ ∀ m ∈ s.params.maxCodeBits, s.nb ≤ m

/-- `0 ≤ ACC_CNT < SB`, and `ACC` holds `ACC_CNT` bits (R34). -/
def AccOk (s : State) : Prop := s.accCnt < s.adapter.sb ∧ s.acc < 2 ^ s.accCnt

/-- `DICT_C` of R31 and R33: no word twice, codes in insertion order from `FIRST_CODE` up and below `N`, prefix-closed. -/
def DictCOk (s : State) : Prop :=
  (s.dictC.map Prod.fst).Nodup ∧ (s.dictC.map Prod.snd).Pairwise (· < ·) ∧
  (∀ e ∈ s.dictC, e.1 ≠ [] ∧ firstCode ≤ e.2 ∧ e.2 < s.n) ∧
  ∀ p c, p ≠ [] → (DictC.code? s.dictC (p ++ [c])).isSome → (DictC.code? s.dictC p).isSome

/-- `W` of R32: empty only before the first input unit, else a registered word or a unit not yet registered. -/
def PhraseOk (s : State) : Prop :=
  (s.w = [] ↔ s.inPtr = 0) ∧
  (s.w = [] → s.dictC = []) ∧
  (s.w ≠ [] → (DictC.code? s.dictC s.w).isSome ∨ ∃ u, s.w = [u])

/-- A compression between two steps. -/
def CompressOk (s : State) : Prop :=
  cmdDir s.cmd = false ∧ AccOk s ∧ DictCOk s ∧ PhraseOk s ∧ s.inPtr ≤ s.inLen

/-- Nothing decoded yet (R161). -/
def NothingDecoded (s : State) : Prop := s.prev = none ∧ s.pend = none ∧ s.dictD = [] ∧ s.n = firstCode

/-- `DICT_D`, `PREV` and `PEND` of R35 and R36 after the first phrase; `PEND = N - 1` (30_encoding.md R74). -/
def PhrasesDecoded (s : State) : Prop :=
  ∃ p q, s.prev = some p ∧ s.pend = some q ∧ p < q ∧ q + 1 = s.n ∧ firstCode ≤ p ∧
    ∀ k, (Table.read? s.dictD k).isSome ↔ firstCode ≤ k ∧ k < q

/-- A decompression between two code words. -/
def DecodeOk (s : State) : Prop :=
  cmdDir s.cmd = true ∧ Table.wf s.dictD ∧ (∀ e ∈ s.dictD, e.2 ≠ []) ∧ s.bp ≤ s.bits.length ∧
  (NothingDecoded s ∨ PhrasesDecoded s)

/-- What holds of the working state of a running operation whose input the host has not touched. -/
def RunningOk (s : State) : Prop :=
  CodesOk s ∧
  match s.phase with
  | .idle => True
  | .cScan => CompressOk s
  | .cEnd => CompressOk s ∧ s.inPtr = s.inLen
  | .dCheck => cmdDir s.cmd = true ∧ NothingDecoded s
  | .dDecode => DecodeOk s

/-- After success the debug registers hold a count and its width (R241). -/
def DebugOk (s : State) : Prop := 2 ≤ s.dbgN ∧ s.dbgN ≤ 2 ^ s.dbgNb - 1 ∧ s.dbgNb = bitlen s.dbgN

/-- The invariant of the block. Of an operation whose input the host changed while it ran (`spoiled`) the spec says nothing
but that it ends (70_reset_and_hazards.md R256). -/
structure Inv (s : State) : Prop where
  params : s.params.wf
  inWf : Memory.wf s.inBuf
  out : OutOk s
  status : StatusOk s
  running : s.phase ≠ .idle → s.spoiled = false → RunningOk s
  debug : s.status = statusSuccess → s.spoiled = false → DebugOk s

/-- The host keeps its duty at this step: it does not write `IN` or `IN_LEN` while the block is busy
(70_reset_and_hazards.md R256). -/
def hostDuty (s : State) : Bool :=
  match s.host with
  | .writeIn _ _ :: _ => !s.busy
  | .writeInLen _ :: _ => !s.busy
  | _ => true

end Sys2Proof.Safety
end

