-- ==== Sys2Proof/Certificates/Slice0/Obligations.lean ====
section
/-! DEFINITION. The statements for the provers, and the few notions they share. -/

namespace Sys2Proof.Claims

open Sys2Proof.Machine Sys2Proof.Safety

/-- The eight commands and the value of `CMD` that encodes each (30_encoding.md R79). -/
def commands : List (Instr × BitVec 3) :=
  [(.compressRaw16, 0), (.compressBase64, 1), (.compressUri, 2), (.compressBytes, 3),
   (.decompressRaw16, 4), (.decompressBase64, 5), (.decompressUri, 6), (.decompressBytes, 7)]

/-- The engine has the next step of `s`, and `rest` is what the host does after it. -/
def engineTurn (s : State) (rest : List HostAct) : Prop := s.host = [] ∧ rest = [] ∨ s.host = .engine :: rest

/-- A running operation in a sound state, whose input the host has left alone, and the engine has the next step. -/
def running (ph : Phase) (s : State) (rest : List HostAct) : Prop :=
  Inv s ∧ s.phase = ph ∧ s.spoiled = false ∧ engineTurn s rest

/-- What only the host writes, and the parameters. -/
def sameInput (s t : State) : Prop :=
  t.inLen = s.inLen ∧ (∀ i, t.inAt i = s.inAt i) ∧ t.params = s.params

/-- The registers of the running operation other than its working state. -/
def sameStatus (s t : State) : Prop :=
  t.cmd = s.cmd ∧ t.status = s.status ∧ t.phase = s.phase ∧ t.dbgN = s.dbgN ∧ t.dbgNb = s.dbgNb ∧ t.spoiled = s.spoiled

/-- The working state of compression alone (10_state.md R31 to R34). -/
def sameCompression (s t : State) : Prop :=
  t.dictC = s.dictC ∧ t.w = s.w ∧ t.inPtr = s.inPtr ∧ t.acc = s.acc ∧ t.accCnt = s.accCnt

/-- The working state of decompression alone (10_state.md R35 to R38). -/
def sameDecompression (s t : State) : Prop :=
  t.dictD = s.dictD ∧ t.prev = s.prev ∧ t.pend = s.pend ∧ t.bits = s.bits ∧ t.bp = s.bp

/-- `OUT` and its length are unchanged, at every index. -/
def sameOutput (s t : State) : Prop := t.outLen = s.outLen ∧ ∀ i, t.outAt i = s.outAt i

/-- The elements `e` were appended to `OUT`; every other element is unchanged. -/
def appended (e : List Elem) (s t : State) : Prop :=
  t.outLen = s.outLen + e.length ∧ (∀ j, ∀ h : j < e.length, t.outAt (s.outLen + j) = e[j]) ∧
    ∀ i, i < s.outLen ∨ s.outLen + e.length ≤ i → t.outAt i = s.outAt i

/-- The report of a failure, 60_exceptions.md R233. -/
def failed (c : Cause) (t : State) : Prop := t.outLen = 0 ∧ t.status = statusFailure c ∧ t.phase = .idle

/-- The block reports a result, 44_commands.md R221. -/
def reports : Whole.Result → State → Prop
  | .ok out n nb, t =>
    t.status = statusSuccess ∧ t.phase = .idle ∧ t.outLen = out.length ∧ (∀ i, ∀ h : i < out.length, t.outAt i = out[i]) ∧
      t.dbgN = n ∧ t.dbgNb = nb
  | .fail c, t => failed c t

/-- One more word fits: its output in `OUT`, and the count `n` in the largest width (00_scope.md R10). -/
def fits (s : State) (outLen n : Nat) : Prop :=
  (∀ m ∈ s.params.outMax, outLen ≤ m) ∧ ∀ m ∈ s.params.maxCodeBits, bitlen n ≤ m

/-- The bits an operation has written so far: the symbols in `OUT`, then the partial symbol (10_state.md R34). -/
def written (s : State) : List Bool :=
  ((List.range s.outLen).map fun i => msb s.adapter.sb ((s.adapter.dec (s.outAt i)).getD 0)).flatten ++ msb s.accCnt s.acc

/-- The code word, and literal if any, of the pending phrase (41_compress.md R138). -/
def phraseBits (s : State) : List Bool :=
  match DictC.code? s.dictC s.w with
  | some k => msb s.nb k
  | none => msb s.nb rawCode ++ (s.w.map fun u => msb rawBits u.toNat).flatten

/-- How many codes the emission of the pending phrase assigns (41_compress.md R138). -/
def phraseCodes (s : State) : Nat := if (DictC.code? s.dictC s.w).isSome then 0 else 1

/-- The code units the tables of 43_alphabets.md R192 and R195 share: `A` to `Z`, `a` to `z`, `0` to `9` and `+`. -/
def sharedSymbol (c : Nat) : Prop := 0x41 ≤ c ∧ c ≤ 0x5A ∨ 0x61 ≤ c ∧ c ≤ 0x7A ∨ 0x30 ≤ c ∧ c ≤ 0x39 ∨ c = 0x2B

/-- An item of a code stream before its `EOS` (30_encoding.md R72). -/
inductive Item where
  | raw (u : Elem)
  | ref (k : Nat)
  deriving DecidableEq, Repr

/-- The codes an item assigns: `r_i + 1` of 30_encoding.md R73. -/
def Item.codes : Item → Nat
  | .raw _ => 2
  | .ref _ => 1

/-- The bits of one item at width `bitlen N` (30_encoding.md R70, R73). -/
def Item.bits (n : Nat) : Item → List Bool
  | .raw u => msb (bitlen n) rawCode ++ msb rawBits u.toNat
  | .ref k => msb (bitlen n) k

/-- The code stream of some items from count `n` on, by the width schedule of 30_encoding.md R73, with its `EOS`. -/
def streamOf (n : Nat) : List Item → List Bool
  | [] => msb (bitlen n) eosCode
  | i :: is => i.bits n ++ streamOf (n + i.codes) is

/-- Every reference of the items is legal where it stands, `PREV ≠ none` from the second item on (30_encoding.md R72, R74). -/
def legal (n : Nat) : List Item → Prop
  | [] => True
  | .raw u :: is => legal (n + (Item.raw u).codes) is
  | .ref k :: is => firstCode < n ∧ firstCode ≤ k ∧ k ≤ n - 1 ∧ legal (n + (Item.ref k).codes) is

/-- `WRITE` calls in order (40_bitstream.md R100). -/
def writeAll : List (Nat × Nat) → State → Except Stop State
  | [], s => .ok s
  | (v, n) :: ws, s => (write v n s).bind (writeAll ws)

/-- The stream bits `t_0 … t_{L-1}` that some `WRITE` calls form (40_bitstream.md R103). -/
def stream (ws : List (Nat × Nat)) : List Bool := (ws.map fun w => msb w.2 w.1).flatten

/-- `READ` calls in order: the values read (40_bitstream.md R105). -/
def readAll : List Nat → State → Except Stop (List Nat)
  | [], _ => .ok []
  | n :: ns, s => (readBits n s).bind fun (v, t) => (readAll ns t).map (v :: ·)

/-- How many steps a command takes at most: the bounds of 70_reset_and_hazards.md R263. -/
def stepBound (v : BitVec 3) (s : State) : Nat :=
  if cmdDir v then 2 + (cmdAdapter v).sb * (cmdAdapter v).length s.inAt s.inLen / 2 + 1 else s.inLen + 3

/-- An idle block in a sound state whose host is about to write `CMD` and then only waits. -/
def aboutToStart (v : BitVec 3) (s : State) : Prop := Inv s ∧ s.phase = .idle ∧ s.host = [.writeCmd v]

end Sys2Proof.Claims

open Sys2Proof Sys2Proof.Machine Sys2Proof.Safety Sys2Proof.Claims

/-! ## Reset -/

/-- 70_reset_and_hazards.md R250, R251: what the spec gives a value after reset has it, in the reset state and after a power-on
reset of any state, a busy one included. What it leaves unspecified is not named here. -/
def Obligations.PowerOnResetState : Prop :=
  (State.reset.cmd = 0 ∧ State.reset.status = 0 ∧ State.reset.outLen = 0 ∧ State.reset.phase = .idle) ∧
  ∀ (s : State) (rest : List HostAct), s.host = .powerOnReset :: rest →
    ∃ t, step s = .next t ∧ t.cmd = 0 ∧ t.status = 0 ∧ t.done = false ∧ t.busy = false ∧ t.outLen = 0 ∧ t.phase = .idle ∧
      t.host = rest ∧ t.params = s.params

/-- 70_reset_and_hazards.md R250 ("whatever it was doing"), R251, R252: a reset leaves nothing of the state before it.
The premises name the parameters, the host's list and the draw of free values, which are the model's (log entries 1, 6, 7). -/
def Obligations.ResetForgetsEverything : Prop :=
  ∀ (s₁ s₂ : State) (rest : List HostAct), s₁.host = .powerOnReset :: rest → s₂.host = .powerOnReset :: rest →
    s₁.params = s₂.params → s₁.free = s₂.free → step s₁ = step s₂

/-- The state after reset is sound (`Inv`), so every statement about sound states holds of it. -/
def Obligations.ResetMeetsInvariant : Prop := Inv State.reset

/-! ## Commands -/

/-- 44_commands.md R210, 41_compress.md R131, 70_reset_and_hazards.md R258: each command, written while the block is idle, starts its
operation, or fails at once when `IN_LEN` is above `P_IN_MAX`. `IN` and `IN_LEN` are unchanged. -/
def Obligations.CommandStartsOperation : Prop :=
  ∀ (c : Instr × BitVec 3) (s : State), c ∈ commands → s.busy = false →
    ((∀ m ∈ s.params.inMax, s.inLen ≤ m) →
      ∃ t, exec c.1 s = .next t ∧ t.cmd = c.2 ∧ t.status = statusBusy ∧ t.outLen = 0 ∧ t.n = 2 ∧ t.nb = 2 ∧
        (c.2.toNat < 4 → t.phase = .cScan ∧ t.dictC = [] ∧ t.w = [] ∧ t.inPtr = 0 ∧ t.acc = 0 ∧ t.accCnt = 0) ∧
        (4 ≤ c.2.toNat → t.phase = .dCheck ∧ t.dictD = [] ∧ t.prev = none ∧ t.pend = none) ∧
        t.adapter = cmdAdapter c.2 ∧ t.host = s.host ∧ sameInput s t) ∧
    ((∃ m ∈ s.params.inMax, m < s.inLen) →
      ∃ t, exec c.1 s = .next t ∧ failed .capacity t ∧ t.cmd = c.2 ∧ t.host = s.host ∧ sameInput s t)

/-- 70_reset_and_hazards.md R257: a write of `CMD` while the block is busy changes nothing. -/
def Obligations.CommandWhileBusyIgnored : Prop :=
  ∀ (s : State), s.busy = true →
    (∀ c ∈ commands, exec c.1 s = .next s) ∧
    ∀ (v : BitVec 3) (rest : List HostAct), s.host = .writeCmd v :: rest → step s = .next { s with host := rest }

/-- 60_exceptions.md R234: after a failure the block accepts the next command at once. -/
def Obligations.FailureIsNotFatal : Prop :=
  ∀ (c : Instr × BitVec 3) (e : Cause) (s : State), c ∈ commands → (∀ m ∈ s.params.inMax, s.inLen ≤ m) →
    ∃ t, exec c.1 (fail e s) = .next t ∧ t.cmd = c.2 ∧ t.status = statusBusy ∧ t.n = 2 ∧ t.nb = 2

/-! ## Encoding -/

/-- 30_encoding.md R70, R71, R73, R79: decoding undoes encoding. A code word is read back with every operand at every value its
context admits, and the bits after it are left; a command word is read back as its command. -/
def Obligations.DecodingUndoesEncoding : Prop :=
  (∀ (c : CodeCtx) (i : Instr) (rest : List Bool), i.isCodeWord = true → i.wf c = true →
    decodeCode c (encode c.nb i ++ rest) = .ok (i, rest)) ∧
  ∀ (i : Instr) (nb : Nat), i.isCodeWord = false →
    (encodeCommand i).map decodeCommand = some i ∧ decodeTableWord 3 (val (encode nb i)) = some i

/-- 30_encoding.md R70 to R75: what the decoder reads is a well-formed code word, and its encoding is the bits read. -/
def Obligations.EncodingUndoesDecoding : Prop :=
  ∀ (c : CodeCtx) (bits rest : List Bool) (i : Instr), decodeCode c bits = .ok (i, rest) →
    i.isCodeWord = true ∧ i.wf c = true ∧ encode c.nb i ++ rest = bits ∧ (encode c.nb i).length = i.width c.nb

/-- 30_encoding.md R74: which codes are legal, and what each is, where decompression reads a code word in a sound state; every other
code raises `ERR_BAD_CODE`. -/
def Obligations.LegalCodes : Prop :=
  ∀ (s : State) (k : Nat) (rest : List Bool), CodesOk s → DecodeOk s → k < 2 ^ s.nb →
    (s.prev ≠ none → s.pend = some (s.n - 1)) ∧ s.n < 2 ^ s.nb ∧
    (k = 0 → ∀ (u : Elem) (r : List Bool), rest = msb rawBits u.toNat ++ r →
      decodeCode s.codeCtx (msb s.nb k ++ rest) = .ok (.raw u, r)) ∧
    (k = 1 → decodeCode s.codeCtx (msb s.nb k ++ rest) = .ok (.eos, rest)) ∧
    (s.prev ≠ none → 2 ≤ k → k ≤ s.n - 2 → decodeCode s.codeCtx (msb s.nb k ++ rest) = .ok (.ref k, rest)) ∧
    (s.prev ≠ none → k = s.n - 1 → decodeCode s.codeCtx (msb s.nb k ++ rest) = .ok (.refAhead k, rest)) ∧
    ((s.prev = none ∧ 2 ≤ k) ∨ (s.prev ≠ none ∧ s.n ≤ k) →
      decodeCode s.codeCtx (msb s.nb k ++ rest) = .ok (.illegalCode k, rest) ∧ ∃ t, exec (.illegalCode k) s = .next t ∧ failed .badCode t)

/-- 30_encoding.md R79, R70, R71 and 95_test_vectors.md V-D2: words written out from the encoding tables, and what they stand for. The
code words are those of the stream `RAW('A')@2 RAW('B')@3 REF(3)@3 AHEAD(6)@3 … EOS@4`. -/
def Obligations.WordsOfTheTables : Prop :=
  (decodeCommand 0b000#3 = .compressRaw16 ∧ decodeCommand 0b001#3 = .compressBase64 ∧ decodeCommand 0b010#3 = .compressUri ∧
    decodeCommand 0b011#3 = .compressBytes ∧ decodeCommand 0b100#3 = .decompressRaw16 ∧
    decodeCommand 0b101#3 = .decompressBase64 ∧ decodeCommand 0b110#3 = .decompressUri ∧
    decodeCommand 0b111#3 = .decompressBytes) ∧
  decodeCode { nb := 2, prev := none, pend := none, known := [] }
    [false, false, false, false, false, false, false, false, false, false, false, true, false, false, false, false, false, true]
    = .ok (.raw 0x41, []) ∧
  decodeCode { nb := 3, prev := some 4, pend := some 5, known := [2, 3, 4] } [false, true, true, true] = .ok (.ref 3, [true]) ∧
  decodeCode { nb := 3, prev := some 3, pend := some 6, known := [2, 3, 4, 5] } [true, true, false] = .ok (.refAhead 6, []) ∧
  decodeCode { nb := 3, prev := some 2, pend := some 3, known := [2] } [true, false, true] = .ok (.illegalCode 5, []) ∧
  decodeCode { nb := 4, prev := some 4, pend := some 9, known := [2, 3, 4, 5, 6, 7, 8] } [false, false, false, true, false]
    = .ok (.eos, [false])

/-- 00_scope.md R12: the least width of a value, and the value of the bits of a value. -/
def Obligations.BitsAndValues : Prop :=
  (∀ v : Nat, v < 2 ^ bitlen v ∧ ∀ b, v < 2 ^ b → bitlen v ≤ b) ∧
  (∀ n v : Nat, (msb n v).length = n ∧ (v < 2 ^ n → val (msb n v) = v)) ∧
  ∀ n v j : Nat, j < n → (msb n v)[j]? = some ((v / 2 ^ (n - 1 - j)) % 2 == 1)

/-! ## Steps -/

/-- 00_scope.md R17, 70_reset_and_hazards.md R262: when the host writes `CMD`, the step is the command the value encodes, at the state
with that action taken off the host's list. -/
def Obligations.StepRunsHostCommand : Prop :=
  ∀ (s : State) (c : Instr × BitVec 3) (rest : List HostAct), c ∈ commands → s.host = .writeCmd c.2 :: rest →
    step s = exec c.1 { s with host := rest }

/-- 42_decompress.md R161, 40_bitstream.md R105: in `D_DECODE` a step runs the code word at the bit cursor, with a new draw of free
values begun and the host's turn passed; with too few bits for a code word or its literal it fails with `ERR_TRUNCATED`. -/
def Obligations.StepRunsDecodedCodeWord : Prop :=
  ∀ (s : State) (rest : List HostAct), s.phase = .dDecode → s.spoiled = false → engineTurn s rest →
    (∀ (i : Instr) (tl : List Bool), decodeCode s.codeCtx s.restBits = .ok (i, tl) →
      step s = exec i (tick { s with host := rest })) ∧
    (∀ (i : Instr) (tl : List Bool), i.isCodeWord = true → i.wf s.codeCtx = true → s.restBits = encode s.nb i ++ tl →
      step s = exec i (tick { s with host := rest })) ∧
    ((s.restBits.length < s.nb ∨
        ∃ r, s.restBits = msb s.nb rawCode ++ r ∧ r.length < rawBits) →
      ∃ t, step s = .next t ∧ failed .truncated t)

/-! ## Code words -/

/-- 42_decompress.md R162, 44_commands.md R211: `EOS` completes with success from every state. The output stays, `DBG_N` and `DBG_NB`
take the final `N` and `NB`. -/
def Obligations.EosCompletes : Prop :=
  ∀ s : State, ∃ t, exec .eos s = .next t ∧ t.status = statusSuccess ∧ t.phase = .idle ∧ t.dbgN = s.n ∧ t.dbgNb = s.nb ∧
    t.cmd = s.cmd ∧ t.host = s.host ∧ t.spoiled = s.spoiled ∧ sameOutput s t ∧ sameInput s t

/-- 42_decompress.md R163, R167: `RAW` registers its unit under `N`, fills the pending entry, appends the unit, and reserves the next
code. Frame: nothing else changes. -/
def Obligations.RawDecodes : Prop :=
  ∀ (u : Elem) (s : State), CodesOk s → DecodeOk s → (∀ m ∈ s.params.outMax, s.outLen ≤ m) →
    fits s (s.outLen + 1) (s.n + 2) →
    ∃ t, exec (.raw u) s = .next t ∧ appended [u] s t ∧
      t.n = s.n + 2 ∧ t.nb = bitlen (s.n + 2) ∧ t.prev = some s.n ∧ t.pend = some (s.n + 1) ∧ t.bp = s.bp + s.nb + 16 ∧
      Table.read? t.dictD s.n = some [u] ∧
      (∀ p q w, s.prev = some p → s.pend = some q → Table.read? s.dictD p = some w →
        Table.read? t.dictD q = some (w ++ [u])) ∧
      (∀ k, k ≠ s.n → s.pend ≠ some k → Table.read? t.dictD k = Table.read? s.dictD k) ∧
      t.bits = s.bits ∧ t.host = s.host ∧ sameStatus s t ∧ sameCompression s t ∧ sameInput s t

/-- 42_decompress.md R164, R167: `REF` outputs the word of a known code, fills the pending entry with the previous word and the first
unit of this one, and reserves the next code. Frame: nothing else changes. -/
def Obligations.RefDecodes : Prop :=
  ∀ (k : Nat) (e : Phrase) (s : State), CodesOk s → DecodeOk s → (∀ m ∈ s.params.outMax, s.outLen ≤ m) →
    Table.read? s.dictD k = some e → fits s (s.outLen + e.length) (s.n + 1) →
    ∃ t, exec (.ref k) s = .next t ∧ appended e s t ∧
      t.n = s.n + 1 ∧ t.nb = bitlen (s.n + 1) ∧ t.prev = some k ∧ t.pend = some s.n ∧ t.bp = s.bp + s.nb ∧
      (∀ p q w, s.prev = some p → s.pend = some q → Table.read? s.dictD p = some w →
        Table.read? t.dictD q = some (w ++ e.take 1)) ∧
      (∀ j, s.pend ≠ some j → Table.read? t.dictD j = Table.read? s.dictD j) ∧
      t.bits = s.bits ∧ t.host = s.host ∧ sameStatus s t ∧ sameCompression s t ∧ sameInput s t

/-- 42_decompress.md R165, R167: `REF_AHEAD` outputs the previous word and its first unit, which is also what the pending entry
becomes. Frame: nothing else changes. -/
def Obligations.RefAheadDecodes : Prop :=
  ∀ (k p : Nat) (x : Elem) (w : Phrase) (s : State), CodesOk s → DecodeOk s → (∀ m ∈ s.params.outMax, s.outLen ≤ m) →
    s.pend = some k → s.prev = some p → Table.read? s.dictD p = some (x :: w) →
    fits s (s.outLen + w.length + 2) (s.n + 1) →
    ∃ t, exec (.refAhead k) s = .next t ∧ appended (x :: w ++ [x]) s t ∧
      t.n = s.n + 1 ∧ t.nb = bitlen (s.n + 1) ∧ t.prev = some k ∧ t.pend = some s.n ∧ t.bp = s.bp + s.nb ∧
      Table.read? t.dictD k = some (x :: w ++ [x]) ∧
      (∀ j, j ≠ k → Table.read? t.dictD j = Table.read? s.dictD j) ∧
      t.bits = s.bits ∧ t.host = s.host ∧ sameStatus s t ∧ sameCompression s t ∧ sameInput s t

/-- 42_decompress.md R166, 60_exceptions.md R233: an illegal code ends the operation with `ERR_BAD_CODE`, from every state. -/
def Obligations.IllegalCodeFails : Prop :=
  ∀ (k : Nat) (s : State), ∃ t, exec (.illegalCode k) s = .next t ∧ failed .badCode t ∧
    t.cmd = s.cmd ∧ t.host = s.host ∧ t.spoiled = s.spoiled ∧ sameInput s t

/-- 60_exceptions.md R231, R233: where the output or the code width would pass its bound, a `RAW`, `REF` or `REF_AHEAD` ends the
operation with `ERR_CAPACITY`. With `RawDecodes`, `RefDecodes` and `RefAheadDecodes` this covers every case of a sound state. -/
def Obligations.CodeWordsFailAtCapacity : Prop :=
  ∀ s : State, CodesOk s → DecodeOk s → (∀ m ∈ s.params.outMax, s.outLen ≤ m) →
    (∀ u : Elem, ¬ fits s (s.outLen + 1) (s.n + 2) →
      ∃ t, exec (.raw u) s = .next t ∧ failed .capacity t ∧ sameInput s t) ∧
    (∀ (k : Nat) (e : Phrase), Table.read? s.dictD k = some e → ¬ fits s (s.outLen + e.length) (s.n + 1) →
      ∃ t, exec (.ref k) s = .next t ∧ failed .capacity t ∧ sameInput s t) ∧
    (∀ (k p : Nat) (w : Phrase), s.pend = some k → s.prev = some p → Table.read? s.dictD p = some w →
      ¬ fits s (s.outLen + w.length + 1) (s.n + 1) →
      ∃ t, exec (.refAhead k) s = .next t ∧ failed .capacity t ∧ sameInput s t)

/-! ## Engine steps of compression -/

/-- 41_compress.md R134: `ADVANCE` counts one code, widens exactly when the count reaches `2^NB`, and raises `ERR_CAPACITY` exactly
when the new width passes `P_MAX_CODE_BITS`; the invariant of 10_state.md R28 holds again after it. -/
def Obligations.AdvanceCountsOneCode : Prop :=
  ∀ s : State, CodesOk s →
    ((∀ m ∈ s.params.maxCodeBits, bitlen (s.n + 1) ≤ m) →
      advance s = .ok { s with n := s.n + 1, nb := if s.n + 1 = 2 ^ s.nb then s.nb + 1 else s.nb } ∧
      s.n + 1 < 2 ^ bitlen (s.n + 1) ∧ bitlen (s.n + 1) = if s.n + 1 = 2 ^ s.nb then s.nb + 1 else s.nb) ∧
    ((∃ m ∈ s.params.maxCodeBits, m < bitlen (s.n + 1)) → advance s = .error (.cause .capacity))

/-- 41_compress.md R135, R136, R139: a scan step with nothing to emit: the first unit, or a unit that extends the match, joins the
pending phrase; with no unit left the phase moves on. Nothing else changes but the draw of free values. -/
def Obligations.ScanStepExtendsPhrase : Prop :=
  ∀ (s : State) (rest : List HostAct), s.phase = .cScan → s.spoiled = false → engineTurn s rest →
    (s.inPtr < s.inLen → s.w = [] →
      step s = .next (tick { s with host := rest, w := [s.inAt s.inPtr], inPtr := s.inPtr + 1 })) ∧
    (s.inPtr < s.inLen → s.w ≠ [] → (DictC.code? s.dictC (s.w ++ [s.inAt s.inPtr])).isSome →
      step s = .next (tick { s with host := rest, w := s.w ++ [s.inAt s.inPtr], inPtr := s.inPtr + 1 })) ∧
    (s.inLen ≤ s.inPtr → step s = .next (tick { s with host := rest, phase := .cEnd }))

/-- 41_compress.md R137, R138, R133: a scan step on a miss: the pending phrase is emitted, as a reference or as an escape that
registers it, the longer word gets the next code, and the unit becomes the pending phrase. It fails with `ERR_CAPACITY` exactly
when a bound is reached. Frame: nothing else changes. -/
def Obligations.ScanStepEmitsOnMiss : Prop :=
  ∀ (s : State) (rest : List HostAct) (c : Elem), running .cScan s rest → s.inPtr < s.inLen → s.inAt s.inPtr = c → s.w ≠ [] →
    DictC.code? s.dictC (s.w ++ [c]) = none →
    (fits s (((written s).length + (phraseBits s).length) / s.adapter.sb) (s.n + phraseCodes s + 1) →
      ∃ t, step s = .next t ∧ written t = written s ++ phraseBits s ∧ (∀ i, i < s.outLen → t.outAt i = s.outAt i) ∧
        t.n = s.n + phraseCodes s + 1 ∧ t.nb = bitlen t.n ∧ t.w = [c] ∧ t.inPtr = s.inPtr + 1 ∧
        DictC.code? t.dictC (s.w ++ [c]) = some (s.n + phraseCodes s) ∧
        (DictC.code? s.dictC s.w = none → DictC.code? t.dictC s.w = some s.n) ∧
        (∀ p, p ≠ s.w ++ [c] → p ≠ s.w → DictC.code? t.dictC p = DictC.code? s.dictC p) ∧
        (∀ k, DictC.code? s.dictC s.w = some k → DictC.code? t.dictC s.w = some k) ∧
        t.host = rest ∧ sameStatus s t ∧ sameDecompression s t ∧ sameInput s t) ∧
    (¬ fits s (((written s).length + (phraseBits s).length) / s.adapter.sb) (s.n + phraseCodes s + 1) →
      ∃ t, step s = .next t ∧ failed .capacity t ∧ t.host = rest ∧ sameInput s t)

/-- 41_compress.md R140, 40_bitstream.md R102, 43_alphabets.md R193, 44_commands.md R211: the end of a compression: the last phrase, a code
slot reserved after it, the terminator, the padding, and success; or `ERR_CAPACITY` exactly when a bound is reached.
`all` is every bit of the code stream, and `Whole.render` its elements (40_bitstream.md R103). -/
def Obligations.EndStepCompletes : Prop :=
  ∀ (s : State) (rest : List HostAct) (n : Nat) (all : List Bool) (out : List Elem), running .cEnd s rest →
    n = (if s.w = [] then s.n else s.n + phraseCodes s + 1) →
    all = written s ++ (if s.w = [] then [] else phraseBits s) ++ msb (bitlen n) eosCode →
    out = Whole.render s.adapter all →
    (fits s out.length n →
      ∃ t, step s = .next t ∧ t.status = statusSuccess ∧ t.phase = .idle ∧ t.dbgN = n ∧ t.dbgNb = bitlen n ∧
        t.outLen = out.length ∧ (∀ i, i < s.outLen → t.outAt i = s.outAt i) ∧
        (∀ i, ∀ h : i < out.length, s.outLen ≤ i → t.outAt i = out[i]) ∧
        t.cmd = s.cmd ∧ t.host = rest ∧ sameInput s t) ∧
    (¬ fits s out.length n → ∃ t, step s = .next t ∧ failed .capacity t ∧ t.cmd = s.cmd ∧ t.host = rest ∧ sameInput s t)

/-! ## The bit stream and the alphabets -/

/-- 40_bitstream.md R104, 43_alphabets.md R198, R199: the check of a decompression's input. Every one of the first `ADAPTER_LENGTH()`
elements is checked; with all of them legal their symbols become `BITS`, else the operation fails with `ERR_ALPHABET`. -/
def Obligations.CheckStepUnpacks : Prop :=
  ∀ (s : State) (rest : List HostAct) (len : Nat), s.phase = .dCheck → s.spoiled = false → engineTurn s rest →
    len = s.adapter.length s.inAt s.inLen →
    ((∀ i < len, s.adapter.dec (s.inAt i) ≠ none) →
      ∃ t, step s = .next t ∧ t.phase = .dDecode ∧ t.bp = 0 ∧ t.bits.length = s.adapter.sb * len ∧
        (∀ i < len, ∀ v, s.adapter.dec (s.inAt i) = some v →
          (t.bits.drop (i * s.adapter.sb)).take s.adapter.sb = msb s.adapter.sb v) ∧
        t.status = s.status ∧ t.cmd = s.cmd ∧ t.host = rest ∧ t.n = s.n ∧ t.nb = s.nb ∧ t.dictD = s.dictD ∧ t.prev = s.prev ∧
        t.pend = s.pend ∧ sameOutput s t ∧ sameCompression s t ∧ sameInput s t) ∧
    ((∃ i < len, s.adapter.dec (s.inAt i) = none) → ∃ t, step s = .next t ∧ failed .alphabet t ∧ sameInput s t)

/-- 40_bitstream.md R103: what `WRITE` calls followed by the padding of `FINISH` append, from an empty accumulator and with room in
`OUT`: `⌈L / SB⌉` symbols, each the value of its `SB` bits with zeros past the end of the stream. -/
def Obligations.WriterSummary : Prop :=
  ∀ (ws : List (Nat × Nat)) (s : State) (len : Nat), OutOk s → s.acc = 0 → s.accCnt = 0 →
    len = ((stream ws).length + s.adapter.sb - 1) / s.adapter.sb → (∀ m ∈ s.params.outMax, s.outLen + len ≤ m) →
    ∃ t, (writeAll ws s).bind (padZeros s.adapter.sb) = .ok t ∧ t.outLen = s.outLen + len ∧ t.acc = 0 ∧ t.accCnt = 0 ∧
      (∀ i < len, ∀ g : List Bool, g.length = s.adapter.sb →
        (∀ j < s.adapter.sb, g[j]? = some ((stream ws)[i * s.adapter.sb + j]?.getD false)) →
        t.outAt (s.outLen + i) = s.adapter.enc (val g)) ∧
      ∀ i < s.outLen, t.outAt i = s.outAt i

/-- 40_bitstream.md R106: the reader gives back what the writer wrote, for any values that fit their widths. -/
def Obligations.ReaderUndoesWriter : Prop :=
  ∀ (ws : List (Nat × Nat)) (s t r : State), OutOk s → s.outLen = 0 → s.acc = 0 → s.accCnt = 0 →
    (∀ w ∈ ws, w.1 < 2 ^ w.2) → (writeAll ws s).bind finish = .ok t →
    r.adapter = s.adapter → r.inLen = t.outLen → (∀ i < r.inLen, r.inAt i = t.outAt i) →
    ∃ u, unpack r = .ok u ∧ readAll (ws.map Prod.snd) u = .ok (ws.map Prod.fst)

/-- 43_alphabets.md R200: `DEC` undoes `ENC`, and `ADAPTER_LENGTH` removes exactly the `=` that the finish hook added. -/
def Obligations.DecUndoesEnc : Prop :=
  (∀ (ad : Adapter) (v : Nat), v < 2 ^ ad.sb → ad.dec (ad.enc v) = some v) ∧
  (∀ v < 2 ^ Adapter.base64.sb, Adapter.base64.enc v ≠ padElem) ∧
  ∀ (vs : List Nat) (out : List Elem) (get : Nat → Elem), (∀ v ∈ vs, v < 2 ^ Adapter.base64.sb) →
    out = vs.map Adapter.base64.enc ++ Whole.padding .base64 vs.length → (∀ i, ∀ h : i < out.length, get i = out[i]) →
    Adapter.base64.length get out.length = vs.length

/-- 43_alphabets.md R190, R194, R195, R197: `DEC` is the partial inverse of `ENC`: where it is defined it gives a symbol value whose
element this is, and `=` has none. -/
def Obligations.EncUndoesDec : Prop :=
  (∀ (ad : Adapter) (x : Elem) (v : Nat), ad.dec x = some v → v < 2 ^ ad.sb ∧ ad.enc v = x) ∧
  (∀ ad : Adapter, ad = .base64 ∨ ad = .uri → ad.dec padElem = none) ∧ Adapter.uri.dec base64Last = none ∧
  ∀ x : Elem, Adapter.bytes.dec x = none ↔ 0xFF < x.toNat

/-- 43_alphabets.md R202: the elements of the text outputs are of their declared alphabets, whose code units R192 and R195 name:
the letters, the digits and `+`, then `/` or the pad `=` under `BASE64`, and `-` under `URI`. -/
def Obligations.AlphabetContainment : Prop :=
  (∀ (p : Params) (xs out : List Elem) (n nb : Nat), Whole.command 1 p xs = .ok out n nb →
    ∀ x ∈ out, sharedSymbol x.toNat ∨ x.toNat = 0x2F ∨ x.toNat = 0x3D) ∧
  ∀ (p : Params) (xs out : List Elem) (n nb : Nat), Whole.command 2 p xs = .ok out n nb →
    ∀ x ∈ out, sharedSymbol x.toNat ∨ x.toNat = 0x2D

/-! ## Whole operations -/

/-- 44_commands.md R221: every command ends with the result of the command as a function of `CMD`, the input elements and the
parameters, within the bound of 70_reset_and_hazards.md R263. -/
def Obligations.CommandComputesItsFunction : Prop :=
  ∀ (v : BitVec 3) (s : State), aboutToStart v s →
    ∃ t, run (stepBound v s) s = .next t ∧ reports (Whole.command v s.params (s.inElems s.inLen)) t

/-- 70_reset_and_hazards.md R263, 44_commands.md R212: every command ends within its bound, and a compression that succeeds takes
exactly `IN_LEN + 3` steps. -/
def Obligations.TerminationBound : Prop :=
  ∀ (v : BitVec 3) (s : State), aboutToStart v s →
    (∃ t, run (stepBound v s) s = .next t ∧ t.phase = .idle ∧ t.done = true) ∧
    ∀ (k : Nat) (t : State), 1 ≤ k → cmdDir v = false → run k s = .next t → t.status = statusSuccess → s.inLen + 3 ≤ k

/-- 42_decompress.md R169: from the first decode step on, a decompression ends after at most `⌊|BITS| / 2⌋ + 1` steps, and each step
that does not end it consumes at least `NB ≥ 2` bits. -/
def Obligations.DecodeStepsTerminate : Prop :=
  ∀ s : State, Inv s → s.phase = .dDecode → s.spoiled = false → s.host = [] →
    (∃ t, run ((s.bits.length - s.bp) / 2 + 1) s = .next t ∧ t.phase = .idle ∧ t.done = true) ∧
    ∀ t, step s = .next t → t.phase = .idle ∨ (t.phase = .dDecode ∧ t.bits = s.bits ∧ 2 ≤ s.nb ∧ s.bp + s.nb ≤ t.bp ∧ t.bp ≤ t.bits.length)

/-- 42_decompress.md R171: decompressing a compression's output under the same adapter gives the input back. Beside the rule's premise
`|x| ≤ P_OUT_MAX`, the output must fit in `IN` (70_reset_and_hazards.md R258; log entry 17). -/
def Obligations.RoundTrip : Prop :=
  ∀ (v : BitVec 3) (p : Params) (xs out : List Elem) (n nb : Nat), cmdDir v = false →
    Whole.command v p xs = .ok out n nb → (∀ m ∈ p.outMax, xs.length ≤ m) → (∀ m ∈ p.inMax, out.length ≤ m) →
    Whole.command (v + 4) p out = .ok xs n nb

/-- 42_decompress.md R171, 44_commands.md R222, 70_reset_and_hazards.md R259: the round trip on the block. The host writes the input
and a compression command by the host protocol, waits, copies the result into `IN`, and writes the decompression command of the same
adapter; once the host has nothing left to do, the block reports the input. Premises: the parameters leave room for both results. -/
def Obligations.RoundTripOnTheBlock : Prop :=
  ∀ (v : BitVec 3) (xs out : List Elem) (s t : State) (n nb k : Nat), cmdDir v = false → Inv s → s.phase = .idle →
    s.host = hostProtocol xs v → run k s = .next t → t.host = [] → t.phase = .idle →
    reports (.ok out n nb) t → (∀ m ∈ s.params.outMax, xs.length ≤ m) → (∀ m ∈ s.params.inMax, out.length ≤ m) →
    ∃ j u, run j { t with host := hostProtocol out (v + 4) } = .next u ∧ u.host = [] ∧ reports (.ok xs n nb) u

/-- 44_commands.md R222: the host protocol runs a command on exactly the elements the host wrote, whatever the block held before. -/
def Obligations.HostProtocolRunsCommand : Prop :=
  ∀ (v : BitVec 3) (xs : List Elem) (s : State), Inv s → s.phase = .idle → s.host = hostProtocol xs v →
    ∃ k t, run k s = .next t ∧ t.host = [] ∧ reports (Whole.command v s.params xs) t

/-- 10_state.md R42, 41_compress.md R143: two runs of a command on the same input end with the same report, whatever each block did
before. -/
def Obligations.NoEarlierOperationMatters : Prop :=
  ∀ (v : BitVec 3) (s₁ s₂ t₁ t₂ : State), aboutToStart v s₁ → aboutToStart v s₂ → s₁.params = s₂.params → s₁.inLen = s₂.inLen →
    (∀ i < s₁.inLen, s₁.inAt i = s₂.inAt i) →
    run (stepBound v s₁) s₁ = .next t₁ → run (stepBound v s₂) s₂ = .next t₂ →
    t₁.status = t₂.status ∧ t₁.outLen = t₂.outLen ∧ (∀ i < t₁.outLen, t₁.outAt i = t₂.outAt i) ∧
      (t₁.status = statusSuccess → t₁.dbgN = t₂.dbgN ∧ t₁.dbgNb = t₂.dbgNb)

/-- 42_decompress.md R172: the `BYTES` and the `RAW16` output of one input decompress to the same result. -/
def Obligations.CrossAdapterEquivalence : Prop :=
  ∀ (p : Params) (xs raw bytes : List Elem) (n nb n' nb' : Nat),
    Whole.command 0 p xs = .ok raw n nb → Whole.command 3 p xs = .ok bytes n' nb' → (∀ m ∈ p.inMax, bytes.length ≤ m) →
    Whole.command 7 p bytes = Whole.command 4 p raw

/-- 20_memory.md R56: the `BYTES` output is the `RAW16` output split into bytes, most significant first; a final zero byte is
dropped when the stream fills at most half of the last symbol. -/
def Obligations.BytesSplitRaw16 : Prop :=
  ∀ (p : Params) (xs raw bytes : List Elem) (n nb n' nb' len : Nat),
    Whole.command 0 p xs = .ok raw n nb → Whole.command 3 p xs = .ok bytes n' nb' →
    len = (Whole.encodeStream xs).stream.length →
    raw.length = (len + 15) / 16 ∧ bytes.length = (len + 7) / 8 ∧
    (∀ i, ∀ h : 2 * i < bytes.length, ∀ h' : i < raw.length, bytes[2 * i].toNat = raw[i].toNat / 256) ∧
    (∀ i, ∀ h : 2 * i + 1 < bytes.length, ∀ h' : i < raw.length, bytes[2 * i + 1].toNat = raw[i].toNat % 256) ∧
    (bytes.length % 2 = 1 → ∀ h : raw.length - 1 < raw.length, raw[raw.length - 1].toNat % 256 = 0) ∧
    (bytes.length % 2 = 1 ↔ 1 ≤ len % 16 ∧ len % 16 ≤ 8)

/-- 44_commands.md R215, R219, 90_conflicts.md C9: the `URI` output is the `BASE64` output without its `=` and with `-` for `/`; input
with neither `/` nor `=` nor `-` decompresses alike under both. -/
def Obligations.UriAgainstBase64 : Prop :=
  (∀ bits : List Bool, Whole.render .uri bits =
    ((Whole.render .base64 bits).filter fun x => x ≠ padElem).map fun x => if x = base64Last then uriLast else x) ∧
  ∀ (p : Params) (xs : List Elem), (∀ x ∈ xs, x ≠ base64Last ∧ x ≠ padElem ∧ x ≠ uriLast) →
    Whole.command 6 p xs = Whole.command 5 p xs

/-- 44_commands.md R213 to R216: the lengths of the four compression outputs, from the bit length of the code stream. -/
def Obligations.ResultLengths : Prop :=
  ∀ bits : List Bool,
    (Whole.render .raw16 bits).length = (bits.length + 15) / 16 ∧
    (Whole.render .base64 bits).length = 4 * (((bits.length + 5) / 6 + 3) / 4) ∧
    (Whole.render .uri bits).length = (bits.length + 5) / 6 ∧
    (Whole.render .bytes bits).length = (bits.length + 7) / 8

/-- 30_encoding.md R72, R73, 41_compress.md R142: the code stream of a compression is a well-formed one at the widths of the schedule,
its first item is a raw unit, the phrases of its items joined are the input, the phrase of an escape is its unit, and the phrase of a
reference `k` is the word of `DICT_C` whose code is `k`. -/
def Obligations.CompressionGrammar : Prop :=
  ∀ xs : List Elem, ∃ items : List (Item × Phrase),
    (Whole.encodeStream xs).stream = streamOf firstCode (items.map Prod.fst) ∧ legal firstCode (items.map Prod.fst) ∧
    (items = [] ↔ xs = []) ∧ (∀ i ∈ items.head?, ∃ u, i.1 = .raw u ∧ i.2 = [u]) ∧
    (∀ i ∈ items, i.2 ≠ [] ∧ ∀ u, i.1 = .raw u → i.2 = [u]) ∧
    (∀ i ∈ items, ∀ k, i.1 = .ref k → DictC.code? (Whole.encodeStream xs).dict i.2 = some k) ∧ (items.map Prod.snd).flatten = xs ∧
    (Whole.encodeStream xs).n = firstCode + ((items.map Prod.fst).map Item.codes).sum

/-- 20_memory.md R54: the bounds on the dictionaries, of a running operation and in the length of a compression's input. -/
def Obligations.DictionaryBounds : Prop :=
  (∀ s : State, Inv s → s.spoiled = false → s.phase = .cScan ∨ s.phase = .cEnd ∨ s.phase = .dDecode →
    (s.phase = .dDecode → s.dictD.length ≤ s.n - 2) ∧ (s.phase ≠ .dDecode → s.dictC.length ≤ s.n - 2) ∧
    s.n < 2 ^ s.nb ∧ ∀ m ∈ s.params.maxCodeBits, 2 ^ s.nb ≤ 2 ^ m) ∧
  ∀ xs : List Elem, (Whole.encodeStream xs).dict.length ≤ 2 * xs.length ∧
    ((Whole.encodeStream xs).dict.filter fun e => e.1.length = 1).length ≤ xs.dedup.length ∧
    ((Whole.encodeStream xs).dict.filter fun e => 2 ≤ e.1.length).length ≤ xs.length - 1

/-- 42_decompress.md R162, R173: the bits after `EOS` do not matter. -/
def Obligations.BitsAfterEosDoNotMatter : Prop :=
  ∀ (p : Params) (fuel fuel' : Nat) (d : Whole.Dec) (bits extra : List Bool) (out : List Elem) (n nb : Nat),
    Whole.decodeStream p fuel d bits = .ok out n nb → fuel ≤ fuel' →
    Whole.decodeStream p fuel' d (bits ++ extra) = .ok out n nb

/-- 41_compress.md R145: the compression of the empty input: its code stream, and its output on the block. -/
def Obligations.EmptyInputCompresses : Prop :=
  (Whole.encodeStream []).stream = [false, true] ∧ ∀ (v : BitVec 3) (s : State), aboutToStart v s → cmdDir v = false → s.inLen = 0 → s.params = Params.unbounded →
    ∃ t, run 3 s = .next t ∧ t.status = statusSuccess ∧ t.dbgN = 2 ∧ t.dbgNb = 2 ∧
      (List.range t.outLen).map t.outAt =
        match cmdAdapter v with
        | .raw16 => [0x4000]
        | .base64 => [0x51, 0x3D, 0x3D, 0x3D]
        | .uri => [0x51]
        | .bytes => [0x40]

/-! ## Rules of the whole machine -/

/-- 70_reset_and_hazards.md R256, 44_commands.md R222: a host write of `IN` or `IN_LEN` changes that and nothing else; while the block
is busy it also marks the running operation's result as unspecified (log entry 11). That a write of an element at or above `P_IN_MAX` is
stored too is the model's choice (DESIGN CHOICE, log entry 23): the spec does not say what such a write does. -/
def Obligations.HostInputWrites : Prop :=
  ∀ (s : State) (rest : List HostAct),
    (∀ (i : Nat) (x : Elem), s.host = .writeIn i x :: rest →
      ∃ t, step s = .next t ∧ t.inAt i = x ∧ (∀ j, j ≠ i → t.inAt j = s.inAt j) ∧
        t = { s with host := rest, inBuf := t.inBuf, spoiled := s.spoiled || s.busy }) ∧
    ∀ n : Nat, s.host = .writeInLen n :: rest →
      step s = .next { s with host := rest, inLen := n, spoiled := s.spoiled || s.busy }

/-- 60_exceptions.md R243, 70_reset_and_hazards.md R259: an idle block holds its registers and buffers. -/
def Obligations.IdleHolds : Prop :=
  ∀ (s : State) (rest : List HostAct), s.phase = .idle → engineTurn s rest → step s = .next { s with host := rest }

/-- 44_commands.md R212: the transitions of `PHASE`, all of them, with their conditions (a spoiled operation apart: log entry 11). -/
def Obligations.PhaseTransitions : Prop :=
  ∀ s t : State, Inv s → step s = .next t →
    (∀ rest, engineTurn s rest →
      (s.phase = .idle → t.phase = .idle) ∧
      (s.phase ≠ .idle → s.spoiled = true → t.phase = .idle ∧ t.done = true) ∧
      (s.spoiled = false → s.phase = .cScan → s.inPtr < s.inLen →
        t.phase = .cScan ∧ t.inPtr = s.inPtr + 1 ∨ failed .capacity t) ∧
      (s.spoiled = false → s.phase = .cScan → s.inPtr = s.inLen → t.phase = .cEnd) ∧
      (s.spoiled = false → s.phase = .cEnd → t.phase = .idle ∧ (t.status = statusSuccess ∨ failed .capacity t)) ∧
      (s.spoiled = false → s.phase = .dCheck →
        (t.phase = .dDecode ↔ ∀ i < s.adapter.length s.inAt s.inLen, s.adapter.dec (s.inAt i) ≠ none) ∧
        (t.phase ≠ .dDecode → failed .alphabet t)) ∧
      (s.spoiled = false → s.phase = .dDecode →
        (t.phase = .idle ∧ t.status = statusSuccess ↔ ∃ tl, decodeCode s.codeCtx s.restBits = .ok (.eos, tl)) ∧
        (t.phase = .dDecode ∨ t.status = statusSuccess ∧ t.phase = .idle ∨ ∃ c, failed c t))) ∧
    (∀ v rest, s.host = .writeCmd v :: rest →
      (s.phase ≠ .idle → t.phase = s.phase) ∧
      (s.phase = .idle → t.phase = (if cmdDir v then .dCheck else .cScan) ∨ failed .capacity t)) ∧
    (∀ i x rest, s.host = .writeIn i x :: rest → t.phase = s.phase) ∧
    (∀ n rest, s.host = .writeInLen n :: rest → t.phase = s.phase) ∧
    ∀ rest, s.host = .powerOnReset :: rest → t.phase = .idle

/-- 10_state.md R22, R23, R40: `STATUS` and `CMD` change at an operation start and at a reset, and `STATUS` also at the end of an
operation; nowhere else. -/
def Obligations.StatusAndCmdWrittenOnlyThere : Prop :=
  ∀ s t : State, Inv s → step s = .next t →
    (t.status ≠ s.status → (∃ v rest, s.host = .writeCmd v :: rest ∧ s.busy = false) ∨ (∃ rest, s.host = .powerOnReset :: rest) ∨
      (∃ rest, engineTurn s rest ∧ s.phase ≠ .idle ∧ t.phase = .idle)) ∧
    (t.cmd ≠ s.cmd → (∃ rest, s.host = .writeCmd t.cmd :: rest ∧ s.busy = false) ∨ ∃ rest, s.host = .powerOnReset :: rest)

/-- 20_memory.md R64, 10_state.md R24: no step but the host's own writes and a reset changes `IN` or `IN_LEN`, and none changes the
parameters. -/
def Obligations.OnlyTheHostWritesInput : Prop :=
  ∀ s t : State, Inv s → step s = .next t → t.params = s.params ∧
    ((∀ i x rest, s.host ≠ .writeIn i x :: rest) → (∀ n rest, s.host ≠ .writeInLen n :: rest) →
      (∀ rest, s.host ≠ .powerOnReset :: rest) → sameInput s t)

/-- 10_state.md R27, R29, R31, R35, 20_memory.md R53: within an operation the counters and cursors only grow, `OUT` is append-only, and a
dictionary entry once made stays. -/
def Obligations.WithinAnOperationOnlyGrowth : Prop :=
  ∀ (s t : State) (ph : Phase) (rest : List HostAct), running ph s rest → ph ≠ .idle → step s = .next t → t.phase ≠ .idle →
    s.n ≤ t.n ∧ t.n ≤ s.n + 2 ∧ s.nb ≤ t.nb ∧ s.outLen ≤ t.outLen ∧ (∀ i < s.outLen, t.outAt i = s.outAt i) ∧
    (ph = .cScan → s.inPtr ≤ t.inPtr ∧ ∀ p k, DictC.code? s.dictC p = some k → DictC.code? t.dictC p = some k) ∧
    (ph = .dDecode → s.bp + s.nb ≤ t.bp ∧ t.bits = s.bits ∧
      ∀ k e, Table.read? s.dictD k = some e → Table.read? t.dictD k = some e)

/-- 60_exceptions.md R231, 41_compress.md R130: a compression fails with `ERR_CAPACITY` only, and with every parameter `UNBOUNDED` no
operation fails so, nor any compression at all. -/
def Obligations.CapacityOnlyWhenBounded : Prop :=
  ∀ (s t : State) (ph : Phase) (rest : List HostAct), running ph s rest → ph ≠ .idle → step s = .next t →
    (ph = .cScan ∨ ph = .cEnd → t.err = true → failed .capacity t) ∧
    (s.params.maxCodeBits = none → s.params.outMax = none →
      t.status ≠ statusFailure .capacity ∧ (ph = .cScan ∨ ph = .cEnd → t.err = false))

/-- 70_reset_and_hazards.md R256: an operation whose input the host changed while it ran still ends; this model ends it at its next
engine step, with any report (log entry 11). -/
def Obligations.SpoiledOperationEnds : Prop :=
  ∀ (s : State) (rest : List HostAct), Inv s → s.phase ≠ .idle → s.spoiled = true → engineTurn s rest →
    ∃ t, step s = .next t ∧ t.phase = .idle ∧ t.done = true ∧ (∀ m ∈ s.params.outMax, t.outLen ≤ m) ∧
      (t.status = statusSuccess ∨ ∃ c, failed c t) ∧ t.cmd = s.cmd ∧ t.host = rest ∧ sameInput s t

/-- 10_state.md R23, R28, R31 to R36, R38, 60_exceptions.md R241: every step keeps the block sound. -/
def Obligations.StepKeepsInvariant : Prop := ∀ s t : State, Inv s → step s = .next t → Inv t

/-- 93_implementation_defined.md ("No behaviour of the block is `stuck`"), 60_exceptions.md R235: from a sound state the machine never
stops: every step answers a next state. -/
def Obligations.EveryStepGoesOn : Prop := ∀ s : State, Inv s → ∃ t, step s = .next t

/-! ## Trie forms -/

/-- 41_compress.md R144: a scan step over a trie that holds the map and the pending phrase does what the scan step over the map does,
on the writer and the counters alike, and ends with a trie that holds the new map and phrase. -/
def Obligations.TrieScanDoesTheSame : Prop :=
  ∀ (c : Elem) (t : TrieC) (s : State), CodesOk s → DictCOk s → t.represents s →
    match scan c s with
    | .ok u => ∃ t' v, trieScan c t s = .ok (t', v) ∧ t'.represents u ∧ v = { u with dictC := s.dictC, w := s.w }
    | .error e => trieScan c t s = .error e

/-- 42_decompress.md R174: the fill of `TAIL` and the entry of `RAW` over a trie do what they do over the map. -/
def Obligations.TrieEntriesHoldTheMap : Prop :=
  (∀ (x : Elem) (t : TrieD) (s u : State), Table.wf s.dictD → (∀ e ∈ s.dictD, e.2 ≠ []) → t.represents s.dictD →
    (∀ q, s.pend = some q → Table.read? s.dictD q = none ∧
      ∃ p, s.prev = some p ∧ p < q ∧ (Table.read? s.dictD p).isSome) →
    fillPending x s = .ok u → ∃ t', trieFill x t s = .ok t' ∧ t'.represents u.dictD) ∧
  ∀ (u : Elem) (t : TrieD) (d : DictD) (k : Nat), t.represents d → Table.read? d k = none →
    (t.addRoot k u).represents (Table.write d k [u])

/-! ## Alphabet tables -/

/-- 43_alphabets.md R191, R192, R195, R196: the widths and the encode tables of the four adapters, by the code units the rules name: `A` to
`Z`, `a` to `z`, `0` to `9`, `+`, then `/` under `BASE64` and `-` under `URI`; the other two are the identity. -/
def Obligations.EncodeTables : Prop :=
  (Adapter.raw16.sb = 16 ∧ Adapter.base64.sb = 6 ∧ Adapter.uri.sb = 6 ∧ Adapter.bytes.sb = 8) ∧
  (List.range 64).map (fun s => (Adapter.base64.enc s).toNat) =
    List.range' 0x41 26 ++ List.range' 0x61 26 ++ List.range' 0x30 10 ++ [0x2B, 0x2F] ∧
  (List.range 64).map (fun s => (Adapter.uri.enc s).toNat) =
    List.range' 0x41 26 ++ List.range' 0x61 26 ++ List.range' 0x30 10 ++ [0x2B, 0x2D] ∧
  (∀ s < 2 ^ 16, (Adapter.raw16.enc s).toNat = s) ∧ ∀ s < 2 ^ 8, (Adapter.bytes.enc s).toNat = s
end

