-- ==== Sys2Proof/Laws/Bits.lean ====
section
/-! SUPPORT. The laws of the bit fields of 00_scope.md R12. -/

namespace Sys2Proof

@[simp] theorem msb_length (n v : Nat) : (msb n v).length = n := by
  induction n with
  | zero => rfl
  | succ n ih => simp [msb, ih]

theorem foldl_val (s : List Bool) (a : Nat) :
    s.foldl (fun a b => 2 * a + b.toNat) a = a * 2 ^ s.length + val s := by
  unfold val
  induction s generalizing a with
  | nil => simp
  | cons b s ih =>
    simp only [List.foldl_cons, List.length_cons]
    rw [ih (2 * a + b.toNat), ih (2 * 0 + b.toNat)]
    ring

@[simp] theorem val_nil : val [] = 0 := rfl

theorem val_cons (b : Bool) (s : List Bool) : val (b :: s) = b.toNat * 2 ^ s.length + val s := by
  conv_lhs => unfold val
  rw [List.foldl_cons, foldl_val]
  simp

theorem val_append (s t : List Bool) : val (s ++ t) = val s * 2 ^ t.length + val t := by
  conv_lhs => unfold val
  rw [List.foldl_append, foldl_val]
  rfl

theorem val_lt (s : List Bool) : val s < 2 ^ s.length := by
  induction s with
  | nil => simp
  | cons b s ih =>
    rw [val_cons, List.length_cons, pow_succ]
    cases b <;> simp <;> omega

/-- `val` undoes `msb` up to the width (R12). -/
theorem val_msb (n v : Nat) : val (msb n v) = v % 2 ^ n := by
  induction n with
  | zero => simp [msb, Nat.mod_one]
  | succ n ih =>
    rw [msb, val_cons, ih, msb_length, Nat.mod_pow_succ, Nat.testBit_eq_decide_div_mod_eq]
    have h2 : v / 2 ^ n % 2 < 2 := Nat.mod_lt _ (by norm_num)
    by_cases h : v / 2 ^ n % 2 = 1
    · simp [h]; ring
    · have h0 : v / 2 ^ n % 2 = 0 := by omega
      simp [h0]

theorem val_msb_of_lt {n v : Nat} (h : v < 2 ^ n) : val (msb n v) = v := by
  rw [val_msb, Nat.mod_eq_of_lt h]

/-- A bit sequence is `msb` of its value. -/
theorem msb_val (s : List Bool) : msb s.length (val s) = s := by
  induction s with
  | nil => rfl
  | cons b s ih =>
    rw [List.length_cons, msb, val_cons]
    have hlt := val_lt s
    congr 1
    · cases b
      · simpa using Nat.testBit_lt_two_pow hlt
      · have := Nat.testBit_two_pow_add_eq (val s) s.length
        rw [Nat.testBit_lt_two_pow hlt] at this
        simpa using this
    · conv_rhs => rw [← ih]
      have key : ∀ n a, n ≤ s.length → msb n (a * 2 ^ s.length + val s) = msb n (val s) := by
        intro n a hn
        induction n with
        | zero => rfl
        | succ n ihn =>
          rw [msb, msb, ihn (by omega)]
          congr 1
          rw [mul_comm, Nat.testBit_two_pow_mul_add _ hlt]
          simp [show n < s.length by omega]
      exact key _ _ le_rfl

/-- Reading back what stands in front. -/
theorem takeBits_append {n : Nat} {s : List Bool} (rest : List Bool) (h : s.length = n) :
    takeBits n (s ++ rest) = some (val s, rest) := by
  subst h
  simp [takeBits]

theorem takeBits_msb {n v : Nat} (rest : List Bool) (h : v < 2 ^ n) :
    takeBits n (msb n v ++ rest) = some (v, rest) := by
  rw [takeBits_append rest (msb_length n v), val_msb_of_lt h]

/-- What a successful read says. -/
theorem takeBits_eq_some {n : Nat} {bits : List Bool} {v : Nat} {rest : List Bool}
    (h : takeBits n bits = some (v, rest)) :
    n ≤ bits.length ∧ v = val (bits.take n) ∧ rest = bits.drop n ∧ v < 2 ^ n := by
  unfold takeBits at h
  split at h
  · cases h
  · rename_i hn
    simp only [Option.some.injEq, Prod.mk.injEq] at h
    obtain ⟨rfl, rfl⟩ := h
    refine ⟨by omega, rfl, rfl, ?_⟩
    have := val_lt (bits.take n)
    rwa [List.length_take, min_eq_left (by omega)] at this

theorem takeBits_eq_none {n : Nat} {bits : List Bool} : takeBits n bits = none ↔ bits.length < n := by
  unfold takeBits; split <;> simp_all

/-- `bitlen` is the least width that fits (R12). -/
theorem bitlen_le_iff (v b : Nat) : bitlen v ≤ b ↔ v < 2 ^ b := by
  unfold bitlen
  split
  · subst_vars; simp
  · rename_i h
    rw [← Nat.log2_lt h]; omega

theorem lt_two_pow_bitlen (v : Nat) : v < 2 ^ bitlen v := (bitlen_le_iff v _).1 le_rfl

theorem bitlen_mono {a b : Nat} (h : a ≤ b) : bitlen a ≤ bitlen b :=
  (bitlen_le_iff a _).2 (lt_of_le_of_lt h (lt_two_pow_bitlen b))

/-- The width of the next count: it grows exactly when the count reaches a power of two (41_compress.md R134). -/
theorem bitlen_succ (n : Nat) : bitlen (n + 1) = if n + 1 = 2 ^ bitlen n then bitlen n + 1 else bitlen n := by
  have h1 := lt_two_pow_bitlen n
  have h2 := bitlen_mono (Nat.le_succ n)
  split
  · rename_i h
    apply le_antisymm
    · rw [bitlen_le_iff, pow_succ]; omega
    · by_contra hc
      have := (bitlen_le_iff (n + 1) (bitlen n)).1 (by omega)
      omega
  · rename_i h
    apply le_antisymm
    · rw [bitlen_le_iff]; omega
    · exact h2

theorem bitlen_two : bitlen 2 = 2 := by decide

theorem two_le_bitlen {n : Nat} (h : 2 ≤ n) : 2 ≤ bitlen n := bitlen_two ▸ bitlen_mono h

end Sys2Proof
end

