-- ==== Sys2Proof/Laws/State.lean ====
section
/-! SUPPORT. One lemma per field per named update of the state. Where an update leaves the working state dead
(44_commands.md R211), nothing is said of its fields: no statement may rest on a dead value. -/

namespace Sys2Proof.Machine

variable (s : State)

/-! ## `tick` -/

@[simp] theorem tick_cmd : (tick s).cmd = s.cmd := rfl
@[simp] theorem tick_status : (tick s).status = s.status := rfl
@[simp] theorem tick_inLen : (tick s).inLen = s.inLen := rfl
@[simp] theorem tick_outLen : (tick s).outLen = s.outLen := rfl
@[simp] theorem tick_dbgN : (tick s).dbgN = s.dbgN := rfl
@[simp] theorem tick_dbgNb : (tick s).dbgNb = s.dbgNb := rfl
@[simp] theorem tick_phase : (tick s).phase = s.phase := rfl
@[simp] theorem tick_inBuf : (tick s).inBuf = s.inBuf := rfl
@[simp] theorem tick_outBuf : (tick s).outBuf = s.outBuf := rfl
@[simp] theorem tick_params : (tick s).params = s.params := rfl
@[simp] theorem tick_host : (tick s).host = s.host := rfl
@[simp] theorem tick_free : (tick s).free = s.free + 1 := rfl
@[simp] theorem tick_inEpoch : (tick s).inEpoch = s.inEpoch := rfl
@[simp] theorem tick_outEpoch : (tick s).outEpoch = s.outEpoch := rfl
@[simp] theorem tick_spoiled : (tick s).spoiled = s.spoiled := rfl
@[simp] theorem tick_n : (tick s).n = s.n := rfl
@[simp] theorem tick_nb : (tick s).nb = s.nb := rfl
@[simp] theorem tick_dictC : (tick s).dictC = s.dictC := rfl
@[simp] theorem tick_w : (tick s).w = s.w := rfl
@[simp] theorem tick_inPtr : (tick s).inPtr = s.inPtr := rfl
@[simp] theorem tick_acc : (tick s).acc = s.acc := rfl
@[simp] theorem tick_accCnt : (tick s).accCnt = s.accCnt := rfl
@[simp] theorem tick_dictD : (tick s).dictD = s.dictD := rfl
@[simp] theorem tick_prev : (tick s).prev = s.prev := rfl
@[simp] theorem tick_pend : (tick s).pend = s.pend := rfl
@[simp] theorem tick_bits : (tick s).bits = s.bits := rfl
@[simp] theorem tick_bp : (tick s).bp = s.bp := rfl

/-! ## `consume` -/

@[simp] theorem State.consume_cmd (k : Nat) : (s.consume k).cmd = s.cmd := rfl
@[simp] theorem State.consume_status (k : Nat) : (s.consume k).status = s.status := rfl
@[simp] theorem State.consume_inLen (k : Nat) : (s.consume k).inLen = s.inLen := rfl
@[simp] theorem State.consume_outLen (k : Nat) : (s.consume k).outLen = s.outLen := rfl
@[simp] theorem State.consume_dbgN (k : Nat) : (s.consume k).dbgN = s.dbgN := rfl
@[simp] theorem State.consume_dbgNb (k : Nat) : (s.consume k).dbgNb = s.dbgNb := rfl
@[simp] theorem State.consume_phase (k : Nat) : (s.consume k).phase = s.phase := rfl
@[simp] theorem State.consume_inBuf (k : Nat) : (s.consume k).inBuf = s.inBuf := rfl
@[simp] theorem State.consume_outBuf (k : Nat) : (s.consume k).outBuf = s.outBuf := rfl
@[simp] theorem State.consume_params (k : Nat) : (s.consume k).params = s.params := rfl
@[simp] theorem State.consume_host (k : Nat) : (s.consume k).host = s.host := rfl
@[simp] theorem State.consume_free (k : Nat) : (s.consume k).free = s.free := rfl
@[simp] theorem State.consume_inEpoch (k : Nat) : (s.consume k).inEpoch = s.inEpoch := rfl
@[simp] theorem State.consume_outEpoch (k : Nat) : (s.consume k).outEpoch = s.outEpoch := rfl
@[simp] theorem State.consume_spoiled (k : Nat) : (s.consume k).spoiled = s.spoiled := rfl
@[simp] theorem State.consume_n (k : Nat) : (s.consume k).n = s.n := rfl
@[simp] theorem State.consume_nb (k : Nat) : (s.consume k).nb = s.nb := rfl
@[simp] theorem State.consume_dictC (k : Nat) : (s.consume k).dictC = s.dictC := rfl
@[simp] theorem State.consume_w (k : Nat) : (s.consume k).w = s.w := rfl
@[simp] theorem State.consume_inPtr (k : Nat) : (s.consume k).inPtr = s.inPtr := rfl
@[simp] theorem State.consume_acc (k : Nat) : (s.consume k).acc = s.acc := rfl
@[simp] theorem State.consume_accCnt (k : Nat) : (s.consume k).accCnt = s.accCnt := rfl
@[simp] theorem State.consume_dictD (k : Nat) : (s.consume k).dictD = s.dictD := rfl
@[simp] theorem State.consume_prev (k : Nat) : (s.consume k).prev = s.prev := rfl
@[simp] theorem State.consume_pend (k : Nat) : (s.consume k).pend = s.pend := rfl
@[simp] theorem State.consume_bits (k : Nat) : (s.consume k).bits = s.bits := rfl
@[simp] theorem State.consume_bp (k : Nat) : (s.consume k).bp = s.bp + k := rfl

/-! ## `deadWorking` -/

@[simp] theorem deadWorking_cmd : (deadWorking s).cmd = s.cmd := rfl
@[simp] theorem deadWorking_status : (deadWorking s).status = s.status := rfl
@[simp] theorem deadWorking_inLen : (deadWorking s).inLen = s.inLen := rfl
@[simp] theorem deadWorking_outLen : (deadWorking s).outLen = s.outLen := rfl
@[simp] theorem deadWorking_dbgN : (deadWorking s).dbgN = s.dbgN := rfl
@[simp] theorem deadWorking_dbgNb : (deadWorking s).dbgNb = s.dbgNb := rfl
@[simp] theorem deadWorking_phase : (deadWorking s).phase = s.phase := rfl
@[simp] theorem deadWorking_inBuf : (deadWorking s).inBuf = s.inBuf := rfl
@[simp] theorem deadWorking_outBuf : (deadWorking s).outBuf = s.outBuf := rfl
@[simp] theorem deadWorking_params : (deadWorking s).params = s.params := rfl
@[simp] theorem deadWorking_host : (deadWorking s).host = s.host := rfl
@[simp] theorem deadWorking_free : (deadWorking s).free = s.free + 1 := rfl
@[simp] theorem deadWorking_inEpoch : (deadWorking s).inEpoch = s.inEpoch := rfl
@[simp] theorem deadWorking_outEpoch : (deadWorking s).outEpoch = s.outEpoch := rfl
@[simp] theorem deadWorking_spoiled : (deadWorking s).spoiled = s.spoiled := rfl

/-! ## `complete` -/

@[simp] theorem complete_cmd : (complete s).cmd = s.cmd := rfl
@[simp] theorem complete_status : (complete s).status = statusSuccess := rfl
@[simp] theorem complete_inLen : (complete s).inLen = s.inLen := rfl
@[simp] theorem complete_outLen : (complete s).outLen = s.outLen := rfl
@[simp] theorem complete_dbgN : (complete s).dbgN = s.n := rfl
@[simp] theorem complete_dbgNb : (complete s).dbgNb = s.nb := rfl
@[simp] theorem complete_phase : (complete s).phase = .idle := rfl
@[simp] theorem complete_inBuf : (complete s).inBuf = s.inBuf := rfl
@[simp] theorem complete_outBuf : (complete s).outBuf = s.outBuf := rfl
@[simp] theorem complete_params : (complete s).params = s.params := rfl
@[simp] theorem complete_host : (complete s).host = s.host := rfl
@[simp] theorem complete_free : (complete s).free = s.free + 1 := rfl
@[simp] theorem complete_inEpoch : (complete s).inEpoch = s.inEpoch := rfl
@[simp] theorem complete_outEpoch : (complete s).outEpoch = s.outEpoch := rfl
@[simp] theorem complete_spoiled : (complete s).spoiled = s.spoiled := rfl

/-! ## `fail` -/

@[simp] theorem fail_cmd (c : Cause) : (fail c s).cmd = s.cmd := rfl
@[simp] theorem fail_status (c : Cause) : (fail c s).status = statusFailure c := rfl
@[simp] theorem fail_inLen (c : Cause) : (fail c s).inLen = s.inLen := rfl
@[simp] theorem fail_outLen (c : Cause) : (fail c s).outLen = 0 := rfl
@[simp] theorem fail_dbgN (c : Cause) : (fail c s).dbgN = Config.freeNat s.free 6 := rfl
@[simp] theorem fail_dbgNb (c : Cause) : (fail c s).dbgNb = Config.freeNat s.free 7 := rfl
@[simp] theorem fail_phase (c : Cause) : (fail c s).phase = .idle := rfl
@[simp] theorem fail_inBuf (c : Cause) : (fail c s).inBuf = s.inBuf := rfl
@[simp] theorem fail_outBuf (c : Cause) : (fail c s).outBuf = [] := rfl
@[simp] theorem fail_params (c : Cause) : (fail c s).params = s.params := rfl
@[simp] theorem fail_host (c : Cause) : (fail c s).host = s.host := rfl
@[simp] theorem fail_free (c : Cause) : (fail c s).free = s.free + 1 := rfl
@[simp] theorem fail_inEpoch (c : Cause) : (fail c s).inEpoch = s.inEpoch := rfl
@[simp] theorem fail_outEpoch (c : Cause) : (fail c s).outEpoch = s.free := rfl
@[simp] theorem fail_spoiled (c : Cause) : (fail c s).spoiled = s.spoiled := rfl

/-! ## `begun` -/

@[simp] theorem begun_cmd (v : BitVec 3) : (begun v s).cmd = v := rfl
@[simp] theorem begun_status (v : BitVec 3) : (begun v s).status = statusBusy := rfl
@[simp] theorem begun_inLen (v : BitVec 3) : (begun v s).inLen = s.inLen := rfl
@[simp] theorem begun_outLen (v : BitVec 3) : (begun v s).outLen = 0 := rfl
@[simp] theorem begun_dbgN (v : BitVec 3) : (begun v s).dbgN = Config.freeNat s.free 6 := rfl
@[simp] theorem begun_dbgNb (v : BitVec 3) : (begun v s).dbgNb = Config.freeNat s.free 7 := rfl
@[simp] theorem begun_phase (v : BitVec 3) : (begun v s).phase = if cmdDir v then .dCheck else .cScan := rfl
@[simp] theorem begun_inBuf (v : BitVec 3) : (begun v s).inBuf = s.inBuf := rfl
@[simp] theorem begun_outBuf (v : BitVec 3) : (begun v s).outBuf = [] := rfl
@[simp] theorem begun_params (v : BitVec 3) : (begun v s).params = s.params := rfl
@[simp] theorem begun_host (v : BitVec 3) : (begun v s).host = s.host := rfl
@[simp] theorem begun_free (v : BitVec 3) : (begun v s).free = s.free + 1 := rfl
@[simp] theorem begun_inEpoch (v : BitVec 3) : (begun v s).inEpoch = s.inEpoch := rfl
@[simp] theorem begun_outEpoch (v : BitVec 3) : (begun v s).outEpoch = s.free := rfl
@[simp] theorem begun_spoiled (v : BitVec 3) : (begun v s).spoiled = false := rfl
@[simp] theorem begun_n (v : BitVec 3) : (begun v s).n = firstCode := rfl
@[simp] theorem begun_nb (v : BitVec 3) : (begun v s).nb = nbInit := rfl
@[simp] theorem begun_dictC (v : BitVec 3) : (begun v s).dictC = [] := rfl
@[simp] theorem begun_w (v : BitVec 3) : (begun v s).w = [] := rfl
@[simp] theorem begun_inPtr (v : BitVec 3) : (begun v s).inPtr = 0 := rfl
@[simp] theorem begun_acc (v : BitVec 3) : (begun v s).acc = 0 := rfl
@[simp] theorem begun_accCnt (v : BitVec 3) : (begun v s).accCnt = 0 := rfl
@[simp] theorem begun_dictD (v : BitVec 3) : (begun v s).dictD = [] := rfl
@[simp] theorem begun_prev (v : BitVec 3) : (begun v s).prev = none := rfl
@[simp] theorem begun_pend (v : BitVec 3) : (begun v s).pend = none := rfl
@[simp] theorem begun_bits (v : BitVec 3) : (begun v s).bits = s.bits := rfl
@[simp] theorem begun_bp (v : BitVec 3) : (begun v s).bp = 0 := rfl

/-! ## `hostWriteIn` -/

@[simp] theorem hostWriteIn_cmd (i : Nat) (x : Elem) : (hostWriteIn i x s).cmd = s.cmd := rfl
@[simp] theorem hostWriteIn_status (i : Nat) (x : Elem) : (hostWriteIn i x s).status = s.status := rfl
@[simp] theorem hostWriteIn_inLen (i : Nat) (x : Elem) : (hostWriteIn i x s).inLen = s.inLen := rfl
@[simp] theorem hostWriteIn_outLen (i : Nat) (x : Elem) : (hostWriteIn i x s).outLen = s.outLen := rfl
@[simp] theorem hostWriteIn_dbgN (i : Nat) (x : Elem) : (hostWriteIn i x s).dbgN = s.dbgN := rfl
@[simp] theorem hostWriteIn_dbgNb (i : Nat) (x : Elem) : (hostWriteIn i x s).dbgNb = s.dbgNb := rfl
@[simp] theorem hostWriteIn_phase (i : Nat) (x : Elem) : (hostWriteIn i x s).phase = s.phase := rfl
@[simp] theorem hostWriteIn_inBuf (i : Nat) (x : Elem) : (hostWriteIn i x s).inBuf = Table.write s.inBuf i x := rfl
@[simp] theorem hostWriteIn_outBuf (i : Nat) (x : Elem) : (hostWriteIn i x s).outBuf = s.outBuf := rfl
@[simp] theorem hostWriteIn_params (i : Nat) (x : Elem) : (hostWriteIn i x s).params = s.params := rfl
@[simp] theorem hostWriteIn_host (i : Nat) (x : Elem) : (hostWriteIn i x s).host = s.host := rfl
@[simp] theorem hostWriteIn_free (i : Nat) (x : Elem) : (hostWriteIn i x s).free = s.free := rfl
@[simp] theorem hostWriteIn_inEpoch (i : Nat) (x : Elem) : (hostWriteIn i x s).inEpoch = s.inEpoch := rfl
@[simp] theorem hostWriteIn_outEpoch (i : Nat) (x : Elem) : (hostWriteIn i x s).outEpoch = s.outEpoch := rfl
@[simp] theorem hostWriteIn_spoiled (i : Nat) (x : Elem) : (hostWriteIn i x s).spoiled = (s.spoiled || s.busy) := rfl
@[simp] theorem hostWriteIn_n (i : Nat) (x : Elem) : (hostWriteIn i x s).n = s.n := rfl
@[simp] theorem hostWriteIn_nb (i : Nat) (x : Elem) : (hostWriteIn i x s).nb = s.nb := rfl
@[simp] theorem hostWriteIn_dictC (i : Nat) (x : Elem) : (hostWriteIn i x s).dictC = s.dictC := rfl
@[simp] theorem hostWriteIn_w (i : Nat) (x : Elem) : (hostWriteIn i x s).w = s.w := rfl
@[simp] theorem hostWriteIn_inPtr (i : Nat) (x : Elem) : (hostWriteIn i x s).inPtr = s.inPtr := rfl
@[simp] theorem hostWriteIn_acc (i : Nat) (x : Elem) : (hostWriteIn i x s).acc = s.acc := rfl
@[simp] theorem hostWriteIn_accCnt (i : Nat) (x : Elem) : (hostWriteIn i x s).accCnt = s.accCnt := rfl
@[simp] theorem hostWriteIn_dictD (i : Nat) (x : Elem) : (hostWriteIn i x s).dictD = s.dictD := rfl
@[simp] theorem hostWriteIn_prev (i : Nat) (x : Elem) : (hostWriteIn i x s).prev = s.prev := rfl
@[simp] theorem hostWriteIn_pend (i : Nat) (x : Elem) : (hostWriteIn i x s).pend = s.pend := rfl
@[simp] theorem hostWriteIn_bits (i : Nat) (x : Elem) : (hostWriteIn i x s).bits = s.bits := rfl
@[simp] theorem hostWriteIn_bp (i : Nat) (x : Elem) : (hostWriteIn i x s).bp = s.bp := rfl

/-! ## `hostWriteInLen` -/

@[simp] theorem hostWriteInLen_cmd (k : Nat) : (hostWriteInLen k s).cmd = s.cmd := rfl
@[simp] theorem hostWriteInLen_status (k : Nat) : (hostWriteInLen k s).status = s.status := rfl
@[simp] theorem hostWriteInLen_inLen (k : Nat) : (hostWriteInLen k s).inLen = k := rfl
@[simp] theorem hostWriteInLen_outLen (k : Nat) : (hostWriteInLen k s).outLen = s.outLen := rfl
@[simp] theorem hostWriteInLen_dbgN (k : Nat) : (hostWriteInLen k s).dbgN = s.dbgN := rfl
@[simp] theorem hostWriteInLen_dbgNb (k : Nat) : (hostWriteInLen k s).dbgNb = s.dbgNb := rfl
@[simp] theorem hostWriteInLen_phase (k : Nat) : (hostWriteInLen k s).phase = s.phase := rfl
@[simp] theorem hostWriteInLen_inBuf (k : Nat) : (hostWriteInLen k s).inBuf = s.inBuf := rfl
@[simp] theorem hostWriteInLen_outBuf (k : Nat) : (hostWriteInLen k s).outBuf = s.outBuf := rfl
@[simp] theorem hostWriteInLen_params (k : Nat) : (hostWriteInLen k s).params = s.params := rfl
@[simp] theorem hostWriteInLen_host (k : Nat) : (hostWriteInLen k s).host = s.host := rfl
@[simp] theorem hostWriteInLen_free (k : Nat) : (hostWriteInLen k s).free = s.free := rfl
@[simp] theorem hostWriteInLen_inEpoch (k : Nat) : (hostWriteInLen k s).inEpoch = s.inEpoch := rfl
@[simp] theorem hostWriteInLen_outEpoch (k : Nat) : (hostWriteInLen k s).outEpoch = s.outEpoch := rfl
@[simp] theorem hostWriteInLen_spoiled (k : Nat) : (hostWriteInLen k s).spoiled = (s.spoiled || s.busy) := rfl
@[simp] theorem hostWriteInLen_n (k : Nat) : (hostWriteInLen k s).n = s.n := rfl
@[simp] theorem hostWriteInLen_nb (k : Nat) : (hostWriteInLen k s).nb = s.nb := rfl
@[simp] theorem hostWriteInLen_dictC (k : Nat) : (hostWriteInLen k s).dictC = s.dictC := rfl
@[simp] theorem hostWriteInLen_w (k : Nat) : (hostWriteInLen k s).w = s.w := rfl
@[simp] theorem hostWriteInLen_inPtr (k : Nat) : (hostWriteInLen k s).inPtr = s.inPtr := rfl
@[simp] theorem hostWriteInLen_acc (k : Nat) : (hostWriteInLen k s).acc = s.acc := rfl
@[simp] theorem hostWriteInLen_accCnt (k : Nat) : (hostWriteInLen k s).accCnt = s.accCnt := rfl
@[simp] theorem hostWriteInLen_dictD (k : Nat) : (hostWriteInLen k s).dictD = s.dictD := rfl
@[simp] theorem hostWriteInLen_prev (k : Nat) : (hostWriteInLen k s).prev = s.prev := rfl
@[simp] theorem hostWriteInLen_pend (k : Nat) : (hostWriteInLen k s).pend = s.pend := rfl
@[simp] theorem hostWriteInLen_bits (k : Nat) : (hostWriteInLen k s).bits = s.bits := rfl
@[simp] theorem hostWriteInLen_bp (k : Nat) : (hostWriteInLen k s).bp = s.bp := rfl

/-! ## `powerOnReset` -/

@[simp] theorem powerOnReset_cmd : (powerOnReset s).cmd = 0 := rfl
@[simp] theorem powerOnReset_status : (powerOnReset s).status = statusIdle := rfl
@[simp] theorem powerOnReset_inLen : (powerOnReset s).inLen = Config.freeNat (s.free + 1) 8 := rfl
@[simp] theorem powerOnReset_outLen : (powerOnReset s).outLen = 0 := rfl
@[simp] theorem powerOnReset_dbgN : (powerOnReset s).dbgN = Config.freeNat (s.free + 1) 6 := rfl
@[simp] theorem powerOnReset_dbgNb : (powerOnReset s).dbgNb = Config.freeNat (s.free + 1) 7 := rfl
@[simp] theorem powerOnReset_phase : (powerOnReset s).phase = .idle := rfl
@[simp] theorem powerOnReset_inBuf : (powerOnReset s).inBuf = [] := rfl
@[simp] theorem powerOnReset_outBuf : (powerOnReset s).outBuf = [] := rfl
@[simp] theorem powerOnReset_params : (powerOnReset s).params = s.params := rfl
@[simp] theorem powerOnReset_host : (powerOnReset s).host = s.host := rfl
@[simp] theorem powerOnReset_free : (powerOnReset s).free = s.free + 1 + 1 := rfl
@[simp] theorem powerOnReset_inEpoch : (powerOnReset s).inEpoch = s.free + 1 := rfl
@[simp] theorem powerOnReset_outEpoch : (powerOnReset s).outEpoch = s.free + 1 := rfl
@[simp] theorem powerOnReset_spoiled : (powerOnReset s).spoiled = false := rfl

end Sys2Proof.Machine
end

