-- ==== Sys2Proof/Laws/Table.lean ====
section
/-! SUPPORT. The laws of the finite maps: read after write, and that every write keeps the canonical form. -/

namespace Sys2Proof.Machine

variable {α : Type}

@[simp] theorem Table.read?_nil (i : Nat) : Table.read? ([] : Table α) i = none := rfl

theorem Table.read?_write (t : Table α) (i j : Nat) (v : α) :
    Table.read? (Table.write t i v) j = if j = i then some v else Table.read? t j := by
  induction t with
  | nil => simp [Table.write, Table.read?]
  | cons e t ih =>
    obtain ⟨k, x⟩ := e
    simp only [Table.write]
    split
    · simp [Table.read?]
    · split
      · subst_vars
        simp only [Table.read?]
        split <;> rfl
      · simp only [Table.read?, ih]
        split
        · subst_vars; simp_all [eq_comm]
        · rfl

@[simp] theorem Table.read?_write_same (t : Table α) (i : Nat) (v : α) :
    Table.read? (Table.write t i v) i = some v := by simp [Table.read?_write]

theorem Table.read?_write_other (t : Table α) {i j : Nat} (v : α) (h : j ≠ i) :
    Table.read? (Table.write t i v) j = Table.read? t j := by simp [Table.read?_write, h]

theorem Table.mem_keys_write (t : Table α) (i : Nat) (v : α) (j : Nat) :
    j ∈ (Table.write t i v).map Prod.fst ↔ j = i ∨ j ∈ t.map Prod.fst := by
  induction t with
  | nil => simp [Table.write]
  | cons e t ih =>
    obtain ⟨k, x⟩ := e
    simp only [Table.write]
    split
    · simp
    · split
      · subst_vars; simp
      · simp only [List.map_cons, List.mem_cons, ih]; tauto

/-- Every write keeps the canonical form. -/
theorem Table.write_wf (t : Table α) (i : Nat) (v : α) (h : Table.wf t) : Table.wf (Table.write t i v) := by
  induction t with
  | nil => simp [Table.wf, Table.write]
  | cons e t ih =>
    obtain ⟨k, x⟩ := e
    simp only [Table.wf, List.map_cons, List.pairwise_cons] at h
    simp only [Table.write]
    split
    · rename_i hik
      simp only [Table.wf, List.map_cons, List.pairwise_cons, List.mem_cons, forall_eq_or_imp]
      exact ⟨⟨hik, fun a ha => lt_trans hik (h.1 a ha)⟩, h⟩
    · split
      · subst_vars; exact List.pairwise_cons.2 h
      · simp only [Table.wf, List.map_cons, List.pairwise_cons]
        refine ⟨fun a ha => ?_, ih h.2⟩
        rcases (Table.mem_keys_write t i v a).1 ha with rfl | ha
        · omega
        · exact h.1 a ha

theorem Table.read?_isSome (t : Table α) (i : Nat) : (Table.read? t i).isSome ↔ i ∈ t.map Prod.fst := by
  induction t with
  | nil => simp
  | cons e t ih =>
    obtain ⟨k, x⟩ := e
    simp only [Table.read?, List.map_cons, List.mem_cons]
    split
    · simp_all
    · simp_all

theorem Table.mem_of_read? {t : Table α} {i : Nat} {v : α} (h : Table.read? t i = some v) : (i, v) ∈ t := by
  induction t with
  | nil => simp at h
  | cons e t ih =>
    obtain ⟨k, x⟩ := e
    simp only [Table.read?] at h
    split at h
    · simp_all
    · exact List.mem_cons_of_mem _ (ih h)

theorem Table.mem_write {t : Table α} {i : Nat} {v : α} {e : Nat × α} (h : e ∈ Table.write t i v) :
    e = (i, v) ∨ e ∈ t := by
  induction t with
  | nil => simpa [Table.write] using h
  | cons d t ih =>
    obtain ⟨k, x⟩ := d
    simp only [Table.write] at h
    split at h
    · simpa using h
    · split at h
      · rcases List.mem_cons.1 h with h | h
        · exact .inl h
        · exact .inr (List.mem_cons_of_mem _ h)
      · rcases List.mem_cons.1 h with h | h
        · exact .inr (h ▸ List.mem_cons_self)
        · exact (ih h).imp id (List.mem_cons_of_mem _)

/-- A key above every key goes to the end. -/
theorem Table.write_of_lt (t : Table α) (i : Nat) (v : α) (h : ∀ k ∈ t.map Prod.fst, k < i) :
    Table.write t i v = t ++ [(i, v)] := by
  induction t with
  | nil => rfl
  | cons e t ih =>
    obtain ⟨k, x⟩ := e
    simp only [List.map_cons, List.mem_cons, forall_eq_or_imp] at h
    simp only [Table.write, if_neg (by omega : ¬ i < k), if_neg (by omega : ¬ i = k), ih h.2, List.cons_append]

/-- Two maps in canonical form that read alike are equal. -/
theorem Table.ext_of_wf {t u : Table α} (ht : Table.wf t) (hu : Table.wf u)
    (h : ∀ i, Table.read? t i = Table.read? u i) : t = u := by
  induction t generalizing u with
  | nil =>
    cases u with
    | nil => rfl
    | cons e u => have := h e.1; simp [Table.read?] at this
  | cons e t ih =>
    obtain ⟨k, x⟩ := e
    cases u with
    | nil => have := h k; simp [Table.read?] at this
    | cons f u =>
      obtain ⟨l, y⟩ := f
      simp only [Table.wf, List.map_cons, List.pairwise_cons] at ht hu
      have hkl : k = l := by
        have h1 := (Table.read?_isSome ((l, y) :: u) k).1 (by rw [← h k]; simp [Table.read?])
        have h2 := (Table.read?_isSome ((k, x) :: t) l).1 (by rw [h l]; simp [Table.read?])
        simp only [List.map_cons, List.mem_cons] at h1 h2
        rcases h1 with h1 | h1
        · exact h1
        · rcases h2 with h2 | h2
          · exact h2.symm
          · have := hu.1 k h1; have := ht.1 l h2; omega
      subst hkl
      have hxy : x = y := by have := h k; simpa [Table.read?] using this
      subst hxy
      congr 1
      apply ih ht.2 hu.2
      intro i
      have hi := h i
      simp only [Table.read?] at hi
      split at hi
      · rename_i hik
        subst hik
        have h1 : ¬ (Table.read? t i).isSome := by
          rw [Table.read?_isSome]; intro hm; exact absurd (ht.1 i hm) (lt_irrefl _)
        have h2 : ¬ (Table.read? u i).isSome := by
          rw [Table.read?_isSome]; intro hm; exact absurd (hu.1 i hm) (lt_irrefl _)
        simp only [Bool.not_eq_true, Option.isSome_eq_false_iff, Option.isNone_iff_eq_none] at h1 h2
        rw [h1, h2]
      · exact hi

/-! ## `DICT_C` -/

@[simp] theorem DictC.code?_nil (p : Phrase) : DictC.code? [] p = none := rfl

theorem DictC.code?_append (d e : DictC) (p : Phrase) :
    DictC.code? (d ++ e) p = (DictC.code? d p).or (DictC.code? e p) := by
  induction d with
  | nil => simp
  | cons x d ih =>
    obtain ⟨q, k⟩ := x
    simp only [List.cons_append, DictC.code?]
    split <;> simp_all

theorem DictC.code?_filter (d : DictC) (p q : Phrase) :
    DictC.code? (d.filter fun e => e.1 ≠ p) q = if q = p then none else DictC.code? d q := by
  induction d with
  | nil => simp
  | cons x d ih =>
    obtain ⟨r, k⟩ := x
    by_cases hr : r = p
    · subst hr
      simp only [ne_eq, decide_not] at ih
      simp only [ne_eq, decide_not, decide_true, Bool.not_true, Bool.false_eq_true,
        not_false_eq_true, List.filter_cons_of_neg, ih, DictC.code?]
      split <;> simp_all
    · simp only [ne_eq, decide_not] at ih
      simp only [ne_eq, decide_not, hr, decide_false, Bool.not_false, List.filter_cons_of_pos, DictC.code?, ih]
      by_cases hq : q = r
      · subst hq; simp [hr]
      · simp [hq]

/-- Lookup after an insertion. -/
theorem DictC.code?_add (d : DictC) (p q : Phrase) (k : Nat) :
    DictC.code? (DictC.add d p k) q = if q = p then some k else DictC.code? d q := by
  unfold DictC.add
  rw [DictC.code?_append, DictC.code?_filter]
  by_cases h : q = p
  · simp [h, DictC.code?]
  · simp [h, DictC.code?]

theorem DictC.mem_of_code? {d : DictC} {p : Phrase} {k : Nat} (h : DictC.code? d p = some k) : (p, k) ∈ d := by
  induction d with
  | nil => simp at h
  | cons x d ih =>
    obtain ⟨q, j⟩ := x
    simp only [DictC.code?] at h
    split at h
    · simp_all
    · exact List.mem_cons_of_mem _ (ih h)

theorem DictC.code?_isSome (d : DictC) (p : Phrase) : (DictC.code? d p).isSome ↔ p ∈ d.map Prod.fst := by
  induction d with
  | nil => simp
  | cons x d ih =>
    obtain ⟨q, j⟩ := x
    simp only [DictC.code?, List.map_cons, List.mem_cons]
    split <;> simp_all

/-- A word not yet in the dictionary goes to its end. -/
theorem DictC.add_of_new {d : DictC} {p : Phrase} {k : Nat} (h : DictC.code? d p = none) :
    DictC.add d p k = d ++ [(p, k)] := by
  unfold DictC.add
  congr 1
  rw [List.filter_eq_self]
  intro e he
  have : ¬ p ∈ d.map Prod.fst := by rw [← DictC.code?_isSome, h]; simp
  simp only [ne_eq, decide_eq_true_eq]
  rintro rfl
  exact this (List.mem_map_of_mem he)

end Sys2Proof.Machine
end

