-- ==== Sys2Proof/Laws/Ops.lean ====
section
/-! SUPPORT. What each shared operation can do, said once; later proofs cite these lemmas and do not unfold the
operations. -/

namespace Sys2Proof.Machine

/-! ## Parameter bounds -/

theorem exceeds_eq_false {b : Option Nat} {v : Nat} : exceeds b v = false ↔ ∀ m ∈ b, v ≤ m := by
  cases b <;> simp [exceeds]

theorem exceeds_eq_true {b : Option Nat} {v : Nat} : exceeds b v = true ↔ ∃ m ∈ b, m < v := by
  cases b <;> simp [exceeds]

theorem exceeds_mono {b : Option Nat} {v w : Nat} (h : v ≤ w) (he : exceeds b v = true) : exceeds b w = true := by
  rw [exceeds_eq_true] at *
  obtain ⟨m, hm, hv⟩ := he
  exact ⟨m, hm, by omega⟩

/-! ## Sequencing -/

/-- A sequence of two operations that ends well: the first ended well, and so did the second from there. -/
theorem bind_eq_ok {α β : Type} {x : Except Stop α} {f : α → Except Stop β} {b : β} :
    x.bind f = .ok b ↔ ∃ a, x = .ok a ∧ f a = .ok b := by
  cases x <;> simp [Except.bind]

/-- A sequence of two operations that ends early: in the first, or in the second after the first ended well. -/
theorem bind_eq_error {α β : Type} {x : Except Stop α} {f : α → Except Stop β} {e : Stop} :
    x.bind f = .error e ↔ x = .error e ∨ ∃ a, x = .ok a ∧ f a = .error e := by
  cases x <;> simp [Except.bind]

theorem map_eq_ok {α β : Type} {x : Except Stop α} {f : α → β} {b : β} :
    x.map f = .ok b ↔ ∃ a, x = .ok a ∧ f a = b := by
  cases x <;> simp [Except.map]

theorem map_eq_error {α β : Type} {x : Except Stop α} {f : α → β} {e : Stop} :
    x.map f = .error e ↔ x = .error e := by
  cases x <;> simp [Except.map]

/-- How a step ends: well, with a cause, or stopped. -/
theorem settle_eq_next {s t : State} {r : Except Stop State} :
    settle s r = .next t ↔ r = .ok t ∨ ∃ c, r = .error (.cause c) ∧ fail c s = t := by
  cases r with
  | ok a => simp [settle]
  | error e => cases e <;> simp [settle]

/-! ## `APPEND` -/

/-- `APPEND` in one equation. -/
theorem append_eq_ok {v : Elem} {s t : State} :
    append v s = .ok t ↔ s.params.outMax ≠ some s.outLen ∧
      t = { s with outBuf := Table.write s.outBuf s.outLen v, outLen := s.outLen + 1 } := by
  unfold append; split <;> simp_all [eq_comm]

theorem append_eq_error {v : Elem} {s : State} {e : Stop} :
    append v s = .error e ↔ e = .cause .capacity ∧ s.params.outMax = some s.outLen := by
  unfold append; split <;> simp_all [eq_comm]

/-- The buffer after a run of elements from an index. -/
def writeFrom (m : Memory) (i : Nat) : Phrase → Memory
  | [] => m
  | x :: e => writeFrom (Table.write m i x) (i + 1) e

theorem read?_writeFrom (m : Memory) (i j : Nat) (e : Phrase) :
    Table.read? (writeFrom m i e) j = if i ≤ j ∧ j < i + e.length then e[j - i]? else Table.read? m j := by
  induction e generalizing m i with
  | nil => simp [writeFrom]
  | cons x e ih =>
    rw [writeFrom, ih, Table.read?_write, List.length_cons]
    by_cases h : j = i
    · subst h; simp
    · by_cases h2 : i + 1 ≤ j ∧ j < i + 1 + e.length
      · rw [if_pos h2, if_pos (by omega), List.getElem?_cons, if_neg (by omega)]
        congr 1
      · rw [if_neg h2, if_neg h, if_neg (by omega)]

/-- `APPEND` of a whole word, where `OUT` is not beyond its bound: all of it, or `ERR_CAPACITY`. -/
theorem appendAll_eq (e : Phrase) (s : State) (h : ∀ m ∈ s.params.outMax, s.outLen ≤ m) :
    appendAll e s =
      if exceeds s.params.outMax (s.outLen + e.length) then .error (.cause .capacity)
      else .ok { s with outBuf := writeFrom s.outBuf s.outLen e, outLen := s.outLen + e.length } := by
  induction e generalizing s with
  | nil =>
    have : exceeds s.params.outMax s.outLen = false := exceeds_eq_false.2 h
    simp [appendAll, writeFrom, this]
  | cons x e ih =>
    simp only [appendAll, append]
    split
    · rename_i hm
      have : exceeds s.params.outMax (s.outLen + (x :: e).length) = true :=
        exceeds_eq_true.2 ⟨s.outLen, by simp [hm], by simp⟩
      rw [this]
      rfl
    · rename_i hm
      simp only [Except.bind]
      rw [ih]
      · simp only [List.length_cons, writeFrom]
        rw [show s.outLen + 1 + e.length = s.outLen + (e.length + 1) by omega]
      · intro m hmem
        have := h m hmem
        have : s.outLen ≠ m := by rintro rfl; exact hm (by simpa using hmem)
        simp only
        omega

/-! ## `ADVANCE` -/

/-- `ADVANCE` where the width is that of the count (10_state.md R28): one more code and its width, or `ERR_CAPACITY`. -/
theorem advance_eq {s : State} (hw : s.nb = bitlen s.n) (hb : ∀ m ∈ s.params.maxCodeBits, s.nb ≤ m) :
    advance s =
      if exceeds s.params.maxCodeBits (bitlen (s.n + 1)) then .error (.cause .capacity)
      else .ok { s with n := s.n + 1, nb := bitlen (s.n + 1) } := by
  have hb' : exceeds s.params.maxCodeBits s.nb = false := exceeds_eq_false.2 hb
  unfold advance
  rw [bitlen_succ, ← hw]
  split
  · rfl
  · simp [hb']

/-- What `ADVANCE` can do in any state. -/
theorem advance_eq_ok {s t : State} (h : advance s = .ok t) :
    (s.n + 1 = 2 ^ s.nb ∧ exceeds s.params.maxCodeBits (s.nb + 1) = false ∧
      t = { s with n := s.n + 1, nb := s.nb + 1 }) ∨
    (s.n + 1 ≠ 2 ^ s.nb ∧ t = { s with n := s.n + 1 }) := by
  unfold advance at h
  split at h
  · split at h
    · cases h
    · exact .inl ⟨‹_›, Bool.eq_false_iff.2 ‹_›, by simpa using h.symm⟩
  · exact .inr ⟨‹_›, by simpa using h.symm⟩

theorem advance_eq_error {s : State} {e : Stop} (h : advance s = .error e) :
    e = .cause .capacity ∧ s.n + 1 = 2 ^ s.nb ∧ exceeds s.params.maxCodeBits (s.nb + 1) = true := by
  unfold advance at h
  split at h
  · split at h
    · cases h; exact ⟨rfl, ‹_›, ‹_›⟩
    · cases h
  · cases h

/-! ## Start -/

/-- What a write of `CMD` does: nothing while busy; else the operation starts, or fails at once above `P_IN_MAX`. -/
theorem start_cases (v : BitVec 3) (s : State) :
    (s.busy = true ∧ start v s = .next s) ∨
    (s.busy = false ∧ exceeds s.params.inMax s.inLen = true ∧ start v s = .next (fail .capacity (begun v s))) ∨
    (s.busy = false ∧ exceeds s.params.inMax s.inLen = false ∧ start v s = .next (begun v s)) := by
  unfold start
  by_cases hb : s.busy = true
  · exact .inl ⟨hb, by simp [hb]⟩
  · by_cases he : exceeds s.params.inMax s.inLen = true
    · exact .inr (.inl ⟨by simpa using hb, he, by simp [hb, he, settle]⟩)
    · exact .inr (.inr ⟨by simpa using hb, by simpa using he, by simp [hb, he, settle]⟩)

end Sys2Proof.Machine
end

