-- ==== Sys2Proof/Laws/Writer.lean ====
section
/-! SUPPORT. What the writer's operations can do (40_bitstream.md R100 to R102): they end well, changing `OUT`, `OUT_LEN`, `ACC` and
`ACC_CNT` only and keeping the invariants of these, or they end with `ERR_CAPACITY`. -/

namespace Sys2Proof.Machine

open Sys2Proof.Safety

/-- `t` is `s` but for what the writer writes, which is sound in `t`. -/
def WriterStep (s t : State) : Prop :=
  ∃ m l a c, t = { s with outBuf := m, outLen := l, acc := a, accCnt := c } ∧ OutOk t ∧ AccOk t

theorem WriterStep.refl {s : State} (ho : OutOk s) (ha : AccOk s) : WriterStep s s := ⟨_, _, _, _, rfl, ho, ha⟩

theorem WriterStep.trans {s t u : State} (h₁ : WriterStep s t) (h₂ : WriterStep t u) : WriterStep s u := by
  obtain ⟨m, l, a, c, rfl, -, -⟩ := h₁
  obtain ⟨m', l', a', c', rfl, ho, ha⟩ := h₂
  exact ⟨m', l', a', c', rfl, ho, ha⟩

theorem WriterStep.out {s t : State} (h : WriterStep s t) : OutOk t := by obtain ⟨_, _, _, _, -, h, -⟩ := h; exact h

theorem WriterStep.acc {s t : State} (h : WriterStep s t) : AccOk t := by obtain ⟨_, _, _, _, -, -, h⟩ := h; exact h

/-- An element at the end of `OUT`. -/
theorem out_write {s : State} (h : OutOk s) (v : Elem) :
    Table.write s.outBuf s.outLen v = s.outBuf ++ [(s.outLen, v)] := by
  apply Table.write_of_lt
  intro k hk
  rw [h.1] at hk
  simpa using hk

/-- `APPEND` keeps `OUT` sound. -/
theorem append_out {v : Elem} {s t : State} (h : OutOk s) (ha : append v s = .ok t) :
    t = { s with outBuf := s.outBuf ++ [(s.outLen, v)], outLen := s.outLen + 1 } ∧ OutOk t := by
  obtain ⟨hm, rfl⟩ := append_eq_ok.1 ha
  rw [out_write h]
  refine ⟨rfl, ?_, ?_⟩
  · simp [h.1, List.range_succ]
  · intro m hmem
    have := h.2 m hmem
    have hne : s.outLen ≠ m := by rintro rfl; exact hm (by simpa using hmem)
    simp only
    omega

theorem appendAll_out {e : Phrase} {s t : State} (h : OutOk s) (ha : appendAll e s = .ok t) :
    (∃ m l, t = { s with outBuf := m, outLen := l }) ∧ OutOk t := by
  induction e generalizing s with
  | nil => cases ha; exact ⟨⟨_, _, rfl⟩, h⟩
  | cons x e ih =>
    obtain ⟨a, ha₁, ha₂⟩ := bind_eq_ok.1 ha
    obtain ⟨rfl, ho⟩ := append_out h ha₁
    obtain ⟨⟨m, l, rfl⟩, ho'⟩ := ih ho ha₂
    exact ⟨⟨m, l, rfl⟩, ho'⟩

theorem appendAll_error {e : Phrase} {s : State} {x : Stop} (h : appendAll e s = .error x) : x = .cause .capacity := by
  induction e generalizing s with
  | nil => cases h
  | cons y e ih =>
    rcases bind_eq_error.1 h with h | ⟨a, -, h⟩
    · exact (append_eq_error.1 h).1
    · exact ih h

theorem sb_pos (ad : Adapter) : 0 < ad.sb := by cases ad <;> decide

/-- A bit that fills the symbol, R101. -/
theorem putBit_flush (b : Bool) {s : State} (h : s.accCnt + 1 = s.adapter.sb) :
    putBit b s = (append (s.adapter.enc ((s.acc * 2 + b.toNat) % 2 ^ s.adapter.sb)) s).map
      fun t => { t with acc := 0, accCnt := 0 } := by
  simp [putBit, h]

/-- A bit that does not, R101. -/
theorem putBit_shift (b : Bool) {s : State} (h : s.accCnt + 1 ≠ s.adapter.sb) :
    putBit b s = .ok { s with acc := (s.acc * 2 + b.toNat) % 2 ^ s.adapter.sb, accCnt := s.accCnt + 1 } := by
  simp [putBit, h]

/-- What one bit can do. -/
theorem putBit_cases (b : Bool) {s : State} (ho : OutOk s) (ha : AccOk s) :
    (∃ t, putBit b s = .ok t ∧ WriterStep s t ∧ (t.accCnt = s.accCnt + 1 ∨ s.accCnt + 1 = s.adapter.sb ∧ t.accCnt = 0)) ∨
    putBit b s = .error (.cause .capacity) := by
  by_cases hsb : s.accCnt + 1 = s.adapter.sb
  · rw [putBit_flush b hsb]
    cases hap : append (s.adapter.enc ((s.acc * 2 + b.toNat) % 2 ^ s.adapter.sb)) s with
    | error e => right; obtain ⟨rfl, -⟩ := append_eq_error.1 hap; rfl
    | ok t =>
      obtain ⟨rfl, ho'⟩ := append_out ho hap
      exact .inl ⟨_, rfl, ⟨_, _, 0, 0, rfl, ho', sb_pos s.adapter, by simp⟩, .inr ⟨hsb, rfl⟩⟩
  · rw [putBit_shift b hsb]
    refine .inl ⟨_, rfl, ⟨s.outBuf, s.outLen, _, s.accCnt + 1, rfl, ho, ?_, ?_⟩, .inl rfl⟩
    · show s.accCnt + 1 < s.adapter.sb
      have := ha.1
      omega
    · refine lt_of_le_of_lt (Nat.mod_le _ _) ?_
      have := ha.2
      have : b.toNat ≤ 1 := Bool.toNat_le b
      show s.acc * 2 + b.toNat < 2 ^ (s.accCnt + 1)
      rw [pow_succ]
      omega

theorem putBits_cases (bs : List Bool) {s : State} (ho : OutOk s) (ha : AccOk s) :
    (∃ t, putBits bs s = .ok t ∧ WriterStep s t) ∨ putBits bs s = .error (.cause .capacity) := by
  induction bs generalizing s with
  | nil => exact .inl ⟨s, rfl, .refl ho ha⟩
  | cons b bs ih =>
    rcases putBit_cases b ho ha with ⟨t, ht, hw, -⟩ | he
    · rcases ih hw.out hw.acc with ⟨u, hu, hw'⟩ | he
      · exact .inl ⟨u, by simp [putBits, ht, Except.bind, hu], hw.trans hw'⟩
      · exact .inr (by simp [putBits, ht, Except.bind, he])
    · exact .inr (by simp [putBits, he, Except.bind])

/-- What `WRITE` can do. -/
theorem write_cases (v n : Nat) {s : State} (ho : OutOk s) (ha : AccOk s) :
    (∃ t, write v n s = .ok t ∧ WriterStep s t) ∨ write v n s = .error (.cause .capacity) :=
  putBits_cases _ ho ha

theorem padZeros_cases (fuel : Nat) {s : State} (ho : OutOk s) (ha : AccOk s)
    (hf : s.accCnt = 0 ∨ s.adapter.sb ≤ s.accCnt + fuel) :
    (∃ t, padZeros fuel s = .ok t ∧ WriterStep s t ∧ t.accCnt = 0) ∨ padZeros fuel s = .error (.cause .capacity) := by
  induction fuel generalizing s with
  | zero =>
    have : s.accCnt = 0 := by have := ha.1; omega
    exact .inl ⟨s, by simp [padZeros, this], .refl ho ha, this⟩
  | succ fuel ih =>
    by_cases h0 : s.accCnt = 0
    · exact .inl ⟨s, by simp [padZeros, h0], .refl ho ha, h0⟩
    · rcases putBit_cases false ho ha with ⟨t, ht, hw, hc⟩ | he
      · have hf' : t.accCnt = 0 ∨ t.adapter.sb ≤ t.accCnt + fuel := by
          obtain ⟨m, l, a, c, rfl, -, -⟩ := hw
          rcases hc with hc | ⟨-, hc⟩
          · right
            show s.adapter.sb ≤ _
            rw [hc]; omega
          · exact .inl hc
        rcases ih hw.out hw.acc hf' with ⟨u, hu, hw', hz⟩ | he
        · exact .inl ⟨u, by simp [padZeros, h0, ht, Except.bind, hu], hw.trans hw', hz⟩
        · exact .inr (by simp [padZeros, h0, ht, Except.bind, he])
      · exact .inr (by simp [padZeros, h0, he, Except.bind])

/-- What `FINISH` can do. -/
theorem finish_cases {s : State} (ho : OutOk s) (ha : AccOk s) :
    (∃ t, finish s = .ok t ∧ WriterStep s t ∧ t.accCnt = 0) ∨ finish s = .error (.cause .capacity) := by
  unfold finish
  rcases padZeros_cases s.adapter.sb ho ha (.inr (by omega)) with ⟨t, ht, hw, hz⟩ | he
  · rw [ht]
    simp only [Except.bind, adapterFinish]
    split
    · exact .inl ⟨t, rfl, hw, hz⟩
    · cases hx : appendAll (List.replicate ((4 - t.outLen % 4) % 4) padElem) t with
      | error e => right; rw [appendAll_error hx]
      | ok u =>
        obtain ⟨⟨m, l, rfl⟩, ho'⟩ := appendAll_out hw.out hx
        exact .inl ⟨_, rfl, hw.trans ⟨m, l, _, _, rfl, ho', hw.acc⟩, hz⟩
    · exact .inl ⟨t, rfl, hw, hz⟩
    · exact .inl ⟨t, rfl, hw, hz⟩
  · right; rw [he]; rfl

end Sys2Proof.Machine
end

