-- ==== Sys2Proof/Laws/Stream.lean ====
section
/-! SUPPORT. The writer against the bits it has been given (40_bitstream.md R100 to R103): `Wrote` is kept by every writer operation,
and an operation fails exactly when the symbols no longer fit in `OUT`. -/

namespace Sys2Proof.Machine

open Sys2Proof.Safety

/-- `bits` is everything written so far: `ACC` holds its last partial group, and each element of `OUT` from index `o` on is the
symbol of its group. -/
structure Wrote (o : Nat) (s : State) (bits : List Bool) : Prop where
  cnt : s.accCnt = bits.length % s.adapter.sb
  acc : s.acc = val (bits.drop (s.outLen * s.adapter.sb))
  len : s.outLen = bits.length / s.adapter.sb
  out : ∀ i, o ≤ i → i < s.outLen →
    Table.read? s.outBuf i = some (s.adapter.enc (val ((bits.drop (i * s.adapter.sb)).take s.adapter.sb)))

/-- What else the writer leaves alone: the elements before `OUT_LEN`. -/
def KeepsOut (s t : State) : Prop := s.outLen ≤ t.outLen ∧ ∀ i, i < s.outLen → Table.read? t.outBuf i = Table.read? s.outBuf i

theorem KeepsOut.refl (s : State) : KeepsOut s s := ⟨le_rfl, fun _ _ => rfl⟩

theorem KeepsOut.trans {s t u : State} (h₁ : KeepsOut s t) (h₂ : KeepsOut t u) : KeepsOut s u :=
  ⟨h₁.1.trans h₂.1, fun i hi => (h₂.2 i (lt_of_lt_of_le hi h₁.1)).trans (h₁.2 i hi)⟩

theorem WriterStep.adapter {s t : State} (h : WriterStep s t) : t.adapter = s.adapter := by
  obtain ⟨_, _, _, _, rfl, -, -⟩ := h; rfl

theorem WriterStep.params {s t : State} (h : WriterStep s t) : t.params = s.params := by
  obtain ⟨_, _, _, _, rfl, -, -⟩ := h; rfl

/-- A full group is the same in any longer stream. -/
theorem group_append {sb i : Nat} {bits : List Bool} (h : (i + 1) * sb ≤ bits.length) (b : List Bool) :
    ((bits ++ b).drop (i * sb)).take sb = (bits.drop (i * sb)).take sb := by
  rw [Nat.succ_mul] at h
  rw [List.drop_append_of_le_length (by omega), List.take_append_of_le_length (by rw [List.length_drop]; omega)]

theorem Wrote.group {o : Nat} {s : State} {bits : List Bool} (hw : Wrote o s bits) {i : Nat} (h : i < s.outLen) :
    (i + 1) * s.adapter.sb ≤ bits.length := by
  rw [hw.len] at h
  exact (Nat.mul_le_mul_right _ h).trans (Nat.div_mul_le_self _ _)

theorem Wrote.length_eq {o : Nat} {s : State} {bits : List Bool} (hw : Wrote o s bits) :
    bits.length = s.outLen * s.adapter.sb + s.accCnt := by
  rw [hw.cnt, hw.len, mul_comm, Nat.div_add_mod]

/-- One bit, R101. -/
theorem wrote_putBit {o : Nat} (b : Bool) {s : State} {bits : List Bool} (hw : Wrote o s bits) (ho : OutOk s) (ha : AccOk s) :
    (∃ t, putBit b s = .ok t ∧ WriterStep s t ∧ KeepsOut s t ∧ Wrote o t (bits ++ [b])) ∨
    (putBit b s = .error (.cause .capacity) ∧ exceeds s.params.outMax ((bits.length + 1) / s.adapter.sb) = true) := by
  have hL := hw.length_eq
  have hcnt := ha.1
  have hsb := sb_pos s.adapter
  have hval : val ((bits ++ [b]).drop (s.outLen * s.adapter.sb)) = s.acc * 2 + b.toNat := by
    rw [List.drop_append_of_le_length (by omega), val_append, ← hw.acc]; simp [val_cons]
  have hlt : s.acc * 2 + b.toNat < 2 ^ s.adapter.sb := by
    rw [← hval]
    refine lt_of_lt_of_le (val_lt _) (Nat.pow_le_pow_right (by norm_num) ?_)
    simp only [List.length_drop, List.length_append, List.length_singleton]
    omega
  have hold : ∀ i, o ≤ i → i < s.outLen → Table.read? s.outBuf i =
      some (s.adapter.enc (val (((bits ++ [b]).drop (i * s.adapter.sb)).take s.adapter.sb))) := by
    intro i hi hi'
    rw [group_append (hw.group hi'), hw.out i hi hi']
  by_cases hf : s.accCnt + 1 = s.adapter.sb
  · have hlen : bits.length + 1 = (s.outLen + 1) * s.adapter.sb := by rw [Nat.succ_mul]; omega
    have hd : (bits.length + 1) / s.adapter.sb = s.outLen + 1 := by rw [hlen, Nat.mul_div_cancel _ hsb]
    rw [putBit_flush b hf, Nat.mod_eq_of_lt hlt]
    cases hap : append (s.adapter.enc (s.acc * 2 + b.toNat)) s with
    | error e =>
      obtain ⟨rfl, hm⟩ := append_eq_error.1 hap
      refine .inr ⟨rfl, ?_⟩
      rw [exceeds_eq_true, hd]
      exact ⟨s.outLen, by simp [hm], by omega⟩
    | ok t =>
      obtain ⟨-, ho'⟩ := append_out ho hap
      obtain ⟨-, rfl⟩ := append_eq_ok.1 hap
      refine .inl ⟨_, rfl, ⟨_, _, 0, 0, rfl, ho', hsb, by simp⟩, ⟨Nat.le_succ _, ?_⟩, ?_, ?_, ?_, ?_⟩
      · intro i hi
        exact Table.read?_write_other _ _ (by omega)
      · show 0 = (bits ++ [b]).length % s.adapter.sb
        simp [hlen]
      · show 0 = val ((bits ++ [b]).drop ((s.outLen + 1) * s.adapter.sb))
        rw [List.drop_of_length_le (by simp [hlen])]; rfl
      · show s.outLen + 1 = (bits ++ [b]).length / s.adapter.sb
        simp [hd]
      · intro i hi hi'
        have hi' : i < s.outLen + 1 := hi'
        show Table.read? (Table.write s.outBuf s.outLen _) i = some (s.adapter.enc
          (val (((bits ++ [b]).drop (i * s.adapter.sb)).take s.adapter.sb)))
        by_cases h : i = s.outLen
        · subst h
          rw [Table.read?_write_same, List.take_of_length_le, hval]
          simp only [List.length_drop, List.length_append, List.length_singleton]
          omega
        · rw [Table.read?_write_other _ _ h, hold i hi (by omega)]
  · have hd : (bits.length + 1) / s.adapter.sb = s.outLen := by
      apply Nat.div_eq_of_lt_le
      · omega
      · rw [Nat.succ_mul]; omega
    rw [putBit_shift b hf, Nat.mod_eq_of_lt hlt]
    refine .inl ⟨_, rfl, ⟨s.outBuf, s.outLen, _, s.accCnt + 1, rfl, ho, ?_, ?_⟩, KeepsOut.refl _, ?_, ?_, ?_, hold⟩
    · show s.accCnt + 1 < s.adapter.sb
      omega
    · have := ha.2
      have : b.toNat ≤ 1 := Bool.toNat_le b
      show s.acc * 2 + b.toNat < 2 ^ (s.accCnt + 1)
      rw [pow_succ]
      omega
    · show s.accCnt + 1 = (bits ++ [b]).length % s.adapter.sb
      have := Nat.div_add_mod (bits.length + 1) s.adapter.sb
      rw [hd, mul_comm] at this
      simp only [List.length_append, List.length_singleton]
      omega
    · exact hval.symm
    · show s.outLen = (bits ++ [b]).length / s.adapter.sb
      simp [hd]

/-- Several bits, R100. -/
theorem wrote_putBits {o : Nat} (bs : List Bool) {s : State} {bits : List Bool} (hw : Wrote o s bits) (ho : OutOk s) (ha : AccOk s) :
    (∃ t, putBits bs s = .ok t ∧ WriterStep s t ∧ KeepsOut s t ∧ Wrote o t (bits ++ bs)) ∨
    (putBits bs s = .error (.cause .capacity) ∧ exceeds s.params.outMax ((bits.length + bs.length) / s.adapter.sb) = true) := by
  induction bs generalizing s bits with
  | nil => exact .inl ⟨s, rfl, .refl ho ha, .refl s, by simpa using hw⟩
  | cons b bs ih =>
    rcases wrote_putBit b hw ho ha with ⟨t, ht, hst, hk, hwt⟩ | ⟨he, hx⟩
    · rcases ih hwt hst.out hst.acc with ⟨u, hu, hsu, hk', hwu⟩ | ⟨he, hx⟩
      · exact .inl ⟨u, by simp [putBits, ht, Except.bind, hu], hst.trans hsu, hk.trans hk', by simpa using hwu⟩
      · refine .inr ⟨by simp [putBits, ht, Except.bind, he], ?_⟩
        rw [hst.adapter, hst.params] at hx
        simpa [Nat.add_assoc, Nat.add_comm 1] using hx
    · refine .inr ⟨by simp [putBits, he, Except.bind], exceeds_mono (Nat.div_le_div_right ?_) hx⟩
      simp

theorem ceil_of_mod_eq_zero {n k : Nat} (hk : 0 < k) (h : n % k = 0) : (n + k - 1) / k * k = n := by
  obtain ⟨q, rfl⟩ := Nat.dvd_of_mod_eq_zero h
  rw [show (k * q + k - 1) / k = q from Nat.div_eq_of_lt_le (by rw [mul_comm]; omega) (by rw [Nat.succ_mul, mul_comm]; omega)]
  exact mul_comm _ _

theorem ceil_succ {n k : Nat} (hk : 0 < k) (h : n % k ≠ 0) : (n + 1 + k - 1) / k = (n + k - 1) / k := by
  have hm := Nat.mod_lt n hk
  have hd := Nat.div_add_mod n k
  have e1 : (n + k - 1) / k = n / k + 1 :=
    Nat.div_eq_of_lt_le (by rw [Nat.succ_mul, mul_comm]; omega) (by rw [Nat.succ_mul, Nat.succ_mul, mul_comm]; omega)
  rw [e1]
  exact Nat.div_eq_of_lt_le (by rw [Nat.succ_mul, mul_comm]; omega) (by rw [Nat.succ_mul, Nat.succ_mul, mul_comm]; omega)

/-- The padding loop of `FINISH`, R102: zero bits up to the end of the group. -/
theorem wrote_padZeros {o : Nat} (fuel : Nat) {s : State} {bits : List Bool} (hw : Wrote o s bits) (ho : OutOk s) (ha : AccOk s)
    (hf : s.accCnt = 0 ∨ s.adapter.sb ≤ s.accCnt + fuel) :
    (∃ t z, padZeros fuel s = .ok t ∧ WriterStep s t ∧ KeepsOut s t ∧ t.accCnt = 0 ∧ Wrote o t (bits ++ List.replicate z false) ∧
      bits.length + z = (bits.length + s.adapter.sb - 1) / s.adapter.sb * s.adapter.sb) ∨
    (padZeros fuel s = .error (.cause .capacity) ∧
      exceeds s.params.outMax ((bits.length + s.adapter.sb - 1) / s.adapter.sb) = true) := by
  have hsb := sb_pos s.adapter
  have hdone (h0 : s.accCnt = 0) : bits.length = (bits.length + s.adapter.sb - 1) / s.adapter.sb * s.adapter.sb :=
    (ceil_of_mod_eq_zero hsb (hw.cnt ▸ h0)).symm
  induction fuel generalizing s bits with
  | zero =>
    have h0 : s.accCnt = 0 := by have := ha.1; omega
    exact .inl ⟨s, 0, by simp [padZeros, h0], .refl ho ha, .refl s, h0, by simpa using hw, hdone h0⟩
  | succ fuel ih =>
    by_cases h0 : s.accCnt = 0
    · exact .inl ⟨s, 0, by simp [padZeros, h0], .refl ho ha, .refl s, h0, by simpa using hw, hdone h0⟩
    · have hceil := ceil_succ hsb (hw.cnt ▸ h0)
      have hpz : padZeros (fuel + 1) s = (putBit false s).bind (padZeros fuel) := by simp [padZeros, h0]
      rw [hpz]
      rcases wrote_putBit false hw ho ha with ⟨t, ht, hst, hk, hwt⟩ | ⟨he, hx⟩
      · have hc : t.accCnt = s.accCnt + 1 ∨ s.accCnt + 1 = s.adapter.sb ∧ t.accCnt = 0 := by
          rcases putBit_cases false ho ha with ⟨t', ht', -, h⟩ | h
          · rw [ht] at ht'; cases ht'; exact h
          · rw [ht] at h; cases h
        have hsb' : 0 < t.adapter.sb := sb_pos _
        have hf' : t.accCnt = 0 ∨ t.adapter.sb ≤ t.accCnt + fuel := by
          rw [hst.adapter]
          rcases hf with h | h
          · exact absurd h h0
          · omega
        rcases ih hwt hst.out hst.acc hf' hsb'
          (fun h => (ceil_of_mod_eq_zero hsb' (hwt.cnt ▸ h)).symm) with ⟨u, z, hu, hsu, hk', h0u, hwu, hz⟩ | ⟨he, hx⟩
        · refine .inl ⟨u, z + 1, by simp [ht, Except.bind, hu], hst.trans hsu, hk.trans hk', h0u, ?_, ?_⟩
          · rw [List.replicate_succ]; simpa using hwu
          · rw [hst.adapter] at hz
            simp only [List.length_append, List.length_singleton] at hz
            rw [hceil] at hz; omega
        · refine .inr ⟨by simp [ht, Except.bind, he], ?_⟩
          rw [hst.adapter, hst.params] at hx
          simp only [List.length_append, List.length_singleton] at hx
          rwa [hceil] at hx
      · refine .inr ⟨by simp [he, Except.bind], exceeds_mono (Nat.div_le_div_right ?_) hx⟩
        have := ha.1
        omega

/-- `Whole.symbols`, one by one. -/
theorem symbols_getElem {sb count : Nat} {bits : List Bool} {i : Nat} (h : i < (Whole.symbols sb count bits).length) :
    (Whole.symbols sb count bits)[i] = val ((bits.drop (i * sb) ++ List.replicate sb false).take sb) := by
  simp [Whole.symbols]

@[simp] theorem symbols_length (sb count : Nat) (bits : List Bool) : (Whole.symbols sb count bits).length = count := by
  simp [Whole.symbols]

/-- A group of the padded stream is the group with zeros past the end. -/
theorem group_zeros {sb i z : Nat} {bits : List Bool} (h : (i + 1) * sb ≤ bits.length + z) :
    ((bits ++ List.replicate z false).drop (i * sb)).take sb = (bits.drop (i * sb) ++ List.replicate sb false).take sb := by
  rw [Nat.succ_mul] at h
  rw [List.drop_append, List.drop_replicate, List.take_append, List.take_append, List.take_replicate, List.take_replicate]
  congr 2
  simp only [List.length_drop]
  omega

/-- `FINISH`, R102 and 43_alphabets.md R193: the elements from `o` on are those of the rendered stream. -/
theorem wrote_finish {o : Nat} {s : State} {bits : List Bool} (hw : Wrote o s bits) (ho : OutOk s) (ha : AccOk s) :
    (∃ t, finish s = .ok t ∧ WriterStep s t ∧ KeepsOut s t ∧ t.outLen = (Whole.render s.adapter bits).length ∧
      (∀ i, o ≤ i → ∀ h : i < (Whole.render s.adapter bits).length,
        Table.read? t.outBuf i = some ((Whole.render s.adapter bits)[i])) ∧
      exceeds s.params.outMax (Whole.render s.adapter bits).length = false) ∨
    (finish s = .error (.cause .capacity) ∧ exceeds s.params.outMax (Whole.render s.adapter bits).length = true) := by
  have hsb := sb_pos s.adapter
  unfold finish
  rcases wrote_padZeros s.adapter.sb hw ho ha (.inr (by omega)) with ⟨t, z, ht, hst, hk, h0, hwt, hz⟩ | ⟨he, hx⟩
  · rw [ht]
    have hlen : t.outLen = (bits.length + s.adapter.sb - 1) / s.adapter.sb := by
      rw [hwt.len, hst.adapter]
      simp only [List.length_append, List.length_replicate]
      rw [hz, Nat.mul_div_cancel _ hsb]
    have hfin : adapterFinish t = appendAll (Whole.padding s.adapter t.outLen) t := by
      unfold adapterFinish Whole.padding
      rw [hst.adapter]
      cases s.adapter <;> simp [appendAll]
    have hr : Whole.render s.adapter bits =
        (Whole.symbols s.adapter.sb t.outLen bits).map s.adapter.enc ++ Whole.padding s.adapter t.outLen := by
      unfold Whole.render
      simp only [symbols_length, hlen]
    have hr2 : (Whole.render s.adapter bits).length = t.outLen + (Whole.padding s.adapter t.outLen).length := by
      rw [hr, List.length_append, List.length_map, symbols_length]
    have hap := appendAll_eq (Whole.padding s.adapter t.outLen) t hst.out.2
    simp only [Except.bind, hfin]
    rw [← hr2] at hap
    rw [← hst.params]
    cases hx : exceeds t.params.outMax (Whole.render s.adapter bits).length
    · rw [hx] at hap
      simp only [Bool.false_eq_true, if_false] at hap
      refine .inl ⟨_, hap, hst.trans ⟨_, _, t.acc, t.accCnt, rfl, (appendAll_out hst.out hap).2, hst.acc⟩, hk.trans ⟨?_, ?_⟩, ?_, ?_, rfl⟩
      · show t.outLen ≤ (Whole.render s.adapter bits).length
        omega
      · intro i hi
        rw [read?_writeFrom, if_neg (by omega)]
      · rfl
      · intro i hi hlt
        rw [read?_writeFrom]
        by_cases h : i < t.outLen
        · rw [if_neg (by omega), hwt.out i hi h, hst.adapter, group_zeros]
          · simp only [hr]
            rw [List.getElem_append_left (by simpa using h), List.getElem_map, symbols_getElem]
          · rw [hz, ← hlen]; exact Nat.mul_le_mul_right _ h
        · rw [if_pos ⟨by omega, by omega⟩]
          simp only [hr]
          rw [List.getElem_append_right (by simpa using Nat.le_of_not_lt h)]
          simp only [List.length_map, symbols_length]
          rw [List.getElem?_eq_getElem]
    · rw [hx] at hap
      exact .inr ⟨by simpa using hap, rfl⟩
  · refine .inr ⟨by rw [he]; rfl, exceeds_mono ?_ hx⟩
    simp [Whole.render]

end Sys2Proof.Machine
end

