-- ==== Sys2Proof/Laws/Alphabet.lean ====
section
/-! SUPPORT. The alphabets, `UNPACK`, and `UNPACK` of a rendered stream. -/

namespace Sys2Proof.Machine

open Sys2Proof.Safety

/-- `DEC` gives back a symbol value. -/
theorem dec_enc (ad : Adapter) (v : Nat) (h : v < 2 ^ ad.sb) : ad.dec (ad.enc v) = some v := by
  cases ad
  · simp only [Adapter.dec, Adapter.enc, Adapter.sb] at *; simp; omega
  · have : ∀ v < 64, decSextet base64Last (encSextet base64Last v) = some v := by decide
    exact this v h
  · have : ∀ v < 64, decSextet uriLast (encSextet uriLast v) = some v := by decide
    exact this v h
  · simp only [Adapter.dec, Adapter.enc, Adapter.sb] at *
    have : (BitVec.ofNat 16 v).toNat = v := by rw [BitVec.toNat_ofNat]; exact Nat.mod_eq_of_lt (by omega)
    simp only [this]; rw [if_pos (by omega)]

/-- Where a sextet alphabet decodes, it encodes back. -/
theorem enc_dec64 {last : Elem} (hl : last = base64Last ∨ last = uriLast) {x : Elem} {v : Nat} (h : decSextet last x = some v) :
    v < 64 ∧ encSextet last v = x := by
  unfold decSextet at h
  simp only at h
  split at h
  · cases h
    refine ⟨by omega, ?_⟩
    rw [encSextet, if_pos (by omega)]
    apply BitVec.eq_of_toNat_eq; rw [BitVec.toNat_ofNat]; omega
  · split at h
    · cases h
      refine ⟨by omega, ?_⟩
      rw [encSextet, if_neg (by omega), if_pos (by omega)]
      apply BitVec.eq_of_toNat_eq; rw [BitVec.toNat_ofNat]; omega
    · split at h
      · cases h
        refine ⟨by omega, ?_⟩
        rw [encSextet, if_neg (by omega), if_neg (by omega), if_pos (by omega)]
        apply BitVec.eq_of_toNat_eq; rw [BitVec.toNat_ofNat]; omega
      · split at h
        · cases h
          refine ⟨by omega, ?_⟩
          rename_i hx
          show (0x002B : Elem) = x
          apply BitVec.eq_of_toNat_eq; rw [hx]; rfl
        · split at h
          · cases h; rename_i hx; subst hx; exact ⟨by omega, rfl⟩
          · cases h

/-- How many `=` end a sequence. -/
theorem trailing_pads (get : Nat → Elem) (n k : Nat) (h0 : ∀ i, i < k → get i ≠ padElem) (h1 : ∀ i, k ≤ i → i < k + n → get i = padElem) :
    trailingPads get (k + n) = n := by
  induction n with
  | zero =>
    cases k with
    | zero => rfl
    | succ k => simp [trailingPads, h0 k (by omega)]
  | succ n ih =>
    show trailingPads get (k + n + 1) = n + 1
    rw [trailingPads, if_pos (h1 _ (by omega) (by omega)), ih (fun i a b => h1 i a (by omega))]

/-- `=` is no symbol. -/
theorem enc64_ne_pad : ∀ v < 64, encSextet base64Last v ≠ padElem ∧ encSextet uriLast v ≠ padElem := by decide

/-- Every element gives one group of bits. -/
theorem unpackElems_length {ad : Adapter} {xs : List Elem} {b} (h : unpackElems ad xs = some b) : b.length = ad.sb * xs.length := by
  induction xs generalizing b with
  | nil => cases h; simp
  | cons x xs ih =>
    unfold unpackElems at h
    cases hx : ad.dec x with
    | none => rw [hx] at h; cases h
    | some v =>
      rw [hx] at h
      obtain ⟨c, hc, rfl⟩ := Option.map_eq_some_iff.1 h
      rw [List.length_append, msb_length, ih hc, List.length_cons]; ring

/-- Legal elements unpack. -/
theorem unpackElems_some {ad : Adapter} {xs : List Elem} (h : ∀ x ∈ xs, ad.dec x ≠ none) : ∃ b, unpackElems ad xs = some b := by
  induction xs with
  | nil => exact ⟨[], rfl⟩
  | cons x xs ih =>
    obtain ⟨c, hc⟩ := ih (fun y hy => h y (List.mem_cons_of_mem _ hy))
    obtain ⟨v, hv⟩ := Option.ne_none_iff_exists'.1 (h x (List.mem_cons_self))
    exact ⟨_, by simp [unpackElems, hv, hc]; rfl⟩

/-- An illegal element does not. -/
theorem unpackElems_none {ad : Adapter} {xs : List Elem} {x} (hx : x ∈ xs) (h : ad.dec x = none) : unpackElems ad xs = none := by
  induction xs with
  | nil => cases hx
  | cons y xs ih =>
    unfold unpackElems
    rcases List.mem_cons.1 hx with rfl | hx
    · rw [h]
    · split
      · rfl
      · rw [ih hx]; rfl

/-- The group of one element. -/
theorem unpackElems_group {ad : Adapter} {xs : List Elem} {b} (h : unpackElems ad xs = some b) (i : Nat) (hi : i < xs.length) (v : Nat) (hv : ad.dec xs[i] = some v) :
   (b.drop (i * ad.sb)).take ad.sb = msb ad.sb v := by
  induction xs generalizing b i with
  | nil => simp at hi
  | cons x xs ih =>
    unfold unpackElems at h
    cases hx : ad.dec x with
    | none => rw [hx] at h; cases h
    | some u =>
      rw [hx] at h
      obtain ⟨c, hc, rfl⟩ := Option.map_eq_some_iff.1 h
      cases i with
      | zero =>
        simp only [List.getElem_cons_zero] at hv
        rw [hx] at hv; cases hv
        rw [Nat.zero_mul, List.drop_zero, List.take_append_of_le_length (by simp), List.take_of_length_le (by simp)]
      | succ i =>
        rw [Nat.succ_mul, Nat.add_comm, ← List.drop_drop, List.drop_append_of_le_length (by simp), List.drop_of_length_le (l := msb _ _) (by simp), List.nil_append]
        exact ih hc i (by simpa using hi) (by simpa using hv)

/-- One more element of the input. -/
theorem inElems_succ (s : State) (n : Nat) : s.inElems (n+1) = s.inElems n ++ [s.inAt n] := by
  simp [State.inElems, List.range_succ]

/-- The input without its trailing `=`. -/
theorem strip_inElems (s : State) (n : Nat) :
    ((s.inElems n).reverse.dropWhile (· = padElem)).reverse = s.inElems (n - trailingPads s.inAt n) := by
  induction n with
  | zero => simp [State.inElems]
  | succ n ih =>
    rw [inElems_succ, List.reverse_append, trailingPads]
    by_cases h : s.inAt n = padElem
    · simp only [List.reverse_cons, List.reverse_nil, List.nil_append, List.singleton_append, List.dropWhile_cons, h, decide_true, if_true]
      rw [ih]; congr 1; omega
    · simp only [List.reverse_cons, List.reverse_nil, List.nil_append, List.singleton_append, List.dropWhile_cons, h, decide_false, if_false, Bool.false_eq_true]
      simp [inElems_succ]

/-- `UNPACK` reads the stripped input. -/
theorem unpackAll_inElems (s : State) (n : Nat) (ad : Adapter) :
    unpackElems ad (s.inElems (ad.length s.inAt n)) = Whole.unpackAll ad (s.inElems n) := by
  cases ad <;> simp only [Adapter.length, Whole.unpackAll]
  rw [strip_inElems]

/-- `UNPACK` as a function of the input elements. -/
theorem unpack_eq (s : State) : unpack s = match Whole.unpackAll s.adapter (s.inElems s.inLen) with
    | none => .error (.cause .alphabet)
    | some bits => .ok { s with bits := bits, bp := 0 } := by
  rw [← unpackAll_inElems]; rfl

/-- Encoded symbols unpack to their bits. -/
theorem unpackElems_enc (ad : Adapter) (vs : List Nat) (h : ∀ v ∈ vs, v < 2 ^ ad.sb) :
    unpackElems ad (vs.map ad.enc) = some (vs.map (msb ad.sb)).flatten := by
  induction vs with
  | nil => rfl
  | cons v vs ih =>
    simp only [List.map_cons, unpackElems, dec_enc ad v (h v List.mem_cons_self)]
    rw [ih (fun w hw => h w (List.mem_cons_of_mem _ hw))]; rfl

/-- A group is a symbol value. -/
theorem val_group_lt (sb : Nat) (l : List Bool) : val (l.take sb) < 2 ^ sb :=
  lt_of_lt_of_le (val_lt _) (Nat.pow_le_pow_right (by norm_num) (by simp))

/-- The symbols of a stream are symbol values. -/
theorem symbols_lt (sb c : Nat) (b : List Bool) : ∀ v ∈ Whole.symbols sb c b, v < 2 ^ sb := by
  intro v hv
  simp only [Whole.symbols, List.mem_map] at hv
  obtain ⟨i, -, rfl⟩ := hv
  exact val_group_lt _ _

/-- The groups of a stream joined. -/
theorem groups_flatten (sb q : Nat) (bits : List Bool) (h : q * sb ≤ bits.length) :
    ((List.range q).map fun i => (bits.drop (i * sb)).take sb).flatten = bits.take (q * sb) := by
  induction q with
  | zero => simp
  | succ q ih =>
    rw [Nat.succ_mul] at h
    rw [List.range_succ, List.map_append, List.flatten_append, ih (by omega), Nat.succ_mul, List.take_add]
    simp

/-- The symbols of a stream, as bits, are the stream and its padding. -/
theorem symbols_flatten (sb c : Nat) (bits : List Bool) (h : bits.length ≤ c * sb) :
    ((Whole.symbols sb c bits).map (msb sb)).flatten = bits ++ List.replicate (c * sb - bits.length) false := by
  set z := c * sb - bits.length
  have hl : (bits ++ List.replicate z false).length = c * sb := by simp [z]; omega
  have := groups_flatten sb c (bits ++ List.replicate z false) (by omega)
  rw [List.take_of_length_le (by omega)] at this
  rw [← this, Whole.symbols, List.map_map]
  congr 1
  apply List.map_congr_left
  intro i hi
  have hi : i < c := by simpa using hi
  have hg : (i+1) * sb ≤ bits.length + z := by
    have : bits.length + z = c * sb := by omega
    rw [this]; exact Nat.mul_le_mul_right _ hi
  simp only [Function.comp]
  rw [group_zeros hg]
  have hv := msb_val ((bits.drop (i * sb) ++ List.replicate sb false).take sb)
  rw [List.length_take, Nat.min_eq_left (by simp)] at hv
  exact hv

/-- Enough groups for every bit. -/
theorem ceil_ge (n k : Nat) (hk : 0 < k) : n ≤ (n + k - 1) / k * k := by
  have := Nat.div_add_mod (n + k - 1) k
  have hm := Nat.mod_lt (n+k-1) hk
  rw [Nat.mul_comm] at this; omega

/-- Padding is stripped. -/
theorem strip_pads (l : List Elem) (m : Nat) (h : ∀ x ∈ l, x ≠ padElem) :
    ((l ++ List.replicate m padElem).reverse.dropWhile (· = padElem)).reverse = l := by
  rw [List.reverse_append, List.reverse_replicate]
  rw [List.dropWhile_append_of_pos (by simp)]
  cases hl : l.reverse with
  | nil => simp at hl; simp [hl]
  | cons a t =>
    have : a ≠ padElem := h a (by rw [← List.mem_reverse, hl]; exact List.mem_cons_self)
    simp only [List.dropWhile_cons, this, decide_false, Bool.false_eq_true, if_false]
    rw [← hl, List.reverse_reverse]

/-- A rendered stream unpacks to itself and its padding. -/
theorem unpack_render (ad : Adapter) (bits : List Bool) :
    Whole.unpackAll ad (Whole.render ad bits) =
      some (bits ++ List.replicate ((bits.length + ad.sb - 1) / ad.sb * ad.sb - bits.length) false) := by
  have hs := symbols_flatten ad.sb ((bits.length + ad.sb - 1) / ad.sb) bits (ceil_ge _ _ (sb_pos ad))
  have hu := unpackElems_enc ad (Whole.symbols ad.sb ((bits.length + ad.sb - 1) / ad.sb) bits) (symbols_lt _ _ _)
  rw [hs] at hu
  cases ad
  · simpa [Whole.unpackAll, Whole.render, Whole.padding] using hu
  · simp only [Whole.unpackAll, Whole.render, Whole.padding]
    rw [strip_pads]
    · exact hu
    · intro x hx
      obtain ⟨v, hv, rfl⟩ := List.mem_map.1 hx
      exact (enc64_ne_pad v (symbols_lt _ _ _ v hv)).1
  · simpa [Whole.unpackAll, Whole.render, Whole.padding] using hu
  · simpa [Whole.unpackAll, Whole.render, Whole.padding] using hu

end Sys2Proof.Machine
end

