-- ==== Sys2Proof/Laws/Codes.lean ====
section
/-! SUPPORT. `ADVANCE` under the invariant of `N` and `NB` (10_state.md R28, 41_compress.md R134). -/

namespace Sys2Proof.Machine

open Sys2Proof.Safety

/-- `CodesOk` says what `ADVANCE` needs to know. -/
theorem CodesOk_advance {s : State} (h : CodesOk s) :
    advance s =
      if exceeds s.params.maxCodeBits (bitlen (s.n + 1)) then .error (.cause .capacity)
      else .ok { s with n := s.n + 1, nb := bitlen (s.n + 1) } :=
  advance_eq h.2.2.1 h.2.2.2

/-- After `ADVANCE` the invariant of the counters holds again (10_state.md R28). -/
theorem CodesOk_succ {s : State} (h : CodesOk s) (he : exceeds s.params.maxCodeBits (bitlen (s.n + 1)) = false) :
    CodesOk { s with n := s.n + 1, nb := bitlen (s.n + 1) } :=
  ⟨by have := h.1; show 2 ≤ s.n + 1; omega, lt_two_pow_bitlen _, rfl, exceeds_eq_false.1 he⟩

/-- What `ADVANCE` can do: one more code at its width, or `ERR_CAPACITY`. -/
theorem advance_cases {s : State} (h : CodesOk s) :
    (exceeds s.params.maxCodeBits (bitlen (s.n + 1)) = false ∧
      advance s = .ok { s with n := s.n + 1, nb := bitlen (s.n + 1) } ∧
      CodesOk { s with n := s.n + 1, nb := bitlen (s.n + 1) }) ∨
    (exceeds s.params.maxCodeBits (bitlen (s.n + 1)) = true ∧ advance s = .error (.cause .capacity)) := by
  rw [CodesOk_advance h]
  cases he : exceeds s.params.maxCodeBits (bitlen (s.n + 1))
  · exact .inl ⟨rfl, by simp, CodesOk_succ h he⟩
  · exact .inr ⟨rfl, by simp⟩

end Sys2Proof.Machine
end

