-- ==== Sys2Proof/Laws/Compress.lean ====
section
/-! SUPPORT. What the compression operations can do (41_compress.md R133 to R140), in a state that meets the invariants. -/

namespace Sys2Proof.Machine

open Sys2Proof.Safety

/-- What `ASSIGN` can do. -/
theorem assign_cases (p : Phrase) {s : State} (h : CodesOk s) :
    (exceeds s.params.maxCodeBits (bitlen (s.n + 1)) = false ∧
      assign p s = .ok { s with dictC := DictC.add s.dictC p s.n, n := s.n + 1, nb := bitlen (s.n + 1) }) ∨
    (exceeds s.params.maxCodeBits (bitlen (s.n + 1)) = true ∧ assign p s = .error (.cause .capacity)) := by
  unfold assign
  rw [CodesOk_advance (s := { s with dictC := DictC.add s.dictC p s.n }) h]
  cases he : exceeds s.params.maxCodeBits (bitlen (s.n + 1)) <;> simp

/-- The dictionary after the assignment of a new word whose first part is known. -/
theorem DictCOk_add {s : State} (h : DictCOk s) {p : Phrase} (hp : p ≠ [])
    (hnew : DictC.code? s.dictC p = none)
    (hpre : ∀ q c, q ≠ [] → q ++ [c] = p → (DictC.code? s.dictC q).isSome) {n' nb' : Nat} (hn : s.n < n')
    (h2 : firstCode ≤ s.n) :
    DictCOk { s with dictC := DictC.add s.dictC p s.n, n := n', nb := nb' } := by
  obtain ⟨hnd, hord, hran, hcl⟩ := h
  rw [DictCOk]
  simp only [DictC.add_of_new hnew, List.map_append, List.map_cons, List.map_nil]
  refine ⟨?_, ?_, ?_, ?_⟩
  · rw [List.nodup_append]
    refine ⟨hnd, by simp, ?_⟩
    rintro a ha b hb rfl
    simp only [List.mem_singleton] at hb
    subst hb
    have := (DictC.code?_isSome _ _).2 ha
    simp [hnew] at this
  · rw [List.pairwise_append]
    refine ⟨hord, by simp, ?_⟩
    intro a ha b hb
    simp only [List.mem_singleton] at hb
    subst hb
    obtain ⟨e, he, rfl⟩ := List.mem_map.1 ha
    exact (hran e he).2.2
  · intro e he
    rcases List.mem_append.1 he with he | he
    · have := hran e he
      exact ⟨this.1, this.2.1, lt_trans this.2.2 hn⟩
    · simp only [List.mem_singleton] at he
      subst he
      exact ⟨hp, h2, hn⟩
  · intro q c hq hs
    rw [← DictC.add_of_new hnew, DictC.code?_add] at hs
    rw [← DictC.add_of_new hnew, DictC.code?_add]
    split
    · rfl
    · split at hs
      · exact hpre q c hq ‹_›
      · exact hcl q c hq hs

/-- What the emission of a phrase can do: a reference to a known word; or the escape of a new unit, which registers it; or
`ERR_CAPACITY`. -/
theorem emitPhrase_cases {p : Phrase} {s : State} (hc : CodesOk s) (ho : OutOk s) (ha : AccOk s)
    (hp : (DictC.code? s.dictC p).isSome ∨ ∃ u, p = [u]) :
    (∃ k t, DictC.code? s.dictC p = some k ∧ emitPhrase p s = .ok t ∧ WriterStep s t) ∨
    (∃ u t, p = [u] ∧ DictC.code? s.dictC p = none ∧ WriterStep s t ∧
      exceeds s.params.maxCodeBits (bitlen (s.n + 1)) = false ∧
      emitPhrase p s = .ok { t with dictC := DictC.add s.dictC p s.n, n := s.n + 1, nb := bitlen (s.n + 1) }) ∨
    emitPhrase p s = .error (.cause .capacity) := by
  cases hk : DictC.code? s.dictC p with
  | some k =>
    rcases write_cases k s.nb ho ha with ⟨t, ht, hw⟩ | he
    · exact .inl ⟨k, t, rfl, by simp [emitPhrase, hk, ht], hw⟩
    · exact .inr (.inr (by simp [emitPhrase, hk, he]))
  | none =>
    obtain ⟨u, rfl⟩ : ∃ u, p = [u] := by simpa [hk] using hp
    rcases write_cases rawCode s.nb ho ha with ⟨t, ht, hw⟩ | he
    · rcases write_cases u.toNat rawBits hw.out hw.acc with ⟨t', ht', hw'⟩ | he
      · have hw2 := hw.trans hw'
        have hc' : CodesOk t' := by obtain ⟨_, _, _, _, rfl, -, -⟩ := hw2; exact hc
        have hn : t'.n = s.n ∧ t'.dictC = s.dictC ∧ t'.params = s.params := by
          obtain ⟨_, _, _, _, rfl, -, -⟩ := hw2; exact ⟨rfl, rfl, rfl⟩
        rcases assign_cases [u] hc' with ⟨hx, has⟩ | ⟨-, has⟩
        · refine .inr (.inl ⟨u, t', rfl, rfl, hw2, by rw [← hn.1, ← hn.2.2]; exact hx, ?_⟩)
          simp only [emitPhrase, hk, ht, Except.bind, ht', has, hn.1, hn.2.1]
        · exact .inr (.inr (by simp only [emitPhrase, hk, ht, Except.bind, ht', has]))
      · exact .inr (.inr (by simp only [emitPhrase, hk, ht, Except.bind, he]))
    · exact .inr (.inr (by simp only [emitPhrase, hk, he, Except.bind]))

end Sys2Proof.Machine
end

