-- ==== Sys2Proof/Laws/Decompress.lean ====
section
/-! SUPPORT. What the decompression operations can do (42_decompress.md R162 to R167), in a state that meets the invariants. -/

namespace Sys2Proof.Machine

open Sys2Proof.Safety

/-- The entries after the fill of the pending one: `TAIL`'s first assignment, R167. -/
def filled (s : State) (x : Elem) : DictD :=
  match s.pend, s.prev.bind (Table.read? s.dictD) with
  | some q, some p => Table.write s.dictD q (p ++ [x])
  | _, _ => s.dictD

theorem fillPending_eq {x : Elem} {s : State} (h : s.pend = none ∨ ∃ p, s.prev.bind (Table.read? s.dictD) = some p) :
    fillPending x s = .ok { s with dictD := filled s x } := by
  cases hq : s.pend with
  | none => simp only [fillPending, filled, hq]; rw [← hq]
  | some q =>
    obtain ⟨p, hp⟩ : ∃ p, s.prev.bind (Table.read? s.dictD) = some p := by simpa [hq] using h
    simp only [fillPending, filled, hq, hp]

/-- `TAIL` in one equation: the fill, the output, `PREV`, `PEND` and one more code; or `ERR_CAPACITY`. -/
theorem tail_eq {k : Nat} {x : Elem} {e : Phrase} {s : State} (hc : CodesOk s) (ho : OutOk s)
    (h : s.pend = none ∨ ∃ p, s.prev.bind (Table.read? s.dictD) = some p) :
    tail k (x :: e) s =
      if exceeds s.params.outMax (s.outLen + (e.length + 1)) || exceeds s.params.maxCodeBits (bitlen (s.n + 1)) then
        .error (.cause .capacity)
      else .ok
        { s with
          dictD := filled s x
          outBuf := writeFrom s.outBuf s.outLen (x :: e)
          outLen := s.outLen + (e.length + 1)
          prev := some k
          pend := some s.n
          n := s.n + 1
          nb := bitlen (s.n + 1) } := by
  rw [tail, fillPending_eq h]
  show ((appendAll (x :: e) { s with dictD := filled s x }).bind fun t =>
    advance { t with prev := some k, pend := some t.n }) = _
  rw [appendAll_eq _ { s with dictD := filled s x } ho.2]
  cases exceeds s.params.outMax (s.outLen + (e.length + 1))
  · simp only [List.length_cons, Bool.false_eq_true, if_false, Bool.false_or, Except.bind]
    rw [advance_eq]
    · exact hc.2.2.1
    · exact hc.2.2.2
  · simp [Except.bind]

end Sys2Proof.Machine
end

