-- ==== Sys2Proof/Laws/Emit.lean ====
section
/-! SUPPORT. `EMIT_PHRASE` against the bits of the code stream. -/

namespace Sys2Proof.Machine

open Sys2Proof.Safety

/-- Emission of a phrase: its bits are appended, its codes counted; or a bound is reached. -/
theorem emit_wrote {s : State} {p : Phrase} {o : Nat} {bits : List Bool} (hc : CodesOk s) (ho : OutOk s) (ha : AccOk s) (hw : Wrote o s bits)
    (hp : (DictC.code? s.dictC p).isSome ∨ ∃ u, p = [u]) (n' : Nat) (pb : List Bool)
    (hn : n' = s.n + if (DictC.code? s.dictC p).isSome then 0 else 1)
    (hb : pb = match DictC.code? s.dictC p with
      | some k => msb s.nb k
      | none => msb s.nb rawCode ++ (p.map fun u => msb rawBits u.toNat).flatten) :
    (∃ t, emitPhrase p s = .ok { t with dictC := if (DictC.code? s.dictC p).isSome then s.dictC else DictC.add s.dictC p s.n, n := n', nb := bitlen n' } ∧
      WriterStep s t ∧ KeepsOut s t ∧ Wrote o t (bits ++ pb) ∧ exceeds s.params.maxCodeBits (bitlen n') = false) ∨
    (emitPhrase p s = .error (.cause .capacity) ∧ (exceeds s.params.outMax ((bits.length + pb.length) / s.adapter.sb) = true ∨ exceeds s.params.maxCodeBits (bitlen n') = true)) := by
  cases hk : DictC.code? s.dictC p with
  | some k =>
    simp only [hk] at hb hn
    have hn : n' = s.n := by simpa using hn
    subst hb hn
    rcases wrote_putBits (msb s.nb k) hw ho ha with ⟨t, ht, hst, hkp, hwt⟩ | ⟨he, hx⟩
    · refine .inl ⟨t, ?_, hst, hkp, hwt, ?_⟩
      · simp only [emitPhrase, hk, write, ht]
        obtain ⟨_, _, _, _, rfl, -, -⟩ := hst
        simp [← hc.2.2.1]
      · rw [← hc.2.2.1]; exact exceeds_eq_false.2 hc.2.2.2
    · exact .inr ⟨by simp only [emitPhrase, hk, write, he], .inl hx⟩
  | none =>
    obtain ⟨u, rfl⟩ : ∃ u, p = [u] := by simpa [hk] using hp
    simp only [hk] at hb hn
    have hn : n' = s.n + 1 := by simpa using hn
    have hb : pb = msb s.nb rawCode ++ msb rawBits u.toNat := by simpa using hb
    subst hb hn
    rcases wrote_putBits (msb s.nb rawCode) hw ho ha with ⟨t, ht, hst, hkp, hwt⟩ | ⟨he, hx⟩
    · rcases wrote_putBits (msb rawBits u.toNat) hwt hst.out hst.acc with ⟨t', ht', hst', hkp', hwt'⟩ | ⟨he, hx⟩
      · have hw2 := hst.trans hst'
        have hc' : CodesOk t' := by obtain ⟨_, _, _, _, rfl, -, -⟩ := hw2; exact hc
        have hn : t'.n = s.n ∧ t'.dictC = s.dictC ∧ t'.params = s.params := by
          obtain ⟨_, _, _, _, rfl, -, -⟩ := hw2; exact ⟨rfl, rfl, rfl⟩
        rcases assign_cases [u] hc' with ⟨hx, has⟩ | ⟨hx, has⟩
        · refine .inl ⟨t', ?_, hw2, hkp.trans hkp', by simpa using hwt', ?_⟩
          · simp only [emitPhrase, hk, write, ht, Except.bind, ht', has, hn.1, hn.2.1]; simp
          · rw [← hn.1, ← hn.2.2]; exact hx
        · refine .inr ⟨by simp only [emitPhrase, hk, write, ht, Except.bind, ht', has], .inr ?_⟩
          rw [← hn.1, ← hn.2.2]; exact hx
      · refine .inr ⟨by simp only [emitPhrase, hk, write, ht, Except.bind, he], .inl ?_⟩
        rw [hst.adapter, hst.params] at hx
        simpa [Nat.add_assoc] using hx
    · refine .inr ⟨by simp only [emitPhrase, hk, write, he, Except.bind], .inl (exceeds_mono (Nat.div_le_div_right ?_) hx)⟩
      simp

end Sys2Proof.Machine
end

