-- ==== Sys2Proof/Laws/Frame.lean ====
section
/-! SUPPORT. The frame of every micro-operation: what none of them touches. -/

namespace Sys2Proof.Machine

/-- What no micro-operation touches: the registers, the input, the phase, the cursor of compression and the unpacked bits. -/
structure Kept (s t : State) : Prop where
  cmd : t.cmd = s.cmd
  status : t.status = s.status
  inLen : t.inLen = s.inLen
  inBuf : t.inBuf = s.inBuf
  inEpoch : t.inEpoch = s.inEpoch
  params : t.params = s.params
  host : t.host = s.host
  spoiled : t.spoiled = s.spoiled
  phase : t.phase = s.phase
  inPtr : t.inPtr = s.inPtr
  bits : t.bits = s.bits

/-- Nothing happened. -/
theorem Kept.refl (s : State) : Kept s s := ⟨rfl, rfl, rfl, rfl, rfl, rfl, rfl, rfl, rfl, rfl, rfl⟩

/-- One micro-operation after another. -/
theorem Kept.trans {s t u : State} (h : Kept s t) (g : Kept t u) : Kept s u :=
  ⟨g.cmd.trans h.cmd, g.status.trans h.status, g.inLen.trans h.inLen, g.inBuf.trans h.inBuf, g.inEpoch.trans h.inEpoch,
    g.params.trans h.params, g.host.trans h.host, g.spoiled.trans h.spoiled, g.phase.trans h.phase, g.inPtr.trans h.inPtr, g.bits.trans h.bits⟩

/-- The frame of `append`. -/
theorem append_kept {v : Elem} {s t : State} (h : append v s = .ok t) : Kept s t := by
  obtain ⟨-, rfl⟩ := append_eq_ok.1 h
  exact ⟨rfl, rfl, rfl, rfl, rfl, rfl, rfl, rfl, rfl, rfl, rfl⟩

/-- The frame of `appendAll`. -/
theorem appendAll_kept {e : Phrase} {s t : State} (h : appendAll e s = .ok t) : Kept s t := by
  induction e generalizing s with
  | nil => cases h; exact .refl _
  | cons x e ih =>
    obtain ⟨u, h1, h2⟩ := bind_eq_ok.1 h
    exact (append_kept h1).trans (ih h2)

/-- The frame of `ADVANCE`. -/
theorem advance_kept {s t : State} (h : advance s = .ok t) : Kept s t := by
  unfold advance at h
  split at h
  · split at h
    · cases h
    · cases h; exact ⟨rfl, rfl, rfl, rfl, rfl, rfl, rfl, rfl, rfl, rfl, rfl⟩
  · cases h; exact ⟨rfl, rfl, rfl, rfl, rfl, rfl, rfl, rfl, rfl, rfl, rfl⟩

/-- The frame of `PUTBIT`. -/
theorem putBit_kept {b : Bool} {s t : State} (h : putBit b s = .ok t) : Kept s t := by
  unfold putBit at h
  dsimp only at h
  split at h
  · obtain ⟨u, h1, rfl⟩ := map_eq_ok.1 h
    have := append_kept h1
    exact this.trans ⟨rfl, rfl, rfl, rfl, rfl, rfl, rfl, rfl, rfl, rfl, rfl⟩
  · cases h; exact ⟨rfl, rfl, rfl, rfl, rfl, rfl, rfl, rfl, rfl, rfl, rfl⟩

/-- The frame of `WRITE`. -/
theorem putBits_kept {bs : List Bool} {s t : State} (h : putBits bs s = .ok t) : Kept s t := by
  induction bs generalizing s with
  | nil => cases h; exact .refl _
  | cons x e ih =>
    obtain ⟨u, h1, h2⟩ := bind_eq_ok.1 h
    exact (putBit_kept h1).trans (ih h2)

/-- The frame of the padding. -/
theorem padZeros_kept {f : Nat} {s t : State} (h : padZeros f s = .ok t) : Kept s t := by
  induction f generalizing s with
  | zero => unfold padZeros at h; split at h <;> cases h; exact .refl _
  | succ f ih =>
    unfold padZeros at h
    split at h
    · cases h; exact .refl _
    · obtain ⟨u, h1, h2⟩ := bind_eq_ok.1 h
      exact (putBit_kept h1).trans (ih h2)

/-- The frame of `FINISH`. -/
theorem finish_kept {s t : State} (h : finish s = .ok t) : Kept s t := by
  obtain ⟨u, h1, h2⟩ := bind_eq_ok.1 h
  refine (padZeros_kept h1).trans ?_
  unfold adapterFinish at h2
  split at h2
  · cases h2; exact .refl _
  · exact appendAll_kept h2
  · cases h2; exact .refl _
  · cases h2; exact .refl _

/-- The frame of `ASSIGN`. -/
theorem assign_kept {p : Phrase} {s t : State} (h : assign p s = .ok t) : Kept s t :=
  Kept.trans (t := { s with dictC := DictC.add s.dictC p s.n }) ⟨rfl, rfl, rfl, rfl, rfl, rfl, rfl, rfl, rfl, rfl, rfl⟩ (advance_kept h)

/-- The frame of `EMIT_PHRASE`. -/
theorem emitPhrase_kept {p : Phrase} {s t : State} (h : emitPhrase p s = .ok t) : Kept s t := by
  unfold emitPhrase at h
  split at h
  · exact putBits_kept h
  · split at h
    · obtain ⟨u, h1, h2⟩ := bind_eq_ok.1 h
      obtain ⟨v, h3, h4⟩ := bind_eq_ok.1 h1
      exact ((putBits_kept h3).trans (putBits_kept h4)).trans (assign_kept h2)
    · cases h

/-- The frame of `SCAN`. -/
theorem scan_kept {c : Elem} {s t : State} (h : scan c s = .ok t) : Kept s t := by
  unfold scan at h
  split at h
  · cases h; exact ⟨rfl, rfl, rfl, rfl, rfl, rfl, rfl, rfl, rfl, rfl, rfl⟩
  · split at h
    · cases h; exact ⟨rfl, rfl, rfl, rfl, rfl, rfl, rfl, rfl, rfl, rfl, rfl⟩
    · obtain ⟨u, h1, rfl⟩ := map_eq_ok.1 h
      obtain ⟨v, h3, h4⟩ := bind_eq_ok.1 h1
      exact ((emitPhrase_kept h3).trans (assign_kept h4)).trans ⟨rfl, rfl, rfl, rfl, rfl, rfl, rfl, rfl, rfl, rfl, rfl⟩

/-- The frame of the fill in `TAIL`. -/
theorem fillPending_kept {x : Elem} {s t : State} (h : fillPending x s = .ok t) : Kept s t := by
  unfold fillPending at h
  split at h
  · cases h; exact .refl _
  · split at h
    · cases h
    · cases h; exact ⟨rfl, rfl, rfl, rfl, rfl, rfl, rfl, rfl, rfl, rfl, rfl⟩

/-- The frame of `TAIL`. -/
theorem tail_kept {k : Nat} {e : Phrase} {s t : State} (h : tail k e s = .ok t) : Kept s t := by
  unfold tail at h
  split at h
  · cases h
  · obtain ⟨u, h1, h2⟩ := bind_eq_ok.1 h
    obtain ⟨v, h3, h4⟩ := bind_eq_ok.1 h1
    refine ((fillPending_kept h3).trans (appendAll_kept h4)).trans ?_
    refine Kept.trans ?_ (advance_kept h2)
    exact ⟨rfl, rfl, rfl, rfl, rfl, rfl, rfl, rfl, rfl, rfl, rfl⟩

end Sys2Proof.Machine
end

