-- ==== Sys2Proof/Laws/Invariant.lean ====
section
/-! SUPPORT. What each kind of step does to the invariant `Inv`. -/

namespace Sys2Proof.Machine

open Sys2Proof.Safety

/-- The report of a failure is neither that of success nor that of a running operation. -/
theorem statusFailure_ne (c : Cause) : statusFailure c ≠ statusSuccess ∧ statusFailure c ≠ statusBusy := by cases c <;> decide

/-- `FAIL` leaves a sound block. -/
theorem inv_fail (c : Cause) {s : State} (hp : s.params.wf) (hi : Memory.wf s.inBuf) : Inv (fail c s) where
  params := hp
  inWf := hi
  out := ⟨rfl, fun m hm => Nat.zero_le _⟩
  status := by simp [StatusOk]
  running := by simp
  debug := by simp [statusFailure_ne]

/-- Success leaves a sound block. -/
theorem inv_complete {s : State} (hp : s.params.wf) (hi : Memory.wf s.inBuf) (ho : OutOk s) (hc : CodesOk s) :
    Inv (complete s) where
  params := hp
  inWf := hi
  out := ho
  status := by simp [StatusOk]
  running := by simp
  debug := fun _ _ => ⟨hc.1, by have := hc.2.1; simp; omega, hc.2.2.1⟩

/-- A started operation is sound. -/
theorem inv_begun (v : BitVec 3) {s : State} (hp : s.params.wf) (hi : Memory.wf s.inBuf) : Inv (begun v s) where
  params := hp
  inWf := hi
  out := ⟨rfl, fun m hm => Nat.zero_le _⟩
  status := by
    have : (begun v s).phase ≠ .idle := by simp only [begun_phase]; split <;> simp
    simp only [StatusOk, this, if_false]; rfl
  running := by
    intro _ _
    refine ⟨⟨by simp [firstCode], by simp [firstCode, nbInit], by simp [firstCode, nbInit]; decide, ?_⟩, ?_⟩
    · intro m hm
      simpa [nbInit] using hp.1 m hm
    · have hsb : 0 < (begun v s).adapter.sb := sb_pos _
      cases hv : cmdDir v
      · simp only [begun_phase, hv, Bool.false_eq_true, if_false]
        refine ⟨by simpa using hv, ⟨hsb, by simp⟩, ?_, ?_, by simp⟩
        · simp [DictCOk]
        · simp [PhraseOk]
      · simp only [begun_phase, hv, if_true]
        exact ⟨by simpa using hv, rfl, rfl, rfl, rfl⟩
  debug := by simp [statusBusy, statusSuccess]

/-- A command leaves a sound block. -/
theorem inv_start (v : BitVec 3) {s : State} (h : Inv s) : ∃ t, start v s = .next t ∧ Inv t := by
  rcases start_cases v s with ⟨-, e⟩ | ⟨-, -, e⟩ | ⟨-, -, e⟩
  · exact ⟨_, e, h⟩
  · exact ⟨_, e, inv_fail _ (s := begun v s) h.params h.inWf⟩
  · exact ⟨_, e, inv_begun v h.params h.inWf⟩

/-- A power-on reset leaves a sound block. -/
theorem inv_reset_act {s : State} (h : Inv s) : Inv (powerOnReset s) where
  params := h.params
  inWf := List.Pairwise.nil
  out := ⟨rfl, fun m hm => Nat.zero_le _⟩
  status := by simp [StatusOk]
  running := by simp
  debug := by simp [statusIdle, statusSuccess]

/-- The end of a spoiled operation leaves a sound block. -/
theorem inv_spoiledEnd {s : State} (h : Inv s) (hs : s.spoiled = true) : Inv (spoiledEnd s) := by
  unfold spoiledEnd
  split
  · constructor
    · exact h.params
    · exact h.inWf
    · refine ⟨?_, ?_⟩
      · simp only [deadWorking_outBuf, deadWorking_outLen]
        rw [List.map_fst_zip]
        simp
      · intro m hm
        have : s.params.outMax = some m := by simpa using hm
        simp [this]
    · simp [StatusOk]
    · simp
    · simp [hs]
  · split <;> exact inv_fail _ h.params h.inWf

/-- A host write of `IN` leaves a sound block. -/
theorem inv_hostWriteIn (i x) {s : State} (h : Inv s) : Inv (hostWriteIn i x s) := by
  constructor
  · exact h.params
  · exact Table.write_wf _ _ _ h.inWf
  · exact h.out
  · exact h.status
  · intro hp hs
    simp only [hostWriteIn_spoiled, Bool.or_eq_false_iff] at hs
    have := h.status
    simp only [hostWriteIn_phase] at hp
    simp [StatusOk, hp] at this
    simp [State.busy, this, statusBusy] at hs
  · intro h1 h2
    simp only [hostWriteIn_spoiled, Bool.or_eq_false_iff] at h2
    exact h.debug h1 h2.1

/-- A host write of `IN_LEN` leaves a sound block. -/
theorem inv_hostWriteInLen (i) {s : State} (h : Inv s) : Inv (hostWriteInLen i s) := by
  constructor
  · exact h.params
  · exact h.inWf
  · exact h.out
  · exact h.status
  · intro hp hs
    simp only [hostWriteInLen_spoiled, Bool.or_eq_false_iff] at hs
    have := h.status
    simp only [hostWriteInLen_phase] at hp
    simp [StatusOk, hp] at this
    simp [State.busy, this, statusBusy] at hs
  · intro h1 h2
    simp only [hostWriteInLen_spoiled, Bool.or_eq_false_iff] at h2
    exact h.debug h1 h2.1

/-- A new draw of free values changes nothing of the invariant. -/
theorem inv_tick {s : State} (h : Inv s) : Inv (tick s) := ⟨h.params, h.inWf, h.out, h.status, h.running, h.debug⟩

/-- Nor does the list of what the host still does. -/
theorem inv_host {s : State} (h : Inv s) (r) : Inv {s with host := r} := ⟨h.params, h.inWf, h.out, h.status, h.running, h.debug⟩

/-- What `SCAN` can do to a sound compression. -/
theorem scan_cases (c : Elem) {s : State} (hc : CodesOk s) (ho : OutOk s) (hco : CompressOk s) :
    (∃ t, scan c s = .ok t ∧ CodesOk t ∧ OutOk t ∧ AccOk t ∧ DictCOk t ∧ t.w ≠ [] ∧
       ((DictC.code? t.dictC t.w).isSome ∨ ∃ u, t.w = [u]) ∧
       ∃ m l a k d w n nb, t = {s with outBuf := m, outLen := l, acc := a, accCnt := k, dictC := d, w := w, n := n, nb := nb}) ∨
    scan c s = .error (.cause .capacity) := by
  obtain ⟨hdir, ha, hd, ⟨hw0, hwd, hw⟩, hip⟩ := hco
  by_cases h1 : s.w = []
  · refine .inl ⟨{s with w := [c]}, by simp [scan, h1], hc, ho, ha, hd, by simp, .inr ⟨c, rfl⟩, ?_⟩
    exact ⟨s.outBuf, s.outLen, s.acc, s.accCnt, s.dictC, [c], s.n, s.nb, rfl⟩
  · by_cases h2 : (DictC.code? s.dictC (s.w ++ [c])).isSome
    · refine .inl ⟨{s with w := s.w ++ [c]}, by simp [scan, h1, h2], hc, ho, ha, hd, by simp, .inl h2, ?_⟩
      exact ⟨s.outBuf, s.outLen, s.acc, s.accCnt, s.dictC, _, s.n, s.nb, rfl⟩
    · have hx : scan c s = ((emitPhrase s.w s).bind (assign (s.w ++ [c]))).map fun t => { t with w := [c] } := by
        simp [scan, h1, h2]
      rw [hx]
      have h2' : DictC.code? s.dictC (s.w ++ [c]) = none := by simpa using h2
      rcases emitPhrase_cases hc ho ha (hw h1) with ⟨k, a, hk, he, hws⟩ | ⟨u, a, hu, hk, hws, hex, he⟩ | he
      · rw [he]; simp only [Except.bind]
        obtain ⟨m, l, acc, cnt, rfl, ho', ha'⟩ := hws
        rcases assign_cases (s.w ++ [c]) (s := {s with outBuf := m, outLen := l, acc := acc, accCnt := cnt}) hc with ⟨hx, hh⟩ | ⟨-, hh⟩
        · rw [hh]; simp only [Except.map]
          refine .inl ⟨_, rfl, CodesOk_succ (s := {s with outBuf := m, outLen := l, acc := acc, accCnt := cnt}) hc hx, ho', ha', ?_, by simp, .inr ⟨c, rfl⟩, ?_⟩
          · refine DictCOk_add (s := s) (nb' := bitlen (s.n+1)) hd (by simp) h2' ?_ (Nat.lt_succ_self _) hc.1
            intro q c' hq hqc
            have := List.append_inj' hqc rfl
            rw [this.1, hk]; rfl
          · exact ⟨m, l, acc, cnt, _, _, _, _, rfl⟩
        · rw [hh]; exact .inr rfl
      · rw [he]; simp only [Except.bind]
        obtain ⟨m, l, acc, cnt, rfl, ho', ha'⟩ := hws
        have hc1 := CodesOk_succ (s := {s with dictC := DictC.add s.dictC s.w s.n, outBuf := m, outLen := l, acc := acc, accCnt := cnt}) hc hex
        have hd1 : DictCOk {s with dictC := DictC.add s.dictC s.w s.n, n := s.n + 1, nb := bitlen (s.n+1)} := by
          refine DictCOk_add (s := s) (nb' := bitlen (s.n+1)) hd h1 hk ?_ (Nat.lt_succ_self _) hc.1
          intro q c' hq hqc
          rw [hu] at hqc
          have : q.length + 1 = 1 := by simpa using congrArg List.length hqc
          exact absurd (List.length_eq_zero_iff.1 (by omega)) hq
        rcases assign_cases (s.w ++ [c]) hc1 with ⟨hx, hh⟩ | ⟨-, hh⟩
        · simp only at hh
          rw [hh]; simp only [Except.map]
          refine .inl ⟨_, rfl, CodesOk_succ hc1 hx, ho', ha', ?_, by simp, .inr ⟨c, rfl⟩, ?_⟩
          · refine DictCOk_add (nb' := bitlen (s.n+1+1)) hd1 (p := s.w ++ [c]) (by simp) ?_ ?_ (Nat.lt_succ_self _) hc1.1
            · rw [DictC.code?_add, if_neg (by simp)]; exact h2'
            · intro q c' hq hqc
              have := List.append_inj' hqc rfl
              rw [this.1, DictC.code?_add, if_pos rfl]; rfl
          · exact ⟨m, l, acc, cnt, _, _, _, _, rfl⟩
        · simp only at hh; rw [hh]; exact .inr rfl
      · rw [he]; exact .inr rfl

/-- `settle` keeps the invariant when a completed step does. -/
theorem settle_inv {s : State} {r : Except Stop State} (hp : s.params.wf) (hi : Memory.wf s.inBuf)
    (h : (∃ t, r = .ok t ∧ Inv t) ∨ ∃ c, r = .error (.cause c)) : ∃ t, settle s r = .next t ∧ Inv t := by
  rcases h with ⟨t, rfl, h⟩ | ⟨c, rfl⟩
  · exact ⟨t, rfl, h⟩
  · exact ⟨_, rfl, inv_fail c hp hi⟩

/-- A running operation reads as busy. -/
theorem busy_of {s : State} (h : StatusOk s) (hp : s.phase ≠ .idle) : s.status = statusBusy := by
  simpa [StatusOk, hp] using h

/-- The `C_SCAN` step. -/
theorem scanStep_inv {s : State} (h : Inv s) (hph : s.phase = .cScan) (hsp : s.spoiled = false) :
    (∃ t, scanStep s = .ok t ∧ Inv t) ∨ ∃ c, scanStep s = .error (.cause c) := by
  have hr := h.running (by simp [hph]) hsp
  obtain ⟨hc, hco⟩ := hr
  rw [hph] at hco
  have hst := busy_of h.status (by simp [hph])
  unfold scanStep
  split
  · rename_i hlt
    rcases scan_cases (s.inAt s.inPtr) hc h.out hco with ⟨t, ht, hc', ho', ha', hd', hw', hw'', m, l, a, k, d, w, n, nb, rfl⟩ | he
    · rw [ht]
      refine .inl ⟨_, rfl, h.params, h.inWf, ho', ?_, ?_, ?_⟩
      · simp [StatusOk, hph, hst]
      · intro _ _
        refine ⟨hc', ?_⟩
        simp only [hph]
        refine ⟨hco.1, ha', hd', ⟨?_, ?_, ?_⟩, hlt⟩
        · simpa using hw'
        · intro h; exact absurd h hw'
        · intro _; exact hw''
      · intro h1; simp [hst, statusBusy, statusSuccess] at h1
    · rw [he]; exact .inr ⟨_, rfl⟩
  · rename_i hge
    refine .inl ⟨_, rfl, h.params, h.inWf, h.out, ?_, ?_, h.debug⟩
    · simp [StatusOk, hst]
    · intro _ _
      exact ⟨hc, hco, by have := hco.2.2.2.2; show s.inPtr = s.inLen; omega⟩

/-- What the final emission can do. -/
theorem endPhrase_cases {s : State} (hc : CodesOk s) (ho : OutOk s) (hco : CompressOk s) :
    (∃ t, endPhrase s = .ok t ∧ CodesOk t ∧ OutOk t ∧ AccOk t ∧ t.params = s.params ∧ t.inBuf = s.inBuf ∧ t.spoiled = s.spoiled) ∨ endPhrase s = .error (.cause .capacity) := by
  obtain ⟨hdir, ha, hd, ⟨hw0, hwd, hw⟩, hip⟩ := hco
  unfold endPhrase
  split
  · exact .inl ⟨s, rfl, hc, ho, ha, rfl, rfl, rfl⟩
  · rename_i h1
    rcases emitPhrase_cases hc ho ha (hw h1) with ⟨k, a, hk, he, hws⟩ | ⟨u, a, hu, hk, hws, hex, he⟩ | he
    · rw [he]; simp only [Except.bind]
      obtain ⟨m, l, acc, cnt, rfl, ho', ha'⟩ := hws
      rw [CodesOk_advance (s := {s with outBuf := m, outLen := l, acc := acc, accCnt := cnt}) hc]
      split
      · exact .inr rfl
      · rename_i hx
        exact .inl ⟨_, rfl, CodesOk_succ (s := {s with outBuf := m, outLen := l, acc := acc, accCnt := cnt}) hc (by simpa using hx), ho', ha', rfl, rfl, rfl⟩
    · rw [he]; simp only [Except.bind]
      obtain ⟨m, l, acc, cnt, rfl, ho', ha'⟩ := hws
      have hc1 := CodesOk_succ (s := {s with dictC := DictC.add s.dictC s.w s.n, outBuf := m, outLen := l, acc := acc, accCnt := cnt}) hc hex
      have := CodesOk_advance hc1
      simp only at this
      rw [this]
      split
      · exact .inr rfl
      · rename_i hx
        exact .inl ⟨_, rfl, CodesOk_succ hc1 (by simpa using hx), ho', ha', rfl, rfl, rfl⟩
    · rw [he]; exact .inr rfl

/-- The `C_END` step. -/
theorem endStep_inv {s : State} (h : Inv s) (hph : s.phase = .cEnd) (hsp : s.spoiled = false) :
    (∃ t, endStep s = .ok t ∧ Inv t) ∨ ∃ c, endStep s = .error (.cause c) := by
  obtain ⟨hc, hco⟩ := h.running (by simp [hph]) hsp
  rw [hph] at hco
  unfold endStep
  rcases endPhrase_cases hc h.out hco.1 with ⟨t, ht, hc', ho', ha', hp', hi', hs'⟩ | he
  · rw [ht]; simp only [Except.bind]
    rcases write_cases eosCode t.nb ho' ha' with ⟨a, ha, hw⟩ | he
    · rw [ha]
      rcases finish_cases hw.out hw.acc with ⟨b, hb, hw2, -⟩ | he
      · simp only; rw [hb]
        have hw3 := hw.trans hw2
        have ho := hw3.out
        obtain ⟨m, l, acc, cnt, rfl, -, -⟩ := hw3
        exact .inl ⟨_, rfl, inv_complete (by rw [hp']; exact h.params) (by rw [hi']; exact h.inWf) ho hc'⟩
      · simp only; rw [he]; exact .inr ⟨_, rfl⟩
    · rw [he]; exact .inr ⟨_, rfl⟩
  · rw [he]; exact .inr ⟨_, rfl⟩

/-- The `D_CHECK` step. -/
theorem checkStep_inv {s : State} (h : Inv s) (hph : s.phase = .dCheck) (hsp : s.spoiled = false) :
    (∃ t, checkStep s = .ok t ∧ Inv t) ∨ ∃ c, checkStep s = .error (.cause c) := by
  obtain ⟨hc, hco⟩ := h.running (by simp [hph]) hsp
  rw [hph] at hco
  have hst := busy_of h.status (by simp [hph])
  unfold checkStep unpack
  split
  · exact .inr ⟨_, rfl⟩
  · refine .inl ⟨_, rfl, h.params, h.inWf, h.out, ?_, ?_, h.debug⟩
    · simp [StatusOk, hst]
    · intro _ _
      refine ⟨hc, hco.1, ?_, ?_, Nat.zero_le _, .inl hco.2⟩
      · have : s.dictD = [] := hco.2.2.2.1
        show Table.wf s.dictD
        rw [this]; exact List.Pairwise.nil
      · have : s.dictD = [] := hco.2.2.2.1
        show ∀ e ∈ s.dictD, e.2 ≠ []
        simp [this]

/-- Elements appended within the bound. -/
theorem writeFrom_out {s : State} (h : OutOk s) (e : Phrase) (he : exceeds s.params.outMax (s.outLen + e.length) = false) :
   OutOk { s with outBuf := writeFrom s.outBuf s.outLen e, outLen := s.outLen + e.length } := by
  have := appendAll_eq e s h.2
  rw [he] at this
  exact (appendAll_out h this).2

/-- `TAIL` in a sound decompression. -/
theorem tail_inv {k : Nat} {x : Elem} {e : Phrase} {s : State} (hpar : s.params.wf) (hin : Memory.wf s.inBuf) (hstat : StatusOk s) (hph : s.phase = .dDecode)
    (hsp : s.spoiled = false) (hc : CodesOk s) (hdir : cmdDir s.cmd = true) (hwf : Table.wf s.dictD)
    (hne : ∀ e ∈ s.dictD, e.2 ≠ []) (hbp : s.bp ≤ s.bits.length) (ho : OutOk s)
    (hpp : s.pend = none ∨ ∃ p, s.prev.bind (Table.read? s.dictD) = some p)
    (hk2 : firstCode ≤ k) (hkn : k < s.n)
    (hdom : ∀ j, (Table.read? (filled s x) j).isSome ↔ firstCode ≤ j ∧ j < s.n) :
    (∃ t, tail k (x :: e) s = .ok t ∧ Inv t) ∨ ∃ c, tail k (x :: e) s = .error (.cause c) := by
  rw [tail_eq hc ho hpp]
  split
  · exact .inr ⟨_, rfl⟩
  · rename_i hx
    simp only [Bool.or_eq_true, not_or, Bool.not_eq_true] at hx
    have hst := busy_of hstat (by simp [hph])
    refine .inl ⟨_, rfl, hpar, hin, ?_, ?_, ?_, ?_⟩
    · exact writeFrom_out ho (x :: e) hx.1
    · simpa [StatusOk, hph] using hst
    · intro _ _
      refine ⟨CodesOk_succ hc hx.2, ?_⟩
      simp only [hph]
      refine ⟨hdir, ?_, ?_, hbp, .inr ⟨k, s.n, rfl, rfl, hkn, rfl, hk2, hdom⟩⟩
      · show Table.wf (filled s x)
        unfold filled; split
        · exact Table.write_wf _ _ _ hwf
        · exact hwf
      · show ∀ e ∈ filled s x, e.2 ≠ []
        unfold filled; split
        · intro e he
          rcases Table.mem_write he with rfl | he
          · simp
          · exact hne e he
        · exact hne
    · intro h1; simp [hst, statusBusy, statusSuccess] at h1

/-- The `D_DECODE` step. -/
theorem decodeStep_inv {s : State} (h : Inv s) (hph : s.phase = .dDecode) (hsp : s.spoiled = false) :
    ∃ t, decodeStep s = .next t ∧ Inv t := by
  obtain ⟨hc, hd⟩ := h.running (by simp [hph]) hsp
  rw [hph] at hd
  obtain ⟨hdir, hwf, hne, hbp, hcase⟩ := hd
  have hst := busy_of h.status (by simp [hph])
  unfold decodeStep decodeCode
  cases htk : takeBits s.codeCtx.nb s.restBits with
  | none => exact ⟨_, rfl, inv_fail _ h.params h.inWf⟩
  | some kr =>
    obtain ⟨k, rest⟩ := kr
    obtain ⟨hlen, hkv, hrest, hklt⟩ := takeBits_eq_some htk
    have hbp1 : s.bp + s.nb ≤ s.bits.length := by
      simp only [State.codeCtx, State.restBits, List.length_drop] at hlen; omega
    simp only
    by_cases hk1 : k = eosCode
    · rw [if_pos hk1]
      exact ⟨_, rfl, inv_complete (s := s.consume s.nb) h.params h.inWf h.out hc⟩
    · rw [if_neg hk1]
      by_cases hk0 : k = rawCode
      · rw [if_pos hk0]
        cases htk2 : takeBits rawBits rest with
        | none => exact ⟨_, rfl, inv_fail _ h.params h.inWf⟩
        | some ur =>
          obtain ⟨u, rest'⟩ := ur
          obtain ⟨hlen2, -, -, -⟩ := takeBits_eq_some htk2
          have hbp2 : s.bp + (s.nb + rawBits) ≤ s.bits.length := by
            rw [hrest] at hlen2
            simp only [State.codeCtx, State.restBits, List.length_drop] at hlen2; omega
          simp only [exec, execRaw]
          apply settle_inv h.params h.inWf
          rcases advance_cases (s := { s.consume (s.nb + rawBits) with dictD := Table.write s.dictD s.n [BitVec.ofNat 16 u] }) hc with ⟨hx', hadv, hc'⟩ | ⟨-, hadv⟩
          swap
          · rw [hadv]; exact .inr ⟨_, rfl⟩
          · rw [hadv]
            simp only [Except.bind]
            have hno : s.prev.bind (Table.read? s.dictD) = s.prev.bind (Table.read? (Table.write s.dictD s.n [BitVec.ofNat 16 u])) := by
              rcases hcase with ⟨hp, -, -, -⟩ | ⟨p, q, hp, hq, hpq, hqn, -, -⟩
              · simp [hp]
              · simp only [hp, Option.bind_some]
                rw [Table.read?_write_other]; omega
            refine tail_inv (s := { s.consume (s.nb + rawBits) with dictD := Table.write s.dictD s.n [BitVec.ofNat 16 u], n := s.n + 1, nb := bitlen (s.n + 1) }) h.params h.inWf h.status hph hsp ?_ hdir ?_ ?_ hbp2 h.out ?_ hc.1 (Nat.lt_succ_self _) ?_
            · exact hc'
            · exact Table.write_wf _ _ _ hwf
            · intro e he
              rcases Table.mem_write he with rfl | he
              · simp
              · exact hne e he
            · rcases hcase with ⟨-, hq, -, -⟩ | ⟨p, q, hp, hq, hpq, hqn, hp2, hdom⟩
              · exact .inl hq
              · right
                have := (hdom p).2 ⟨hp2, hpq⟩
                simp only [State.consume_prev]
                rw [← hno, hp]
                exact Option.isSome_iff_exists.1 this
            · intro j
              simp only [filled, State.consume_pend, State.consume_prev]
              rcases hcase with ⟨hp, hq, hdd, hn⟩ | ⟨p, q, hp, hq, hpq, hqn, hp2, hdom⟩
              · simp only [hq, hdd, hn, Table.read?_write]
                simp only [firstCode, Table.read?_nil]
                by_cases hj : j = 2 <;> simp [hj] <;> omega
              · obtain ⟨w, hw⟩ := Option.isSome_iff_exists.1 ((hdom p).2 ⟨hp2, hpq⟩)
                have : s.prev.bind (Table.read? (Table.write s.dictD s.n [BitVec.ofNat 16 u])) = some w := by
                  rw [← hno, hp]; exact hw
                simp only [hq]
                rw [this]
                simp only [Table.read?_write]
                have hj := hdom j
                split
                · simp; omega
                · split
                  · have := hc.1; simp [firstCode]; omega
                  · rw [hj]; simp only [firstCode]; omega
      · rw [if_neg hk0]
        by_cases hp0 : s.codeCtx.prev = none
        · rw [if_pos hp0]
          exact ⟨_, rfl, inv_fail _ h.params h.inWf⟩
        · rw [if_neg hp0]
          rcases hcase with ⟨hp, -, -, -⟩ | ⟨p, q, hp, hq, hpq, hqn, hp2, hdom⟩
          · exact absurd hp hp0
          have hk2 : firstCode ≤ k := by simp only [firstCode, eosCode, rawCode] at *; omega
          obtain ⟨w, hw⟩ := Option.isSome_iff_exists.1 ((hdom p).2 ⟨hp2, hpq⟩)
          have hbind : s.prev.bind (Table.read? s.dictD) = some w := by rw [hp]; exact hw
          have hfill : ∀ x j, (Table.read? (filled (s.consume s.nb) x) j).isSome ↔ firstCode ≤ j ∧ j < s.n := by
            intro x j
            simp only [filled, State.consume_pend, State.consume_prev, State.consume_dictD, hq]
            rw [hbind]
            simp only [Table.read?_write]
            split
            · simp; have := hc.1; simp only [firstCode] at *; omega
            · rw [hdom]; omega
          by_cases hkd : s.codeCtx.known.contains k = true
          · rw [if_pos hkd]
            have hks : (Table.read? s.dictD k).isSome := by
              rw [Table.read?_isSome]; simpa [State.codeCtx] using hkd
            obtain ⟨e, he⟩ := Option.isSome_iff_exists.1 hks
            have hen : e ≠ [] := hne (k, e) (Table.mem_of_read? he)
            simp only [exec, execRef, he]
            obtain ⟨x, e, rfl⟩ := List.exists_cons_of_ne_nil hen
            apply settle_inv h.params h.inWf
            exact tail_inv (s := s.consume s.nb) h.params h.inWf h.status hph hsp hc hdir hwf hne hbp1 h.out (.inr ⟨w, hbind⟩) hk2 (by have := (hdom k).1 hks; show k < s.n; omega) (hfill x)
          · rw [if_neg hkd]
            by_cases hkp : s.codeCtx.pend = some k
            · rw [if_pos hkp]
              have : q = k := by
                have : s.pend = some k := hkp
                rw [hq] at this; simpa using this
              subst this
              have hwn : w ≠ [] := hne (p, w) (Table.mem_of_read? hw)
              obtain ⟨x, w, rfl⟩ := List.exists_cons_of_ne_nil hwn
              simp only [exec, execRefAhead, hbind]
              apply settle_inv h.params h.inWf
              exact tail_inv (s := s.consume s.nb) h.params h.inWf h.status hph hsp hc hdir hwf hne hbp1 h.out (.inr ⟨_, hbind⟩) hk2 (by show q < s.n; omega) (hfill x)
            · rw [if_neg hkp]
              exact ⟨_, rfl, inv_fail _ h.params h.inWf⟩

end Sys2Proof.Machine
end

