-- ==== Sys2Proof/Laws/Lockstep.lean ====
section
/-! SUPPORT. Compression and decompression as functions run in lockstep (42_decompress.md R170). -/

namespace Sys2Proof.Machine

open Whole (Enc Dec)

/-- Emission only adds codes and bits. -/
theorem enc_emit_mono (e : Whole.Enc) : e.n ≤ e.emit.n ∧ e.stream.length ≤ e.emit.stream.length := by
  unfold Whole.Enc.emit
  split
  · simp
  · simp only [List.length_append]; omega

/-- So does a scan step. -/
theorem enc_scan_mono (e : Whole.Enc) (c : Elem) : e.n ≤ (e.scan c).n ∧ e.stream.length ≤ (e.scan c).stream.length := by
  unfold Whole.Enc.scan
  split
  · simp
  · split
    · simp
    · have := enc_emit_mono e
      simp only; omega

/-- So does the end. -/
theorem enc_close_mono (e : Whole.Enc) : e.n ≤ e.close.n ∧ e.stream.length ≤ e.close.stream.length := by
  unfold Whole.Enc.close
  have := enc_emit_mono e
  simp only [List.length_append]
  split <;> simp <;> omega

/-- So do many scan steps. -/
theorem enc_fold_mono (xs : List Elem) (e : Whole.Enc) : e.n ≤ (xs.foldl Whole.Enc.scan e).n ∧ e.stream.length ≤ (xs.foldl Whole.Enc.scan e).stream.length := by
  induction xs generalizing e with
  | nil => simp
  | cons x xs ih =>
    have h1 := enc_scan_mono e x
    have h2 := ih (e.scan x)
    simp only [List.foldl_cons]; omega

/-- `TAIL` as one case distinction. -/
theorem dec_tail_eq (p : Params) (k : Nat) (e : Phrase) (d : Whole.Dec) :
    Whole.Dec.tail p k e d = if exceeds p.outMax (d.out.length + e.length) || exceeds p.maxCodeBits (bitlen (d.n + 1)) then none
      else some { dict := (match d.pend with
          | none => d.dict
          | some q => Table.write d.dict q (((d.prev.bind (Table.read? d.dict)).getD []) ++ e.take 1)), n := d.n + 1, prev := some k, pend := some d.n, out := d.out ++ e } := by
  unfold Whole.Dec.tail Whole.Dec.advance
  simp only [List.length_append]
  by_cases h1 : exceeds p.outMax (d.out.length + e.length) = true
  · simp [h1]
  · by_cases h2 : exceeds p.maxCodeBits (bitlen (d.n + 1)) = true
    · simp [h1, h2]
    · cases d.pend <;> simp [h1, h2]

/-- A compressor between two units and the decompressor that has read its stream so far (R170). -/
structure Lock (e : Enc) (d : Dec) : Prop where
  n : d.n = e.n
  n2 : 2 ≤ e.n
  lt : ∀ word j, DictC.code? e.dict word = some j → 2 ≤ j ∧ j < e.n ∧ word ≠ []
  w : e.w = [] ∨ (DictC.code? e.dict e.w).isSome ∨ ∃ u, e.w = [u]
  tab : (e.dict = [] ∧ d.prev = none ∧ d.pend = none ∧ d.dict = []) ∨
    ∃ p q lw c tlw, d.prev = some p ∧ d.pend = some q ∧ q + 1 = e.n ∧ Table.read? d.dict p = some lw ∧ lw ≠ [] ∧ e.w = c :: tlw ∧
      (∀ j, e.n ≤ j + 1 → Table.read? d.dict j = none) ∧
      ∀ word k, DictC.code? e.dict word = some k ↔ (k = q ∧ word = lw ++ [c]) ∨ (k ≠ q ∧ Table.read? d.dict k = some word)

/-- The bits an emission adds. -/
def emitBits (e : Enc) : List Bool :=
  match DictC.code? e.dict e.w with
  | some k => msb (bitlen e.n) k
  | none => msb (bitlen e.n) rawCode ++ (e.w.map fun u => msb rawBits u.toNat).flatten

/-- They are what it adds. -/
theorem emit_stream (e : Enc) : e.emit.stream = e.stream ++ emitBits e := by
  unfold Enc.emit emitBits; cases DictC.code? e.dict e.w <;> simp

/-- The decompressor reads an emission back. -/
theorem emit_dec {e : Enc} {d : Dec} (h : Lock e d) (hw : e.w ≠ []) (p : Params)
    (hb : exceeds p.maxCodeBits (bitlen (e.emit.n + 1)) = false) (ho : exceeds p.outMax (d.out.length + e.w.length) = false) :
    ∃ d' k, (∀ f tl, Whole.decodeStream p (f+1) d (emitBits e ++ tl) = Whole.decodeStream p f d' tl) ∧
      d'.out = d.out ++ e.w ∧ d'.n = e.emit.n + 1 ∧ d'.pend = some e.emit.n ∧ d'.prev = some k ∧ DictC.code? e.emit.dict e.w = some k ∧
      (∀ word j, DictC.code? e.emit.dict word = some j ↔ Table.read? d'.dict j = some word) ∧
      (∀ word j, DictC.code? e.emit.dict word = some j → 2 ≤ j ∧ j < e.emit.n ∧ word ≠ []) := by
  have hnn := h.n
  have h2 := h.n2
  cases hk : DictC.code? e.dict e.w with
  | some k =>
    have hem : e.emit = { e with stream := e.stream ++ msb (bitlen e.n) k } := by simp [Enc.emit, hk]
    have heb : emitBits e = msb (bitlen e.n) k := by simp [emitBits, hk]
    rw [hem] at hb
    simp only at hb
    obtain ⟨hk2, hkn, -⟩ := h.lt _ _ hk
    rcases h.tab with ⟨ht, -⟩ | ⟨p', q, lw, c, tlw, hp, hq, hqn, hlw, hlne, hwc, hnone, hcor⟩
    · rw [ht] at hk; cases hk
    · have htk : ∀ tl, takeBits (bitlen d.n) (emitBits e ++ tl) = some (k, tl) := by
        intro tl; rw [heb, hnn]; exact takeBits_msb _ (lt_trans hkn (lt_two_pow_bitlen _))
      have hword : d.word? k = some e.w := by
        unfold Dec.word?
        rcases (hcor _ _).1 hk with ⟨rfl, hw'⟩ | ⟨hkq, hr⟩
        · rw [hnone k (by omega)]
          simp only [hq, if_true, hp, Option.bind_some, hlw, Option.map_some]
          congr 1
          obtain ⟨a, lw', rfl⟩ := List.exists_cons_of_ne_nil hlne
          rw [hw'] at hwc
          simp only [List.cons_append, List.cons.injEq] at hwc
          rw [hw', hwc.1]; rfl
        · rw [hr]
      have htail : Dec.tail p k e.w d = some { dict := Table.write d.dict q (lw ++ [c]), n := d.n + 1, prev := some k, pend := some d.n, out := d.out ++ e.w } := by
        rw [dec_tail_eq, ho, hnn, hb]
        simp only [Bool.or_self, Bool.false_eq_true, if_false, hq, hp, Option.bind_some, hlw, Option.getD_some, hwc]
        simp
      have hqk : q < e.n := by omega
      refine ⟨{ dict := Table.write d.dict q (lw ++ [c]), n := d.n + 1, prev := some k, pend := some d.n, out := d.out ++ e.w }, k, ?_, rfl, ?_, ?_, rfl, ?_, ?_, ?_⟩
      rotate_left
      · show d.n + 1 = _
        rw [hem]; simp [hnn]
      · show some d.n = _
        rw [hem]; simp [hnn]
      · rw [hem]; exact hk
      · rw [hem]
        intro word j
        show DictC.code? e.dict word = some j ↔ Table.read? (Table.write d.dict q (lw ++ [c])) j = some word
        rw [hcor, Table.read?_write]
        by_cases hj : j = q
        · simp [hj, eq_comm]
        · simp [hj]
      · rw [hem]; exact h.lt
      · intro f tl
        rw [Whole.decodeStream.eq_2, htk]
        simp only
        rw [if_neg (by intro h1; rw [h1] at hk2; exact absurd hk2 (by decide)), if_neg (by intro h1; rw [h1] at hk2; exact absurd hk2 (by decide)), if_neg (by rw [hp]; simp), hword]
        simp only [htail]
  | none =>
    obtain ⟨u, hu⟩ : ∃ u, e.w = [u] := by
      rcases h.w with h | h | h
      · exact absurd h hw
      · rw [hk] at h; cases h
      · exact h
    have hem : e.emit.n = e.n + 1 ∧ e.emit.dict = DictC.add e.dict e.w e.n := by simp [Enc.emit, hk]
    have heb : emitBits e = msb (bitlen e.n) rawCode ++ msb rawBits u.toNat := by rw [emitBits, hk, hu]; simp
    rw [hem.1] at hb
    have htk : ∀ tl, takeBits (bitlen d.n) (emitBits e ++ tl) = some (rawCode, msb rawBits u.toNat ++ tl) := by
      intro tl; rw [heb, hnn, List.append_assoc]; exact takeBits_msb _ (Nat.two_pow_pos _)
    have hdec : ∀ d', (Dec.advance p { d with dict := Table.write d.dict d.n [u] }).bind (Dec.tail p d.n [u]) = some d' →
        ∀ f tl, Whole.decodeStream p (f+1) d (emitBits e ++ tl) = Whole.decodeStream p f d' tl := by
      intro d' hd' f tl
      rw [Whole.decodeStream.eq_2, htk]
      have : takeBits rawBits (msb rawBits u.toNat ++ tl) = some (u.toNat, tl) := takeBits_msb _ u.isLt
      simp only [this]
      rw [if_neg (by simp [rawCode, eosCode]), if_pos (by simp)]
      have hu' : BitVec.ofNat 16 u.toNat = u := by simp
      rw [hu', hd']
    have hb1 : exceeds p.maxCodeBits (bitlen (d.n + 1)) = false := by
      rw [Bool.eq_false_iff]; intro hx
      have := exceeds_mono (bitlen_mono (show d.n + 1 ≤ e.n + 1 + 1 by omega)) hx
      rw [hb] at this; cases this
    have hout : exceeds p.outMax (d.out.length + 1) = false := by rw [hu] at ho; exact ho
    have hadd : ∀ word, DictC.code? e.emit.dict word = if word = e.w then some e.n else DictC.code? e.dict word := by
      intro word; rw [hem.2, DictC.code?_add]
    have hlt : ∀ word j, DictC.code? e.emit.dict word = some j → 2 ≤ j ∧ j < e.emit.n ∧ word ≠ [] := by
      intro word j hj
      rw [hadd] at hj
      rw [hem.1]
      split at hj
      · rename_i hww; cases hj; exact ⟨h2, by omega, by rw [hww]; exact hw⟩
      · have := h.lt _ _ hj; exact ⟨this.1, by omega, this.2.2⟩
    rcases h.tab with ⟨ht, hp, hq, hd⟩ | ⟨p', q, lw, c, tlw, hp, hq, hqn, hlw, hlne, hwc, hnone, hcor⟩
    · refine ⟨{ dict := Table.write d.dict d.n [u], n := d.n + 2, prev := some d.n, pend := some (d.n + 1), out := d.out ++ [u] }, d.n, hdec _ ?_, by rw [hu], by rw [hem.1, ← hnn], by rw [hem.1, ← hnn], rfl, by rw [hadd, if_pos rfl, hnn], ?_, hlt⟩
      · simp only [Dec.advance, hb1, Bool.false_eq_true, if_false, Option.bind_some]
        rw [dec_tail_eq]
        have : exceeds p.outMax (d.out.length + [u].length) = false := hout
        simp only [this, show d.n + 1 + 1 = e.n + 1 + 1 by omega, hb, hq]
        simp [hnn]
      · intro word j
        rw [hadd, hd, Table.read?_write, ht, hnn, hu]
        simp only [Table.read?_nil, DictC.code?_nil]
        constructor
        · intro hx
          split at hx
          · rename_i hww; cases hx; simp [hww]
          · cases hx
        · intro hx
          split at hx
          · rename_i hjj; cases hx; simp [hjj]
          · cases hx
    · have hu2 : u = c ∧ tlw = [] := by rw [hu] at hwc; simpa [eq_comm] using hwc
      have hread : Table.read? (Table.write d.dict d.n [u]) p' = some lw := by
        rw [Table.read?_write_other]; exact hlw
        intro hx
        rw [hx, hnone _ (by omega)] at hlw; cases hlw
      refine ⟨{ dict := Table.write (Table.write d.dict d.n [u]) q (lw ++ [u]), n := d.n + 2, prev := some d.n, pend := some (d.n + 1), out := d.out ++ [u] }, d.n, hdec _ ?_, by rw [hu], by rw [hem.1, ← hnn], by rw [hem.1, ← hnn], rfl, by rw [hadd, if_pos rfl, hnn], ?_, hlt⟩
      · simp only [Dec.advance, hb1, Bool.false_eq_true, if_false, Option.bind_some]
        rw [dec_tail_eq]
        have : exceeds p.outMax (d.out.length + [u].length) = false := hout
        simp only [this, show d.n + 1 + 1 = e.n + 1 + 1 by omega, hb, hq, hp, Option.bind_some, hread, Option.getD_some]
        simp [hnn]
      · intro word j
        rw [hadd, Table.read?_write, Table.read?_write, hu]
        by_cases hww : word = [u]
        · subst hww
          rw [if_pos rfl]
          rw [hu] at hk
          constructor
          · intro hx; cases hx
            rw [if_neg (by omega), if_pos hnn.symm]
          · intro hx
            by_cases hj1 : j = q
            · rw [if_pos hj1] at hx
              simp only [Option.some.injEq] at hx
              have := congrArg List.length hx
              simp at this; exact absurd this hlne
            · rw [if_neg hj1] at hx
              by_cases hj2 : j = d.n
              · rw [hj2, hnn]
              · rw [if_neg hj2] at hx
                have := (hcor [u] j).2 (.inr ⟨hj1, hx⟩)
                rw [hk] at this; cases this
        · rw [if_neg hww, hcor]
          by_cases hj1 : j = q
          · simp [hj1, hu2.1, eq_comm]
          · by_cases hj2 : j = d.n
            · have : Table.read? d.dict j = none := hnone _ (by omega)
              subst hj2
              simp only [hj1, false_and, false_or, not_false_eq_true, ne_eq, this, if_false, if_true, Option.some.injEq, reduceCtorEq, and_false]
              constructor
              · intro h; exact absurd h id
              · intro h; exact absurd h.symm hww
            · simp [hj1, hj2]

/-- An emission adds at most one code. -/
theorem emit_mono_n (e : Enc) : e.emit.n ≤ e.n + 1 ∧ e.n ≤ e.emit.n := by
  unfold Enc.emit; split <;> simp

/-- After a miss the two are in lockstep again. -/
theorem lock_scan_miss {e : Enc} {d' : Dec} {k : Nat} {c : Elem} (hw : e.w ≠ [])
    (hn2 : 2 ≤ e.emit.n)
    (hn : d'.n = e.emit.n + 1) (hpend : d'.pend = some e.emit.n) (hprev : d'.prev = some k) (hcode : DictC.code? e.emit.dict e.w = some k)
    (hcor : ∀ word j, DictC.code? e.emit.dict word = some j ↔ Table.read? d'.dict j = some word)
    (hlt : ∀ word j, DictC.code? e.emit.dict word = some j → 2 ≤ j ∧ j < e.emit.n ∧ word ≠ [])
    (hnew : DictC.code? e.emit.dict (e.w ++ [c]) = none) :
    Lock { e.emit with dict := DictC.add e.emit.dict (e.w ++ [c]) e.emit.n, n := e.emit.n + 1, w := [c] } d' where
  n := hn
  n2 := by show 2 ≤ e.emit.n + 1; omega
  lt := by
    intro word j hj
    simp only [DictC.code?_add] at hj
    split at hj
    · rename_i hx; cases hj; exact ⟨hn2, Nat.lt_succ_self _, by rw [hx]; simp⟩
    · have := hlt _ _ hj; exact ⟨this.1, by show j < e.emit.n + 1; omega, this.2.2⟩
  w := .inr (.inr ⟨c, rfl⟩)
  tab := by
    right
    refine ⟨k, e.emit.n, e.w, c, [], hprev, hpend, rfl, (hcor _ _).1 hcode, hw, rfl, ?_, ?_⟩
    · intro j hj
      simp only at hj
      cases hr : Table.read? d'.dict j with
      | none => rfl
      | some word =>
        have := hlt _ _ ((hcor _ _).2 hr)
        omega
    · intro word j
      simp only [DictC.code?_add]
      split
      · rename_i hx
        subst hx
        simp only [Option.some.injEq, and_true]
        constructor
        · intro h; exact .inl h.symm
        · rintro (h | ⟨h1, h2⟩)
          · exact h.symm
          · rw [← hcor, hnew] at h2; cases h2
      · rename_i hx
        rw [hcor]
        constructor
        · intro h
          refine .inr ⟨?_, h⟩
          have := hlt _ _ ((hcor _ _).2 h)
          omega
        · rintro (⟨-, h⟩ | ⟨-, h⟩)
          · exact absurd h hx
          · exact h

/-- A longer word stays new over an emission. -/
theorem emit_new {e : Enc} {c : Elem} (h : DictC.code? e.dict (e.w ++ [c]) = none) : DictC.code? e.emit.dict (e.w ++ [c]) = none := by
  unfold Enc.emit
  split
  · exact h
  · rw [DictC.code?_add, if_neg (by simp)]; exact h

/-- From lockstep on, the decompressor reads the rest of the stream back. -/
theorem lock_fold (ys : List Elem) {e : Enc} {d : Dec} (h : Lock e d) (p : Params)
    (hb : exceeds p.maxCodeBits (bitlen (ys.foldl Enc.scan e).close.n) = false)
    (ho : exceeds p.outMax (d.out ++ e.w ++ ys).length = false) :
    ∃ rest, (ys.foldl Enc.scan e).close.stream = e.stream ++ rest ∧
      ∀ f tl, rest.length ≤ f → Whole.decodeStream p f d (rest ++ tl) =
        .ok (d.out ++ e.w ++ ys) (ys.foldl Enc.scan e).close.n (bitlen (ys.foldl Enc.scan e).close.n) := by
  have hlow : ∀ a b, a ≤ b → exceeds p.maxCodeBits (bitlen b) = false → exceeds p.maxCodeBits (bitlen a) = false := by
    intro a b hab hx
    rw [Bool.eq_false_iff]; intro hy
    rw [exceeds_mono (bitlen_mono hab) hy] at hx; cases hx
  have holow : ∀ a b, a ≤ b → exceeds p.outMax b = false → exceeds p.outMax a = false := by
    intro a b hab hx
    rw [Bool.eq_false_iff]; intro hy
    rw [exceeds_mono hab hy] at hx; cases hx
  have heos : ∀ (d : Dec) n, d.n = n → 2 ≤ n → ∀ f tl, (msb (bitlen n) eosCode).length ≤ f → Whole.decodeStream p f d (msb (bitlen n) eosCode ++ tl) = .ok d.out n (bitlen n) := by
    intro d n hd h2 f tl hf
    have hbl := two_le_bitlen h2
    obtain ⟨f, rfl⟩ : ∃ g, f = g + 1 := ⟨f - 1, by rw [msb_length] at hf; omega⟩
    have : takeBits (bitlen d.n) (msb (bitlen n) eosCode ++ tl) = some (eosCode, tl) := by
      rw [hd]; exact takeBits_msb _ (Nat.one_lt_two_pow (by omega))
    rw [Whole.decodeStream.eq_2, this]
    simp [hd]
  have hebl : ∀ e : Enc, 2 ≤ e.n → 1 ≤ (emitBits e).length := by
    intro e h2
    have := two_le_bitlen h2
    unfold emitBits; split <;> simp <;> omega
  induction ys generalizing e d with
  | nil =>
    simp only [List.foldl_nil, List.append_nil] at *
    by_cases hw : e.w = []
    · have hcl : e.close = { e with stream := e.stream ++ msb (bitlen e.n) eosCode } := by simp [Enc.close, hw]
      refine ⟨msb (bitlen e.n) eosCode, by rw [hcl], ?_⟩
      intro f tl hf
      rw [hcl, heos d e.n h.n h.n2 f tl hf, hw, List.append_nil]
    · have hcl : e.close = { e.emit with n := e.emit.n + 1, stream := e.emit.stream ++ msb (bitlen (e.emit.n + 1)) eosCode } := by
        simp [Enc.close, hw]
      rw [hcl] at hb ⊢
      simp only at hb ⊢
      obtain ⟨d', k, hdec, hout, hn, -⟩ := emit_dec h hw p hb (by simpa using ho)
      refine ⟨emitBits e ++ msb (bitlen (e.emit.n + 1)) eosCode, by rw [emit_stream]; simp, ?_⟩
      intro f tl hf
      have := hebl e h.n2
      rw [List.length_append] at hf
      obtain ⟨f, rfl⟩ : ∃ g, f = g + 1 := ⟨f - 1, by omega⟩
      have hm := emit_mono_n e
      have h2 := h.n2
      rw [List.append_assoc, hdec, heos d' _ hn (by omega) f tl (by omega), hout]
  | cons c ys ih =>
    simp only [List.foldl_cons] at *
    by_cases hw : e.w = []
    · have hsc : e.scan c = { e with w := [c] } := by simp [Enc.scan, hw]
      have hl : Lock (e.scan c) d := by
        rw [hsc]
        refine ⟨h.n, h.n2, h.lt, .inr (.inr ⟨c, rfl⟩), ?_⟩
        rcases h.tab with ht | ⟨p', q, lw, c', tlw, -, -, -, -, -, hwc, -⟩
        · exact .inl ht
        · rw [hw] at hwc; cases hwc
      obtain ⟨rest, hr, hd⟩ := ih hl hb (by rw [hsc]; simpa [hw] using ho)
      refine ⟨rest, by rw [hr, hsc], ?_⟩
      intro f tl hf
      rw [hd f tl hf, hsc, hw]; simp
    · by_cases hs : (DictC.code? e.dict (e.w ++ [c])).isSome = true
      · have hsc : e.scan c = { e with w := e.w ++ [c] } := by simp [Enc.scan, hw, hs]
        have hl : Lock (e.scan c) d := by
          rw [hsc]
          refine ⟨h.n, h.n2, h.lt, .inr (.inl hs), ?_⟩
          rcases h.tab with ht | ⟨p', q, lw, c', tlw, h1, h2, h3, h4, h5, hwc, h6⟩
          · exact .inl ht
          · exact .inr ⟨p', q, lw, c', tlw ++ [c], h1, h2, h3, h4, h5, by rw [hwc]; rfl, h6⟩
        obtain ⟨rest, hr, hd⟩ := ih hl hb (by rw [hsc]; simpa using ho)
        refine ⟨rest, by rw [hr, hsc], ?_⟩
        intro f tl hf
        rw [hd f tl hf, hsc]; simp
      · have hnone : DictC.code? e.dict (e.w ++ [c]) = none := by simpa using hs
        have hsc : e.scan c = { e.emit with dict := DictC.add e.emit.dict (e.w ++ [c]) e.emit.n, n := e.emit.n + 1, w := [c] } := by
          simp [Enc.scan, hw, hnone]
        have hm := emit_mono_n e
        have hn2 := h.n2
        have hge : e.emit.n + 1 ≤ (List.foldl Enc.scan (e.scan c) ys).close.n := by
          have h1 := (enc_fold_mono ys (e.scan c)).1
          have h2 := (enc_close_mono (List.foldl Enc.scan (e.scan c) ys)).1
          have h3 : (e.scan c).n = e.emit.n + 1 := by rw [hsc]
          omega
        obtain ⟨d', k, hdec, hout, hn, hpend, hprev, hcode, hcor, hlt⟩ := emit_dec h hw p (hlow _ _ hge hb) (holow _ _ (by simp) ho)
        have hl : Lock (e.scan c) d' := by
          rw [hsc]
          exact lock_scan_miss hw (by omega) hn hpend hprev hcode hcor hlt (emit_new hnone)
        obtain ⟨rest, hr, hd⟩ := ih hl hb (by rw [hsc, hout]; simpa using ho)
        refine ⟨emitBits e ++ rest, ?_, ?_⟩
        · rw [hr, hsc]; simp only [emit_stream, List.append_assoc]
        · intro f tl hf
          have := hebl e h.n2
          rw [List.length_append] at hf
          obtain ⟨f, rfl⟩ : ∃ g, f = g + 1 := ⟨f - 1, by omega⟩
          rw [List.append_assoc, hdec, hd f tl (by omega), hout, hsc]; simp

/-- Both start in lockstep. -/
theorem lock_init : Lock Enc.init Dec.init :=
  ⟨rfl, le_rfl, by intro w j h; simp [Enc.init] at h, .inl rfl, .inl ⟨rfl, rfl, rfl, rfl⟩⟩

end Sys2Proof.Machine
end

