-- ==== Sys2Proof/Laws/PerInstr.lean ====
section
/-! SUPPORT. Statements for all instructions, one lemma per constructor. -/

namespace Sys2Proof.Laws.Length

/-- The encoding of the instruction has exactly the bits the opcode table gives it, at every code width (30_encoding.md R70, R73, R79). -/
def Statement (i : Instr) : Prop := ∀ nb : Nat, (encode nb i).length = i.width nb

theorem raw (u : Elem) : Statement (.raw u) := fun nb => by simp [encode, Instr.width]

theorem eos : Statement .eos := fun nb => by simp [encode, Instr.width]

theorem ref (k : Nat) : Statement (.ref k) := fun nb => by simp [encode, Instr.width]

theorem refAhead (k : Nat) : Statement (.refAhead k) := fun nb => by simp [encode, Instr.width]

theorem illegalCode (k : Nat) : Statement (.illegalCode k) := fun nb => by simp [encode, Instr.width]

theorem compressRaw16 : Statement .compressRaw16 := fun nb => by simp [encode, Instr.width]

theorem compressBase64 : Statement .compressBase64 := fun nb => by simp [encode, Instr.width]

theorem compressUri : Statement .compressUri := fun nb => by simp [encode, Instr.width]

theorem compressBytes : Statement .compressBytes := fun nb => by simp [encode, Instr.width]

theorem decompressRaw16 : Statement .decompressRaw16 := fun nb => by simp [encode, Instr.width]

theorem decompressBase64 : Statement .decompressBase64 := fun nb => by simp [encode, Instr.width]

theorem decompressUri : Statement .decompressUri := fun nb => by simp [encode, Instr.width]

theorem decompressBytes : Statement .decompressBytes := fun nb => by simp [encode, Instr.width]

end Sys2Proof.Laws.Length
end

