-- ==== Sys2Proof/Laws/Run.lean ====
section
/-! SUPPORT. Runs of several steps, step by step. -/

namespace Sys2Proof.Safety

open Sys2Proof.Machine

/-- A run of the host's interface, by its first step. -/
theorem core_run_succ (M : Host.Core) (k : Nat) (s : M.State) :
    M.run (k + 1) s = match M.step s with
      | .next t => M.run k t
      | .fault r => .fault r
      | .refused r => .refused r := rfl

/-- The run of the host's interface is this run. -/
theorem core_run (k : Nat) (s : State) : Host.Core.run core k s = run k s := by
  induction k generalizing s with
  | zero => rfl
  | succ k ih =>
    refine (core_run_succ core k s).trans ?_
    rw [run, show core.step s = step s from rfl]
    cases step s with
    | next t => exact ih t
    | fault r => rfl
    | refused r => rfl

theorem run_zero (s : State) : run 0 s = .next s := rfl

/-- A run whose first step goes on. -/
theorem run_next {s t : State} (k : Nat) (h : step s = .next t) : run (k + 1) s = run k t := by
  rw [run, h]

/-- An idle block with nothing to do stays as it is (60_exceptions.md R243). -/
theorem run_idle {s : State} (h : s.host = []) (hp : s.phase = .idle) (k : Nat) : run k s = .next s := by
  induction k with
  | zero => rfl
  | succ k ih =>
    rw [run_next k (t := s)]
    · exact ih
    · simp [step, h, engineStep, hp]

/-- A run after a run. -/
theorem run_add {s t : State} {j : Nat} (k : Nat) (h : run j s = .next t) : run (j + k) s = run k t := by
  induction j generalizing s with
  | zero => cases h; rw [Nat.zero_add]
  | succ j ih =>
    rw [run] at h
    rw [Nat.succ_add, Nat.succ_eq_add_one, run]
    cases hs : step s with
    | next s' => rw [hs] at h; exact ih h
    | fault r => rw [hs] at h; cases h
    | refused r => rw [hs] at h; cases h

end Sys2Proof.Safety
end

