-- ==== Sys2Proof/Tests/Slice0.lean ====
section
/-! SUPPORT. Tests of the model against the spec's tables and vectors, and for every statement with hypotheses a witness that meets
them. Expected values are those of 30_encoding.md and 95_test_vectors.md; none comes from the model. -/

namespace Sys2Proof.Tests

open Sys2Proof.Machine Sys2Proof.Safety Sys2Proof.Claims

/-! ## States -/

/-- `'A'`, `'B'`. -/
abbrev uA : Elem := 0x41
abbrev uB : Elem := 0x42

/-- An idle block after a success that left one element in `OUT` (V-C1), with the input `[A]`. -/
def idle (h : List HostAct) : State :=
  { State.reset with
    host := h, status := 0x02, outLen := 1, outBuf := [(0, 0x4000)], dbgN := 2, dbgNb := 2, inLen := 1, inBuf := [(0, uA)] }

/-- The same with an empty input. -/
def idleEmpty (h : List HostAct) : State := { idle h with inLen := 0 }

/-- Decompression of V-D2 before its first word; `bits` is what there is to read. -/
def dFresh (bits : List Bool) : State :=
  { State.reset with cmd := 4, status := 0x01, phase := .dDecode, n := 2, nb := 2, bits := bits, outBuf := [], outLen := 0 }

/-- Decompression of V-D2 after `RAW('A')@2 RAW('B')@3`; `bits` is what there is to read. -/
def dMid (bits : List Bool) : State :=
  { dFresh bits with
    n := 6, nb := 3, dictD := [(2, [uA]), (3, [uA, uB]), (4, [uB])], prev := some 4, pend := some 5
    outLen := 2, outBuf := [(0, uA), (1, uB)] }

/-- Decompression of V-D2 after its third word `REF(3)@3`. -/
def dAhead (bits : List Bool) : State :=
  { dMid bits with
    n := 7, dictD := [(2, [uA]), (3, [uA, uB]), (4, [uB]), (5, [uB, uA])], prev := some 3, pend := some 6
    outLen := 4, outBuf := [(0, uA), (1, uB), (2, uA), (3, uB)] }

/-- Decompression before the check of the input `[x]` under `RAW16` (4) or `BYTES` (7). -/
def dCheck (cmd : BitVec 3) (x : Elem) : State :=
  { State.reset with cmd := cmd, status := 0x01, phase := .dCheck, n := 2, nb := 2, inLen := 1, inBuf := [(0, x)] }

/-- Compression of `"AA"` (V-C3) under `BYTES`, after its first unit. -/
def cMiss : State :=
  { State.reset with cmd := 3, status := 0x01, phase := .cScan, n := 2, nb := 2, inLen := 2, inBuf := [(0, uA), (1, uA)], inPtr := 1, w := [uA] }

/-- Compression of `"AAA"` (V-C4) after its second unit; its first 18 bits are written. -/
def cHit : State :=
  { cMiss with
    n := 4, nb := 3, inLen := 3, inBuf := [(0, uA), (1, uA), (2, uA)], inPtr := 2, w := [uA], dictC := [([uA], 2), ([uA, uA], 3)]
    outLen := 2, outBuf := [(0, 0x00), (1, 0x10)], acc := 1, accCnt := 2 }

/-- Compression of `"A"` (V-C2) under `BYTES`, all units scanned. -/
def cLast : State := { cMiss with phase := .cEnd, inLen := 1, inBuf := [(0, uA)], inPtr := 1 }

/-- Parameters with a bound on the output. -/
def bounded (m : Nat) (s : State) : State := { s with params := { s.params with outMax := some m } }

/-- Parameters with a bound on the code width. -/
def narrow (m : Nat) (s : State) : State := { s with params := { s.params with maxCodeBits := some m } }

/-- An operation whose input the host has changed. -/
def spoiledRun : State := { cMiss with spoiled := true }

/-- One field of a next state. -/
def out? {α : Type} (f : State → α) : Host.Outcome State Fault Refusal → Option α
  | .next t => some (f t)
  | .fault _ => none
  | .refused _ => none

/-! ## WellFormed: each check refuses an ill-formed term -/

/-- The context of V-D2 after its second word. -/
def ctx : CodeCtx := { nb := 3, prev := some 4, pend := some 5, known := [2, 3, 4] }

theorem test_wf_ref : (Instr.ref 4).wf ctx = true := by decide
theorem test_wf_ref_reserved : (Instr.ref 1).wf { ctx with known := [1] } = false := by decide
theorem test_wf_ref_width : (Instr.ref 8).wf { ctx with known := [8] } = false := by decide
theorem test_wf_ref_first : (Instr.ref 4).wf { ctx with prev := none } = false := by decide
theorem test_wf_ref_unknown : (Instr.ref 5).wf ctx = false := by decide
theorem test_wf_refAhead : (Instr.refAhead 5).wf ctx = true := by decide
theorem test_wf_refAhead_other : (Instr.refAhead 6).wf ctx = false := by decide
theorem test_wf_refAhead_first : (Instr.refAhead 5).wf { ctx with prev := none } = false := by decide
theorem test_wf_illegal : (Instr.illegalCode 6).wf ctx = true := by decide
theorem test_wf_illegal_known : (Instr.illegalCode 3).wf ctx = false := by decide
theorem test_wf_illegal_pending : (Instr.illegalCode 5).wf ctx = false := by decide
theorem test_wf_illegal_width : (Instr.illegalCode 8).wf ctx = false := by decide
theorem test_wf_eos_width : Instr.eos.wf { ctx with nb := 0 } = false := by decide

/-! ## Decode: words written out from the encoding tables -/

/-- 30_encoding.md R71: `RAW` is `0^NB` and 16 literal bits; `'A'` is 0000000001000001. -/
theorem test_decode_raw :
    decodeCode CodeCtx.atStart
      [false, false, false, false, false, false, false, false, false, false, false, true, false, false, false, false, false, true]
      = .ok (.raw uA, []) := by decide

/-- R71: `EOS` is `0^(NB-1) 1`. -/
theorem test_decode_eos : decodeCode ctx [false, false, true, true] = .ok (.eos, [true]) := by decide

/-- R74: 3 is a known code, 011 at width 3. -/
theorem test_decode_ref : decodeCode ctx [false, true, true] = .ok (.ref 3, []) := by decide

/-- R74: 5 = `N - 1` is the one-ahead code, 101 at width 3. -/
theorem test_decode_refAhead : decodeCode ctx [true, false, true] = .ok (.refAhead 5, []) := by decide

/-- R74: 6 = `N` is illegal, 110 at width 3. -/
theorem test_decode_illegal : decodeCode ctx [true, true, false] = .ok (.illegalCode 6, []) := by decide

/-- R105: two bits are no code word of width 3. -/
theorem test_decode_short : decodeCode ctx [true, true] = .error .truncatedCode := by decide

/-- R105: `RAW_CODE` with 15 bits after it. -/
theorem test_decode_short_literal : decodeCode ctx (List.replicate 18 false) = .error .truncatedLiteral := by decide

/-- R79: the table of command values. -/
theorem test_decode_commands :
    (List.range 8).map (fun v => decodeTableWord 8 v) =
      [some .compressRaw16, some .compressBase64, some .compressUri, some .compressBytes,
       some .decompressRaw16, some .decompressBase64, some .decompressUri, some .decompressBytes] := by decide

/-- R79: `CMD` has 3 bits. -/
theorem test_decode_no_command : decodeTableWord 8 8 = none := by decide

/-- A raw-unit item as the first item of a stream: 00 and the unit. -/
theorem test_decode_item : decodeTableWord 24 0x41 = some (.raw uA) := by decide

/-- V-C5: the words of `"ABABABABAB"` as the encoder writes them, at their widths. -/
theorem test_encode_stream :
    encode 3 (.raw uB) = [false, false, false, false, false, false, false, false, false, false, false, false, true, false, false, false,
      false, true, false] ∧ encode 4 (.ref 5) = [false, true, false, true] ∧ encode 4 .eos = [false, false, false, true] := by decide

/-! ## One step -/

/-- V-D2 word 1 on a fresh decompression: output `A`, `DICT_D[2] = A`, `PREV = 2`, `PEND = 3`, `N = 4`, `NB = 3`. -/
theorem test_raw :
    out? (fun t => (t.dictD, t.prev, t.pend, t.n)) (exec (.raw uA) (dFresh [])) = some ([(2, [uA])], some 2, some 3, 4) ∧
    out? (fun t => (t.outBuf, t.nb)) (exec (.raw uA) (dFresh [])) = some ([(0, uA)], 3) := by decide +kernel

/-- 42_decompress.md R163, R167 on a block with a pending entry: `DICT_D[5] = [B] ++ [A]`. -/
theorem test_raw_fills :
    out? (fun t => (t.dictD, t.prev, t.pend, t.n)) (exec (.raw uA) (dMid [])) =
      some ([(2, [uA]), (3, [uA, uB]), (4, [uB]), (5, [uB, uA]), (6, [uA])], some 6, some 7, 8) := by decide +kernel

/-- V-D2 word 3: `REF(3)` outputs `AB`, fills `DICT_D[5] = BA`, `PREV = 3`, `PEND = 6`, `N = 7`. -/
theorem test_ref :
    out? (fun t => (t.dictD, t.prev, t.pend, t.n)) (exec (.ref 3) (dMid [])) =
      some ([(2, [uA]), (3, [uA, uB]), (4, [uB]), (5, [uB, uA])], some 3, some 6, 7) ∧
    out? (fun t => (t.outBuf, t.nb)) (exec (.ref 3) (dMid [])) = some ([(0, uA), (1, uB), (2, uA), (3, uB)], 3) := by
  decide +kernel

/-- V-D2 word 4: `AHEAD(6)` outputs `ABA`, `DICT_D[6] = ABA`, `N = 8`, `NB = 4`. -/
theorem test_refAhead :
    out? (fun t => (t.outLen, Table.read? t.dictD 6, t.prev, t.pend, t.n, t.nb)) (exec (.refAhead 6) (dAhead [])) =
      some (7, some [uA, uB, uA], some 6, some 7, 8, 4) := by decide +kernel

/-- R162, R211: `EOS` ends with success, `STATUS = 0x02`, and the final `N`, `NB`. -/
theorem test_eos :
    out? (fun t => (t.status, t.phase, t.outLen, t.dbgN, t.dbgNb)) (exec .eos (dMid [])) = some (0x02, .idle, 2, 6, 3) := by
  decide +kernel

/-- R166, R233: an illegal code ends with `STATUS = 0x36` and an empty output. -/
theorem test_illegalCode :
    out? (fun t => (t.status, t.phase, t.outLen)) (exec (.illegalCode 6) (dMid [])) = some (0x36, .idle, 0) := by decide +kernel

/-- R105: too few bits, `STATUS = 0x26`. -/
theorem test_truncated : out? (fun t => t.status) (step (dMid [true, true])) = some 0x26 := by decide +kernel

/-- R258, V-D capacity: an output longer than `P_OUT_MAX`, `STATUS = 0x46`. -/
theorem test_ref_capacity : out? (fun t => (t.status, t.outLen)) (exec (.ref 3) (bounded 3 (dMid []))) = some (0x46, 0) := by
  decide +kernel

/-- R210, R131, R161: what a command starts, in order of `CMD`. -/
theorem test_compressRaw16 : out? (fun t => (t.cmd, t.status, t.phase, t.n)) (exec .compressRaw16 (idle [])) = some (0, 0x01, .cScan, 2) := by
  decide +kernel
theorem test_compressBase64 : out? (fun t => (t.cmd, t.phase, t.adapter)) (exec .compressBase64 (idle [])) = some (1, .cScan, .base64) := by
  decide +kernel
theorem test_compressUri : out? (fun t => (t.cmd, t.phase, t.adapter)) (exec .compressUri (idle [])) = some (2, .cScan, .uri) := by
  decide +kernel
theorem test_compressBytes : out? (fun t => (t.cmd, t.phase, t.adapter)) (exec .compressBytes (idle [])) = some (3, .cScan, .bytes) := by
  decide +kernel
theorem test_decompressRaw16 : out? (fun t => (t.cmd, t.phase, t.prev)) (exec .decompressRaw16 (idle [])) = some (4, .dCheck, none) := by
  decide +kernel
theorem test_decompressBase64 : out? (fun t => (t.cmd, t.phase, t.adapter)) (exec .decompressBase64 (idle [])) = some (5, .dCheck, .base64) := by
  decide +kernel
theorem test_decompressUri : out? (fun t => (t.cmd, t.phase, t.adapter)) (exec .decompressUri (idle [])) = some (6, .dCheck, .uri) := by
  decide +kernel
theorem test_decompressBytes : out? (fun t => (t.cmd, t.phase, t.adapter)) (exec .decompressBytes (idle [])) = some (7, .dCheck, .bytes) := by
  decide +kernel

/-- V-C3 second scan: the escape of `A` is written (00 00000000 01000001 under `BYTES`: 0x00, 0x10 and the bits 01), `A` is code 2,
`AA` is code 3, `N = 4`, `NB = 3`. -/
theorem test_scan_miss :
    out? (fun t => (t.outBuf, t.acc, t.accCnt)) (step cMiss) = some ([(0, 0x00), (1, 0x10)], 1, 2) ∧
    out? (fun t => (t.dictC, t.w, t.n, t.nb)) (step cMiss) = some ([([uA], 2), ([uA, uA], 3)], [uA], 4, 3) := by decide +kernel

/-- V-C2: the end of `"A"` under `BYTES`: 0x00 0x10 0x48, `N = 4`, `NB = 3`. -/
theorem test_end :
    out? (fun t => (t.outBuf, t.dbgN, t.dbgNb, t.status)) (step cLast) = some ([(0, 0x00), (1, 0x10), (2, 0x48)], 4, 3, 0x02) := by
  decide +kernel

/-- V-R7: `RAW16` unpacks 0xFFFF to sixteen 1 bits. -/
theorem test_check : out? (fun t => (t.bits, t.phase)) (step (dCheck 4 0xFFFF)) = some (List.replicate 16 true, .dDecode) := by
  decide +kernel

/-- V-R3: 0x0100 is no byte, `STATUS = 0x16`. -/
theorem test_check_alphabet : out? (fun t => (t.status, t.phase)) (step (dCheck 7 0x0100)) = some (0x16, .idle) := by decide +kernel

/-- V-W1: the symbols 0, 1, 1 of `WRITE(0, 2)`, `WRITE(0x0041, 16)` under `BASE64` are `A`, `B`, `B`. -/
theorem test_write :
    (Whole.render .base64 (msb 2 0 ++ msb 16 0x41)).take 3 = [0x41, 0x42, 0x42] := by decide

/-- V-C5: the four outputs of `"ABABABABAB"` under `BYTES`. -/
theorem test_whole :
    Whole.command 3 Params.unbounded [uA, uB, uA, uB, uA, uB, uA, uB, uA, uB] = .ok [0x00, 0x10, 0x40, 0x02, 0x13, 0xCA, 0x82] 10 4 := by
  decide +kernel

/-- The word `step` runs as the first after reset is the one placed there. -/
theorem test_fetch : out? (fun t => (t.cmd, t.phase)) (step (State.reset.withFetchWord 8 6)) = some (6, .dCheck) := by decide +kernel

/-! ## Witnesses: a concrete input that meets all hypotheses of a statement -/

/-- A computed outcome that goes on, with what its next state holds. -/
theorem goes_on {P : State → Prop} [DecidablePred P] {o : Host.Outcome State Fault Refusal} (h : out? (fun t => decide (P t)) o = some true) :
    ∃ t, o = .next t ∧ P t := by
  cases o with
  | next t => exact ⟨t, rfl, by simpa [out?] using h⟩
  | fault r => cases h
  | refused r => cases h

theorem goes {o : Host.Outcome State Fault Refusal} (h : out? (fun _ => true) o = some true) : ∃ t, o = .next t := by
  cases o with
  | next t => exact ⟨t, rfl⟩
  | fault r => cases h
  | refused r => cases h

/-- An idle block after a success, whatever its host does next. -/
theorem inv_idle (h : List HostAct) : Inv (idle h) where
  params := ⟨by simp [idle, State.reset, Params.unbounded], by simp [idle, State.reset, Params.unbounded]⟩
  inWf := by simp [idle, Memory.wf, Table.wf]
  out := ⟨rfl, by simp [idle, State.reset, Params.unbounded]⟩
  status := .inr (.inl rfl)
  running := fun h => absurd rfl h
  debug := fun _ _ => ⟨le_rfl, by show 2 ≤ 2 ^ 2 - 1; decide, by show 2 = bitlen 2; decide⟩

theorem inv_idleEmpty (h : List HostAct) : Inv (idleEmpty h) :=
  ⟨(inv_idle h).params, (inv_idle h).inWf, (inv_idle h).out, (inv_idle h).status, (inv_idle h).running, (inv_idle h).debug⟩

/-- A running operation is sound when its working state is. -/
theorem inv_running {s : State} (hp : s.params = Params.unbounded) (hi : Memory.wf s.inBuf) (ho : s.outBuf.map Prod.fst = List.range s.outLen)
    (hs : s.status = statusBusy) (hb : s.phase ≠ .idle) (hr : RunningOk s) : Inv s where
  params := ⟨by simp [hp, Params.unbounded], by simp [hp, Params.unbounded]⟩
  inWf := hi
  out := ⟨ho, by simp [hp, Params.unbounded]⟩
  status := by simp [StatusOk, hb, hs]
  running := fun _ _ => hr
  debug := fun h => by rw [hs] at h; exact absurd h (by decide)

theorem codes_dFresh (bits : List Bool) : CodesOk (dFresh bits) := by simp [CodesOk, dFresh, State.reset, Params.unbounded]; decide
theorem codes_dMid (bits : List Bool) : CodesOk (dMid bits) := by simp [CodesOk, dMid, dFresh, State.reset, Params.unbounded]; decide
theorem codes_dAhead (bits : List Bool) : CodesOk (dAhead bits) := by
  simp [CodesOk, dAhead, dMid, dFresh, State.reset, Params.unbounded]; decide

theorem decode_dFresh (bits : List Bool) : DecodeOk (dFresh bits) :=
  ⟨by show cmdDir 4 = true; decide, by simp [dFresh, State.reset, Table.wf], by simp [dFresh, State.reset], Nat.zero_le _, .inl ⟨rfl, rfl, rfl, rfl⟩⟩

theorem decode_dMid (bits : List Bool) : DecodeOk (dMid bits) := by
  refine ⟨by show cmdDir 4 = true; decide, by simp [dMid, Table.wf], by simp [dMid], Nat.zero_le _, .inr ⟨4, 5, rfl, rfl, by decide, rfl, by decide, ?_⟩⟩
  intro k
  simp only [dMid, Table.read?]
  split_ifs <;> simp [firstCode] <;> omega

theorem decode_dAhead (bits : List Bool) : DecodeOk (dAhead bits) := by
  refine ⟨by show cmdDir 4 = true; decide, by simp [dAhead, Table.wf], by simp [dAhead], Nat.zero_le _, .inr ⟨3, 6, rfl, rfl, by decide, rfl, by decide, ?_⟩⟩
  intro k
  simp only [dAhead, Table.read?]
  split_ifs <;> simp [firstCode] <;> omega

theorem inv_dMid (bits : List Bool) : Inv (dMid bits) :=
  inv_running rfl (by simp [dMid, dFresh, State.reset, Memory.wf, Table.wf]) rfl rfl (by simp [dMid, dFresh]) ⟨codes_dMid bits, decode_dMid bits⟩

theorem inv_dAhead (bits : List Bool) : Inv (dAhead bits) :=
  inv_running rfl (by simp [dAhead, dMid, dFresh, State.reset, Memory.wf, Table.wf]) rfl rfl (by simp [dAhead, dMid, dFresh]) ⟨codes_dAhead bits, decode_dAhead bits⟩

theorem inv_dCheck (x : Elem) : Inv (dCheck 7 x) :=
  inv_running rfl (by simp [dCheck, Memory.wf, Table.wf]) rfl rfl (by simp [dCheck])
    ⟨by simp [CodesOk, dCheck, State.reset, Params.unbounded]; decide, by show cmdDir 7 = true; decide, rfl, rfl, rfl, rfl⟩

theorem dictC_nil {s : State} (h : s.dictC = []) : DictCOk s := by simp [DictCOk, h]

theorem compress_cMiss : CompressOk cMiss :=
  ⟨by decide, by simp [AccOk, cMiss, State.reset]; decide, dictC_nil rfl, ⟨by simp [cMiss], fun h => by simp [cMiss] at h, fun _ => .inr ⟨uA, rfl⟩⟩, by decide⟩

theorem codes_cMiss : CodesOk cMiss := by simp [CodesOk, cMiss, State.reset, Params.unbounded]; decide

theorem inv_cMiss : Inv cMiss :=
  inv_running rfl (by simp [cMiss, Memory.wf, Table.wf]) rfl rfl (by simp [cMiss]) ⟨codes_cMiss, compress_cMiss⟩

theorem inv_cLast : Inv cLast :=
  inv_running rfl (by simp [cLast, Memory.wf, Table.wf]) rfl rfl (by simp [cLast])
    ⟨codes_cMiss, ⟨by decide, by simp [AccOk, cLast, cMiss, State.reset]; decide, dictC_nil rfl,
      ⟨by simp [cLast, cMiss], fun h => by simp [cLast, cMiss] at h, fun _ => .inr ⟨uA, rfl⟩⟩, by decide⟩, rfl⟩

/-- The same runs with bounds that are not yet passed. -/
theorem inv_bounded {s : State} {m : Nat} (h : Inv s) (h1 : 1 ≤ m) (hm : s.outLen ≤ m) : Inv (bounded m s) where
  params := ⟨h.params.1, by simp [bounded]; exact h1⟩
  inWf := h.inWf
  out := ⟨h.out.1, by simp [bounded]; exact hm⟩
  status := h.status
  running := fun hb hs => h.running hb hs
  debug := h.debug

theorem inv_spoiledRun : Inv spoiledRun where
  params := inv_cMiss.params
  inWf := inv_cMiss.inWf
  out := inv_cMiss.out
  status := inv_cMiss.status
  running := fun _ h => by simp [spoiledRun] at h
  debug := fun _ h => by simp [spoiledRun] at h

theorem turn {s : State} (h : s.host = []) : engineTurn s [] := .inl ⟨h, rfl⟩

theorem witness_PowerOnResetState : ({ cMiss with host := [.powerOnReset] } : State).host = .powerOnReset :: [] := rfl

theorem witness_ResetForgetsEverything : ({ cMiss with host := [.powerOnReset] } : State).host = .powerOnReset :: [] ∧
    (idle [.powerOnReset]).host = .powerOnReset :: [] ∧ cMiss.params = (idle []).params ∧ cMiss.free = (idle []).free := ⟨rfl, rfl, rfl, rfl⟩

/-- `IN_LEN = P_IN_MAX`, and one more. -/
theorem witness_CommandStartsOperation : (.decompressUri, 6) ∈ commands ∧ (idle []).busy = false ∧
    (∀ m ∈ (some 1 : Option Nat), (idle []).inLen ≤ m) ∧ ∃ m ∈ (some 0 : Option Nat), m < (idle []).inLen := by decide

theorem witness_CommandWhileBusyIgnored : cMiss.busy = true ∧
    ({ cMiss with host := [.writeCmd 5] } : State).host = .writeCmd 5 :: [] := ⟨by decide, rfl⟩

theorem witness_FailureIsNotFatal : (.compressUri, 2) ∈ commands ∧ ∀ m ∈ (dMid []).params.inMax, (dMid []).inLen ≤ m := by decide

theorem witness_DecodingUndoesEncoding : (Instr.ref 4).isCodeWord = true ∧ (Instr.ref 4).wf ctx = true ∧ Instr.compressUri.isCodeWord = false := by decide

theorem witness_EncodingUndoesDecoding : decodeCode ctx [true, false, true] = .ok (.refAhead 5, []) := by decide

/-- In `dMid` the codes 0, 1, 2 and 4 = `N - 2`, 5 = `N - 1`, 6 = `N` and 7 = `2^NB - 1` fall under the clauses, in that order; in
`dFresh` the codes 2 and 3. -/
theorem witness_LegalCodes : CodesOk (dMid []) ∧ DecodeOk (dMid []) ∧ (dMid []).prev ≠ none ∧ (dMid []).n - 2 = 4 ∧ (dMid []).nb = 3 ∧
    CodesOk (dFresh []) ∧ DecodeOk (dFresh []) ∧ (dFresh []).prev = none :=
  ⟨codes_dMid [], decode_dMid [], by simp [dMid], rfl, rfl, codes_dFresh [], decode_dFresh [], rfl⟩

theorem witness_BitsAndValues : (5 : Nat) < 2 ^ 3 ∧ (2 : Nat) < 3 := by decide

theorem witness_StepRunsHostCommand : (.decompressBytes, 7) ∈ commands ∧ (idle [.writeCmd 7]).host = .writeCmd 7 :: [] := ⟨by decide, rfl⟩

/-- A whole code word; one bit short; a literal one bit short. -/
theorem witness_StepRunsDecodedCodeWord : (dMid [false, true, true]).phase = .dDecode ∧ (dMid [false, true, true]).spoiled = false ∧
    engineTurn (dMid [false, true, true]) [] ∧
    decodeCode (dMid [false, true, true]).codeCtx (dMid [false, true, true]).restBits = .ok (.ref 3, []) ∧
    (Instr.ref 3).isCodeWord = true ∧ (Instr.ref 3).wf (dMid [false, true, true]).codeCtx = true ∧
    (dMid [false, true, true]).restBits = encode (dMid [false, true, true]).nb (.ref 3) ++ [] ∧
    (dMid [true, true]).restBits.length < (dMid [true, true]).nb ∧
    ∃ r, (dMid (List.replicate 18 false)).restBits = msb (dMid (List.replicate 18 false)).nb rawCode ++ r ∧ r.length < rawBits :=
  ⟨rfl, rfl, turn rfl, by decide, by decide, by decide, by decide, by decide, List.replicate 15 false, by decide, by decide⟩

/-- The first unit, and one that fits exactly in `OUT`. -/
theorem witness_RawDecodes : CodesOk (bounded 3 (dMid [])) ∧ DecodeOk (bounded 3 (dMid [])) ∧
    (∀ m ∈ (bounded 3 (dMid [])).params.outMax, (bounded 3 (dMid [])).outLen ≤ m) ∧
    fits (bounded 3 (dMid [])) ((dMid []).outLen + 1) ((dMid []).n + 2) ∧ fits (dFresh []) 1 4 := by
  refine ⟨codes_dMid [], decode_dMid [], by simp [bounded, dMid], ?_, ?_⟩ <;>
    simp [fits, bounded, dMid, dFresh, State.reset, Params.unbounded]

theorem witness_RefDecodes : CodesOk (bounded 4 (dMid [])) ∧ DecodeOk (bounded 4 (dMid [])) ∧
    (∀ m ∈ (bounded 4 (dMid [])).params.outMax, (bounded 4 (dMid [])).outLen ≤ m) ∧
    Table.read? (bounded 4 (dMid [])).dictD 3 = some [uA, uB] ∧ fits (bounded 4 (dMid [])) ((dMid []).outLen + 2) ((dMid []).n + 1) := by
  refine ⟨codes_dMid [], decode_dMid [], by simp [bounded, dMid], by decide, ?_⟩
  simp [fits, bounded, dMid, dFresh, State.reset, Params.unbounded]

theorem witness_RefAheadDecodes : CodesOk (bounded 7 (dAhead [])) ∧ DecodeOk (bounded 7 (dAhead [])) ∧
    (∀ m ∈ (bounded 7 (dAhead [])).params.outMax, (bounded 7 (dAhead [])).outLen ≤ m) ∧
    (bounded 7 (dAhead [])).pend = some 6 ∧ (bounded 7 (dAhead [])).prev = some 3 ∧
    Table.read? (bounded 7 (dAhead [])).dictD 3 = some (uA :: [uB]) ∧
    fits (bounded 7 (dAhead [])) ((dAhead []).outLen + 1 + 2) ((dAhead []).n + 1) := by
  refine ⟨codes_dAhead [], decode_dAhead [], by simp [bounded, dAhead], rfl, rfl, by decide, ?_⟩
  simp [fits, bounded, dAhead, dMid, dFresh, State.reset, Params.unbounded]

/-- `OUT` full by one element for each form, and the width bound of V-G5. -/
theorem witness_CodeWordsFailAtCapacity :
    (CodesOk (bounded 2 (dMid [])) ∧ DecodeOk (bounded 2 (dMid [])) ∧
      (∀ m ∈ (bounded 2 (dMid [])).params.outMax, (bounded 2 (dMid [])).outLen ≤ m) ∧
      ¬ fits (bounded 2 (dMid [])) ((dMid []).outLen + 1) ((dMid []).n + 2)) ∧
    (Table.read? (bounded 3 (dMid [])).dictD 3 = some [uA, uB] ∧ ¬ fits (bounded 3 (dMid [])) ((dMid []).outLen + 2) ((dMid []).n + 1)) ∧
    (bounded 6 (dAhead [])).pend = some 6 ∧ Table.read? (bounded 6 (dAhead [])).dictD 3 = some [uA, uB] ∧
    ¬ fits (bounded 6 (dAhead [])) ((dAhead []).outLen + 2 + 1) ((dAhead []).n + 1) ∧
    ¬ fits (narrow 3 (dAhead [])) 0 ((dAhead []).n + 1) := by
  refine ⟨⟨codes_dMid [], decode_dMid [], by simp [bounded, dMid], ?_⟩, ⟨by decide, ?_⟩, rfl, by decide, ?_, ?_⟩ <;>
    simp [fits, bounded, narrow, dAhead, dMid, dFresh, State.reset, Params.unbounded]
  decide

/-- V-G2 grows the width, V-G6 passes its bound. -/
theorem witness_AdvanceCountsOneCode : CodesOk { cMiss with n := 3 } ∧ (∀ m ∈ cMiss.params.maxCodeBits, bitlen 4 ≤ m) ∧
    CodesOk (narrow 2 { cMiss with n := 3 }) ∧ ∃ m ∈ (narrow 2 cMiss).params.maxCodeBits, m < bitlen (3 + 1) := by
  refine ⟨?_, by simp [cMiss, State.reset, Params.unbounded], ?_, 2, rfl, by decide⟩
  · simp [CodesOk, cMiss, State.reset, Params.unbounded]; decide
  · simp [CodesOk, narrow, cMiss, State.reset, Params.unbounded]; decide

theorem witness_ScanStepExtendsPhrase : cHit.phase = .cScan ∧ cHit.spoiled = false ∧ engineTurn cHit [] ∧ cHit.inPtr < cHit.inLen ∧ cHit.w ≠ [] ∧
    (DictC.code? cHit.dictC (cHit.w ++ [cHit.inAt cHit.inPtr])).isSome ∧
    (cHit.inLen ≤ ({ cHit with inPtr := 3 } : State).inPtr) ∧ ({ cMiss with inPtr := 0, w := [] } : State).w = [] :=
  ⟨rfl, rfl, turn rfl, by decide, by simp [cHit], by decide, by decide, rfl⟩

/-- The escape of V-C3 fills two elements of `OUT`: it fits in two and not in one. -/
theorem witness_ScanStepEmitsOnMiss : running .cScan (bounded 2 cMiss) [] ∧ running .cScan (bounded 1 cMiss) [] ∧ cMiss.inPtr < cMiss.inLen ∧
    cMiss.inAt cMiss.inPtr = uA ∧ cMiss.w ≠ [] ∧ DictC.code? cMiss.dictC (cMiss.w ++ [uA]) = none ∧
    fits (bounded 2 cMiss) (((written cMiss).length + (phraseBits cMiss).length) / cMiss.adapter.sb) (cMiss.n + phraseCodes cMiss + 1) ∧
    ¬ fits (bounded 1 cMiss) (((written cMiss).length + (phraseBits cMiss).length) / cMiss.adapter.sb) (cMiss.n + phraseCodes cMiss + 1) := by
  have h : ((written cMiss).length + (phraseBits cMiss).length) / cMiss.adapter.sb = 2 := by decide
  rw [h]
  refine ⟨⟨inv_bounded inv_cMiss (by decide) (by decide), rfl, rfl, turn rfl⟩, ⟨inv_bounded inv_cMiss (by decide) (by decide), rfl, rfl, turn rfl⟩,
    by decide, by decide, by simp [cMiss], by decide, ?_, ?_⟩ <;> simp [fits, bounded, cMiss, State.reset, Params.unbounded]

/-- V-C2 ends with three elements: they fit in three and not in two. -/
theorem witness_EndStepCompletes : running .cEnd (bounded 3 cLast) [] ∧ running .cEnd (bounded 2 cLast) [] ∧
    (Whole.render cLast.adapter (written cLast ++ phraseBits cLast ++ msb (bitlen (cLast.n + phraseCodes cLast + 1)) eosCode)).length = 3 ∧
    fits (bounded 3 cLast) 3 4 ∧ ¬ fits (bounded 2 cLast) 3 4 := by
  refine ⟨⟨inv_bounded inv_cLast (by decide) (by decide), rfl, rfl, turn rfl⟩, ⟨inv_bounded inv_cLast (by decide) (by decide), rfl, rfl, turn rfl⟩,
    by decide, ?_, ?_⟩ <;> simp [fits, bounded, cLast, cMiss, State.reset, Params.unbounded]

theorem witness_CheckStepUnpacks : (dCheck 7 0xFF).phase = .dCheck ∧ (dCheck 7 0xFF).spoiled = false ∧ engineTurn (dCheck 7 0xFF) [] ∧
    (dCheck 7 0xFF).adapter.length (dCheck 7 0xFF).inAt (dCheck 7 0xFF).inLen = 1 ∧
    (∀ i < 1, (dCheck 7 0xFF).adapter.dec ((dCheck 7 0xFF).inAt i) ≠ none) ∧
    ∃ i < 1, (dCheck 7 0x100).adapter.dec ((dCheck 7 0x100).inAt i) = none :=
  ⟨rfl, rfl, turn rfl, rfl, by decide, 0, by decide, by decide⟩

theorem witness_WriterSummary : OutOk (bounded 2 cMiss) ∧ cMiss.acc = 0 ∧ cMiss.accCnt = 0 ∧
    2 = ((stream [(0xABC, 12)]).length + cMiss.adapter.sb - 1) / cMiss.adapter.sb ∧
    ∀ m ∈ (bounded 2 cMiss).params.outMax, (bounded 2 cMiss).outLen + 2 ≤ m :=
  ⟨(inv_bounded inv_cMiss (by decide) (by decide)).out, rfl, rfl, by decide, by decide⟩

/-- V-W5 read back. -/
theorem witness_ReaderUndoesWriter : OutOk cMiss ∧ cMiss.outLen = 0 ∧ cMiss.acc = 0 ∧ cMiss.accCnt = 0 ∧
    (∀ w ∈ [(5, 3)], w.1 < 2 ^ w.2) ∧
    (dCheck 7 0xA0).adapter = cMiss.adapter ∧
    ∃ t, settle cMiss ((writeAll [(5, 3)] cMiss).bind finish) = .next t ∧ t.err = false ∧ (dCheck 7 0xA0).inLen = t.outLen ∧
      ∀ i < (dCheck 7 0xA0).inLen, (dCheck 7 0xA0).inAt i = t.outAt i :=
  ⟨inv_cMiss.out, rfl, rfl, rfl, by decide, by decide, goes_on (by decide +kernel)⟩

theorem witness_DecUndoesEnc : (63 : Nat) < 2 ^ Adapter.base64.sb ∧ (∀ v ∈ [16], v < 2 ^ Adapter.base64.sb) ∧
    [0x51, padElem, padElem, padElem] = [16].map Adapter.base64.enc ++ Whole.padding .base64 [16].length ∧
    ∀ i, ∀ h : i < 4, (fun i => [0x51, padElem, padElem, padElem].getD i 0) i = [0x51, padElem, padElem, padElem][i] := by decide

theorem witness_EncUndoesDec : Adapter.base64.dec base64Last = some 63 := by decide

theorem witness_AlphabetContainment : Whole.command 1 Params.unbounded [] = .ok [0x51, 0x3D, 0x3D, 0x3D] 2 2 ∧
    Whole.command 2 Params.unbounded [] = .ok [0x51] 2 2 := by decide +kernel

theorem witness_CommandComputesItsFunction (v : BitVec 3) : aboutToStart v (idle [.writeCmd v]) := ⟨inv_idle _, rfl, rfl⟩

/-- V-C1: three steps, for an empty input. -/
theorem witness_TerminationBound : aboutToStart 3 (idleEmpty [.writeCmd 3]) ∧ cmdDir 3 = false ∧
    ∃ t, run 3 (idleEmpty [.writeCmd 3]) = .next t ∧ t.status = statusSuccess :=
  ⟨⟨inv_idleEmpty _, rfl, rfl⟩, rfl, goes_on (by decide +kernel)⟩

theorem witness_DecodeStepsTerminate : Inv (dMid [false, true, true]) ∧ (dMid [false, true, true]).phase = .dDecode ∧
    (dMid [false, true, true]).spoiled = false ∧ (dMid [false, true, true]).host = [] ∧ ∃ t, step (dMid [false, true, true]) = .next t :=
  ⟨inv_dMid _, rfl, rfl, rfl, goes (by decide +kernel)⟩

/-- V-C2 with bounds that just suffice. -/
theorem witness_RoundTrip : cmdDir 3 = false ∧
    Whole.command 3 { maxCodeBits := some 3, outMax := some 3, inMax := some 3 } [uA] = .ok [0x00, 0x10, 0x48] 4 3 ∧
    (∀ m ∈ (some 3 : Option Nat), [uA].length ≤ m) ∧ ∀ m ∈ (some 3 : Option Nat), [(0x00 : Elem), 0x10, 0x48].length ≤ m := by decide +kernel

/-- V-C1 by the host protocol. -/
theorem witness_RoundTripOnTheBlock : cmdDir 0 = false ∧ Inv (idle (hostProtocol [] 0)) ∧ (idle (hostProtocol [] 0)).phase = .idle ∧
    (idle (hostProtocol [] 0)).host = hostProtocol [] 0 ∧
    (∃ t, run 4 (idle (hostProtocol [] 0)) = .next t ∧ t.host = [] ∧ t.phase = .idle ∧ reports (.ok [0x4000] 2 2) t) ∧
    (∀ m ∈ (idle (hostProtocol [] 0)).params.outMax, ([] : List Elem).length ≤ m) ∧
    ∀ m ∈ (idle (hostProtocol [] 0)).params.inMax, [(0x4000 : Elem)].length ≤ m := by
  refine ⟨rfl, inv_idle _, rfl, rfl, ?_, ?_, ?_⟩
  · obtain ⟨t, h, h1, h2, h3, h4, h5, h6, h7, h8⟩ := goes_on (o := run 4 (idle (hostProtocol [] 0)))
      (P := fun t => t.host = [] ∧ t.phase = .idle ∧ t.status = statusSuccess ∧ t.outLen = 1 ∧ t.outAt 0 = 0x4000 ∧ t.dbgN = 2 ∧ t.dbgNb = 2 ∧ True)
      (by decide +kernel)
    refine ⟨t, h, h1, h2, h3, h2, h4, ?_, h6, h7⟩
    intro i hi
    obtain rfl : i = 0 := by simpa using hi
    exact h5
  all_goals intro m h; cases h

theorem witness_HostProtocolRunsCommand : Inv (idle (hostProtocol [uB, uA] 6)) ∧ (idle (hostProtocol [uB, uA] 6)).phase = .idle ∧
    (idle (hostProtocol [uB, uA] 6)).host = hostProtocol [uB, uA] 6 := ⟨inv_idle _, rfl, rfl⟩

/-- Two blocks that did different things before, with the same empty input. -/
theorem witness_NoEarlierOperationMatters : aboutToStart 3 (idleEmpty [.writeCmd 3]) ∧
    aboutToStart 3 { idleEmpty [.writeCmd 3] with cmd := 1, free := 9 } ∧
    (∃ t, run (stepBound 3 (idleEmpty [.writeCmd 3])) (idleEmpty [.writeCmd 3]) = .next t) ∧
    ∃ t, run (stepBound 3 { idleEmpty [.writeCmd 3] with cmd := 1, free := 9 }) { idleEmpty [.writeCmd 3] with cmd := 1, free := 9 } = .next t :=
  ⟨⟨inv_idleEmpty _, rfl, rfl⟩,
    ⟨⟨(inv_idle [.writeCmd 3]).params, (inv_idle [.writeCmd 3]).inWf, (inv_idle [.writeCmd 3]).out, (inv_idle [.writeCmd 3]).status, (inv_idle [.writeCmd 3]).running, (inv_idle [.writeCmd 3]).debug⟩,
      rfl, rfl⟩, goes (by decide +kernel), goes (by decide +kernel)⟩

theorem witness_CrossAdapterEquivalence : Whole.command 0 Params.unbounded [uA] = .ok [0x0010, 0x4800] 4 3 ∧
    Whole.command 3 Params.unbounded [uA] = .ok [0x00, 0x10, 0x48] 4 3 ∧ ∀ m ∈ Params.unbounded.inMax, 3 ≤ m := by decide +kernel

/-- V-C2: 21 bits, an odd number of bytes. -/
theorem witness_BytesSplitRaw16 : Whole.command 0 Params.unbounded [uA] = .ok [0x0010, 0x4800] 4 3 ∧
    Whole.command 3 Params.unbounded [uA] = .ok [0x00, 0x10, 0x48] 4 3 ∧ 21 = (Whole.encodeStream [uA]).stream.length := by decide +kernel

theorem witness_UriAgainstBase64 : ∀ x ∈ [(0x51 : Elem)], x ≠ base64Last ∧ x ≠ padElem ∧ x ≠ uriLast := by
  intro x hx
  obtain rfl : x = 0x51 := by simpa using hx
  decide

theorem witness_DictionaryBounds : Inv cMiss ∧ cMiss.spoiled = false ∧ cMiss.phase = .cScan ∧ Inv (dMid []) ∧ (dMid []).phase = .dDecode :=
  ⟨inv_cMiss, rfl, rfl, inv_dMid _, rfl⟩

/-- `EOS@2` and no more. -/
theorem witness_BitsAfterEosDoNotMatter : Whole.decodeStream Params.unbounded 3 Whole.Dec.init [false, true] = .ok [] 2 2 ∧ 3 ≤ 5 := by
  decide +kernel

theorem witness_EmptyInputCompresses : aboutToStart 1 (idleEmpty [.writeCmd 1]) ∧ cmdDir 1 = false ∧ (idleEmpty [.writeCmd 1]).inLen = 0 ∧
    (idleEmpty [.writeCmd 1]).params = Params.unbounded := ⟨⟨inv_idleEmpty _, rfl, rfl⟩, rfl, rfl, rfl⟩

theorem witness_HostInputWrites : ({ cMiss with host := [.writeIn 0 uB] } : State).host = .writeIn 0 uB :: [] ∧
    (idle [.writeInLen 7]).host = .writeInLen 7 :: [] := ⟨rfl, rfl⟩

theorem witness_IdleHolds : (idle [.engine]).phase = .idle ∧ engineTurn (idle [.engine]) [] := ⟨rfl, .inr rfl⟩

/-- One state and step for each transition of R212. -/
theorem witness_PhaseTransitions : (Inv cMiss ∧ (∃ t, step cMiss = .next t) ∧ engineTurn cMiss [] ∧ cMiss.phase = .cScan ∧ cMiss.inPtr < cMiss.inLen) ∧
    (Inv cLast ∧ (∃ t, step cLast = .next t) ∧ cLast.phase = .cEnd) ∧
    (Inv (dCheck 7 0) ∧ (∃ t, step (dCheck 7 0) = .next t) ∧ (dCheck 7 0).phase = .dCheck) ∧
    (Inv (dMid [false, false, true]) ∧ (∃ t, step (dMid [false, false, true]) = .next t) ∧
      ∃ tl, decodeCode (dMid [false, false, true]).codeCtx (dMid [false, false, true]).restBits = .ok (.eos, tl)) ∧
    (Inv spoiledRun ∧ spoiledRun.phase ≠ .idle ∧ spoiledRun.spoiled = true) ∧
    Inv (idle [.writeCmd 4]) ∧ ∃ t, step (idle [.writeCmd 4]) = .next t :=
  ⟨⟨inv_cMiss, goes (by decide +kernel), turn rfl, rfl, by decide⟩, ⟨inv_cLast, goes (by decide +kernel), rfl⟩, ⟨inv_dCheck _, goes (by decide +kernel), rfl⟩,
    ⟨inv_dMid _, goes (by decide +kernel), [], by decide⟩, ⟨inv_spoiledRun, by simp [spoiledRun, cMiss], rfl⟩, inv_idle _, goes (by decide +kernel)⟩

/-- `STATUS` and `CMD` change at a start; `STATUS` at an end. -/
theorem witness_StatusAndCmdWrittenOnlyThere : Inv (idle [.writeCmd 4]) ∧ (∃ t, step (idle [.writeCmd 4]) = .next t ∧
    t.status ≠ (idle [.writeCmd 4]).status ∧ t.cmd ≠ (idle [.writeCmd 4]).cmd) ∧ Inv cLast ∧ ∃ t, step cLast = .next t ∧ t.status ≠ cLast.status :=
  ⟨inv_idle _, goes_on (by decide +kernel), inv_cLast, goes_on (by decide +kernel)⟩

theorem witness_OnlyTheHostWritesInput : Inv cMiss ∧ (∃ t, step cMiss = .next t) ∧ (∀ i x rest, cMiss.host ≠ .writeIn i x :: rest) ∧
    (∀ n rest, cMiss.host ≠ .writeInLen n :: rest) ∧ ∀ rest, cMiss.host ≠ .powerOnReset :: rest :=
  ⟨inv_cMiss, goes (by decide +kernel), by simp [cMiss, State.reset], by simp [cMiss, State.reset], by simp [cMiss, State.reset]⟩

theorem witness_WithinAnOperationOnlyGrowth : (running .cScan cMiss [] ∧ ∃ t, step cMiss = .next t ∧ t.phase ≠ .idle) ∧
    running .dDecode (dMid [false, true, true]) [] ∧ ∃ t, step (dMid [false, true, true]) = .next t ∧ t.phase ≠ .idle :=
  ⟨⟨⟨inv_cMiss, rfl, rfl, turn rfl⟩, goes_on (by decide +kernel)⟩, ⟨inv_dMid _, rfl, rfl, turn rfl⟩, goes_on (by decide +kernel)⟩

/-- A compression that fails, and one without bounds. -/
theorem witness_CapacityOnlyWhenBounded : (running .cScan (bounded 1 cMiss) [] ∧ ∃ t, step (bounded 1 cMiss) = .next t ∧ t.err = true) ∧
    running .cEnd cLast [] ∧ (∃ t, step cLast = .next t) ∧ cLast.params.maxCodeBits = none ∧ cLast.params.outMax = none :=
  ⟨⟨⟨inv_bounded inv_cMiss (by decide) (by decide), rfl, rfl, turn rfl⟩, goes_on (by decide +kernel)⟩, ⟨inv_cLast, rfl, rfl, turn rfl⟩, goes (by decide +kernel), rfl, rfl⟩

theorem witness_SpoiledOperationEnds : Inv spoiledRun ∧ spoiledRun.phase ≠ .idle ∧ spoiledRun.spoiled = true ∧ engineTurn spoiledRun [] :=
  ⟨inv_spoiledRun, by simp [spoiledRun, cMiss], rfl, turn rfl⟩

theorem witness_StepKeepsInvariant : Inv (dAhead [true, true, false]) ∧ ∃ t, step (dAhead [true, true, false]) = .next t :=
  ⟨inv_dAhead _, goes (by decide +kernel)⟩

theorem witness_EveryStepGoesOn : Inv cMiss := inv_cMiss

/-- The trie of `cMiss`: nothing registered, `W` a new unit. -/
theorem witness_TrieScanDoesTheSame : CodesOk cMiss ∧ DictCOk cMiss ∧ (TrieC.mk [] (.new uA)).represents cMiss := by
  refine ⟨codes_cMiss, dictC_nil rfl, ?_, by simp, rfl, rfl⟩
  intro p hp
  obtain ⟨x, q, rfl⟩ := List.exists_cons_of_ne_nil hp
  rfl

/-- The trie of the one entry 2 ↦ `A`; the pending entry 3 is filled. -/
theorem witness_TrieEntriesHoldTheMap : Table.wf [(2, [uA])] ∧ (∀ e ∈ [(2, [uA])], e.2 ≠ []) ∧
    (TrieD.mk [] [(2, uA)] [(2, uA)]).represents [(2, [uA])] ∧ Table.read? [(2, [uA])] 3 = none ∧ (Table.read? [(2, [uA])] 2).isSome ∧
    ∃ u, fillPending uB { dFresh [] with dictD := [(2, [uA])], prev := some 2, pend := some 3, n := 4, nb := 3 } = .ok u := by
  refine ⟨by simp [Table.wf], by simp, ?_, by decide, by decide, _, rfl⟩
  intro k
  by_cases hk : k = 2
  · subst hk; decide
  · simp [TrieD.word, Table.read?, hk]

/-- The largest symbol of each identity alphabet. -/
theorem witness_EncodeTables : 0xFFFF < 2 ^ 16 ∧ (Adapter.raw16.enc 0xFFFF).toNat = 0xFFFF ∧
    0xFF < 2 ^ 8 ∧ (Adapter.bytes.enc 0xFF).toNat = 0xFF := by decide

end Sys2Proof.Tests
end

section
/-! PROOFS of the statements of 00_scope.md: the bit fields of R12, and the step that runs a host command. -/

namespace Sys2Proof

/-- Bit `j` of `msb n v` counts from the most significant end, so it is bit `n - 1 - j` of the value (R12). -/
theorem getElem?_msb {n v j : Nat} (h : j < n) : (msb n v)[j]? = some (v.testBit (n - 1 - j)) := by
  induction n generalizing j with
  | zero => omega
  | succ n ih =>
    cases j with
    | zero => simp [msb]
    | succ j =>
      rw [msb, List.getElem?_cons_succ, ih (by omega)]
      congr 2
      omega

/-- Settles O11: the width is least by `bitlen_le_iff`, the value comes back by `val_msb_of_lt`, and each bit is
`getElem?_msb`. -/
theorem bitsAndValues : Obligations.BitsAndValues := by
  refine ⟨fun v => ⟨lt_two_pow_bitlen v, fun b => (bitlen_le_iff v b).2⟩,
    fun n v => ⟨msb_length n v, val_msb_of_lt⟩, fun n v j hj => ?_⟩
  rw [getElem?_msb hj, Nat.testBit_eq_decide_div_mod_eq, beq_eq_decide]

end Sys2Proof

namespace Sys2Proof.Machine

open Sys2Proof.Claims

/-- A host write of `CMD` is the next step, and runs the command its value selects (R17). -/
theorem step_of_host_writeCmd {s : State} {v : BitVec 3} {rest : List HostAct} (h : s.host = .writeCmd v :: rest) :
    step s = exec (decodeCommand v) { s with host := rest } := by
  simp only [step, h]

/-- The value of `CMD` listed for a command decodes to it (30_encoding.md R79). -/
theorem decodeCommand_of_mem_commands {c : Instr × BitVec 3} (h : c ∈ commands) : decodeCommand c.2 = c.1 := by
  have hall : ∀ c ∈ commands, decodeCommand c.2 = c.1 := by decide
  exact hall c h

/-- Settles O12: the step runs what the value decodes to, and the value of a command decodes to that command. -/
theorem stepRunsHostCommand : Obligations.StepRunsHostCommand := by
  intro s c rest hc hhost
  rw [step_of_host_writeCmd hhost, decodeCommand_of_mem_commands hc]

end Sys2Proof.Machine
end

section
/-! PROOFS of the statements of 10_state.md, part 1: every step keeps the invariant. -/

namespace Sys2Proof.Machine

open Sys2Proof.Safety

/-- Every command is a write of its value to `CMD` (30_encoding.md R79, 44_commands.md R213 to R220). -/
theorem exec_decodeCommand (v : BitVec 3) (s : State) : exec (decodeCommand v) s = start v s := by
  have hv : v = 0 ∨ v = 1 ∨ v = 2 ∨ v = 3 ∨ v = 4 ∨ v = 5 ∨ v = 6 ∨ v = 7 := by revert v; decide
  rcases hv with rfl | rfl | rfl | rfl | rfl | rfl | rfl | rfl <;> rfl

/-- An engine step of a sound block goes on, to a sound block: one case per phase. -/
theorem engineStep_inv {s : State} (h : Inv s) : ∃ t, engineStep s = .next t ∧ Inv t := by
  have ht := inv_tick h
  unfold engineStep
  split
  · exact ⟨s, rfl, h⟩
  · split
    · exact ⟨_, rfl, inv_spoiledEnd ht ‹_›⟩
    · have hsp : (tick s).spoiled = false := by simpa using ‹¬ s.spoiled = true›
      split
      · exact ⟨s, rfl, h⟩
      · exact settle_inv ht.params ht.inWf (scanStep_inv ht ‹_› hsp)
      · exact settle_inv ht.params ht.inWf (endStep_inv ht ‹_› hsp)
      · exact settle_inv ht.params ht.inWf (checkStep_inv ht ‹_› hsp)
      · exact decodeStep_inv ht ‹_› hsp

theorem inv_of_engineStep {s t : State} (h : Inv s) (hst : engineStep s = .next t) : Inv t := by
  obtain ⟨u, hu, hinv⟩ := engineStep_inv h
  cases hst.symm.trans hu
  exact hinv

/-- A step of a sound block goes on, to a sound block: one case per action of the host. -/
theorem step_inv {s : State} (h : Inv s) : ∃ t, step s = .next t ∧ Inv t := by
  unfold step
  split
  · exact engineStep_inv h
  · exact engineStep_inv (inv_host h _)
  · rw [exec_decodeCommand]
    exact inv_start _ (inv_host h _)
  · exact ⟨_, rfl, inv_hostWriteIn _ _ (inv_host h _)⟩
  · exact ⟨_, rfl, inv_hostWriteInLen _ (inv_host h _)⟩
  · exact ⟨_, rfl, inv_reset_act (inv_host h _)⟩

/-- Settles O53: the one next state a sound block has is sound, by `step_inv`. -/
theorem stepKeepsInvariant : Obligations.StepKeepsInvariant := by
  intro s t h hst
  obtain ⟨u, hu, hinv⟩ := step_inv h
  cases hst.symm.trans hu
  exact hinv

/-- Settles O3: no operation runs, both buffers are empty and the parameters are `UNBOUNDED`. -/
theorem resetMeetsInvariant : Obligations.ResetMeetsInvariant where
  params := by simp [Params.wf, State.reset, Params.unbounded]
  inWf := List.Pairwise.nil
  out := ⟨rfl, fun _ _ => Nat.zero_le _⟩
  status := .inl rfl
  running := fun hp => absurd rfl hp
  debug := fun hs => absurd hs (by decide)

end Sys2Proof.Machine
end

section
/-! PROOFS of the statements of 10_state.md, part 2: compression on the block is compression as a function
(41_compress.md R141), one operation at a time. -/

namespace Sys2Proof.Machine

open Sys2Proof.Safety Sys2Proof.Claims

theorem CodesOk_two_le {s : State} (h : CodesOk s) : 2 ≤ s.n := h.1

theorem CodesOk_nb {s : State} (h : CodesOk s) : s.nb = bitlen s.n := h.2.2.1

theorem CodesOk_exceeds {s : State} (h : CodesOk s) : exceeds s.params.maxCodeBits (bitlen s.n) = false :=
  CodesOk_nb h ▸ exceeds_eq_false.2 h.2.2.2

/-- What a compression has built so far, as the function form holds it; `bits` is the code stream written. -/
abbrev State.enc (s : State) (bits : List Bool) : Whole.Enc := { dict := s.dictC, n := s.n, w := s.w, stream := bits }

/-- The block with what the function form has built; the code stream is the writer's. -/
abbrev State.built (t : State) (e : Whole.Enc) : State := { t with dictC := e.dict, n := e.n, nb := bitlen e.n, w := e.w }

/-- A bound is passed by what has been built, so it is passed by the result (60_exceptions.md R231). -/
def overBound (s : State) (e : Whole.Enc) : Prop :=
  exceeds s.params.outMax (e.stream.length / s.adapter.sb) = true ∨ exceeds s.params.maxCodeBits (bitlen e.n) = true

theorem overBound_mono {s : State} {e e' : Whole.Enc} (hn : e.n ≤ e'.n) (hl : e.stream.length ≤ e'.stream.length)
    (h : overBound s e) : overBound s e' :=
  h.imp (exceeds_mono (Nat.div_le_div_right hl)) (exceeds_mono (bitlen_mono hn))

/-- An operation from `s` builds `e`, with the elements of its code stream from index `o` of `OUT` on; or it ends with
`ERR_CAPACITY`, and `e` is over a bound. -/
def Builds (o : Nat) (s : State) (e : Whole.Enc) (r : Except Stop State) : Prop :=
  (∃ t, r = .ok (t.built e) ∧ CodesOk (t.built e) ∧ WriterStep s t ∧ KeepsOut s t ∧ Wrote o t e.stream) ∨
    r = .error (.cause .capacity) ∧ overBound s e

/-- Nothing done: what the block has built is what it had. -/
theorem builds_refl {o : Nat} {s : State} {bits : List Bool} (hc : CodesOk s) (ho : OutOk s) (ha : AccOk s)
    (hw : Wrote o s bits) (w : Phrase) : Builds o s { s.enc bits with w := w } (.ok { s with w := w }) := by
  have hs : { s with w := w } = s.built { s.enc bits with w := w } := by simp [← CodesOk_nb hc]
  exact .inl ⟨s, by rw [hs], hs ▸ hc, .refl ho ha, .refl s, hw⟩

/-- One more code after an operation, under a dictionary that may have changed. -/
theorem Builds.bind_advance {o : Nat} {s : State} {e : Whole.Enc} {r : Except Stop State} {d : DictC}
    {f : State → Except Stop State} (h : Builds o s e r)
    (hf : ∀ t : State, f (t.built e) = advance { t.built e with dictC := d }) :
    Builds o s { e with dict := d, n := e.n + 1 } (r.bind f) := by
  rcases h with ⟨t, rfl, hc, hstep, hkeep, hwt⟩ | ⟨rfl, hx⟩
  · have hbind : (Except.ok (t.built e)).bind f = advance { t.built e with dictC := d } := hf t
    rw [hbind]
    rcases advance_cases (s := { t.built e with dictC := d }) hc with ⟨-, hadv, hc'⟩ | ⟨hx, hadv⟩
    · exact .inl ⟨t, hadv, hc', hstep, hkeep, hwt⟩
    · exact .inr ⟨hadv, .inr (hstep.params ▸ hx)⟩
  · exact .inr ⟨rfl, overBound_mono (Nat.le_succ _) le_rfl hx⟩

theorem Builds.map_w {o : Nat} {s : State} {e : Whole.Enc} {r : Except Stop State} (h : Builds o s e r) (w : Phrase) :
    Builds o s { e with w := w } (r.map fun t => { t with w := w }) := by
  rcases h with ⟨t, rfl, h⟩ | ⟨rfl, hx⟩
  · exact .inl ⟨t, rfl, h⟩
  · exact .inr ⟨rfl, hx⟩

/-- The emission of the pending phrase is the function's emission. -/
theorem emitPhrase_enc {s : State} {o : Nat} {bits : List Bool} (hc : CodesOk s) (ho : OutOk s) (ha : AccOk s)
    (hw : Wrote o s bits) (hp : (DictC.code? s.dictC s.w).isSome ∨ ∃ u, s.w = [u]) :
    Builds o s (s.enc bits).emit (emitPhrase s.w s) := by
  have hemit : (s.enc bits).emit = { s.enc bits with
      dict := if (DictC.code? s.dictC s.w).isSome then s.dictC else DictC.add s.dictC s.w s.n
      n := s.n + if (DictC.code? s.dictC s.w).isSome then 0 else 1
      stream := bits ++ emitBits (s.enc bits) } := by
    cases hk : DictC.code? s.dictC s.w <;> simp [Whole.Enc.emit, emitBits, hk]
  have hb : emitBits (s.enc bits) = match DictC.code? s.dictC s.w with
      | some k => msb s.nb k
      | none => msb s.nb rawCode ++ (s.w.map fun u => msb rawBits u.toNat).flatten := by
    rw [CodesOk_nb hc]; rfl
  rw [hemit]
  rcases emit_wrote hc ho ha hw hp _ _ rfl hb with ⟨t, he, hstep, hkeep, hwt, hx⟩ | ⟨he, hx⟩
  · have htw : t.w = s.w := by obtain ⟨_, _, _, _, rfl, -, -⟩ := hstep; rfl
    refine .inl ⟨t, by rw [he]; simp [← htw], ⟨?_, lt_two_pow_bitlen _, rfl, ?_⟩, hstep, hkeep, hwt⟩
    · exact (CodesOk_two_le hc).trans (Nat.le_add_right _ _)
    · exact hstep.params ▸ exceeds_eq_false.1 hx
  · exact .inr ⟨he, hx.imp (by rw [List.length_append]; exact id) id⟩

/-- `SCAN` is the function's `SCAN`. -/
theorem scan_enc (c : Elem) {s : State} {o : Nat} {bits : List Bool} (hc : CodesOk s) (ho : OutOk s) (hco : CompressOk s)
    (hw : Wrote o s bits) : Builds o s ((s.enc bits).scan c) (scan c s) := by
  obtain ⟨-, ha, -, ⟨-, -, hp⟩, -⟩ := hco
  by_cases h0 : s.w = []
  · have he : (s.enc bits).scan c = { s.enc bits with w := [c] } := by simp [Whole.Enc.scan, h0]
    rw [he, scan, if_pos h0]
    exact builds_refl hc ho ha hw _
  · by_cases hs : (DictC.code? s.dictC (s.w ++ [c])).isSome
    · have he : (s.enc bits).scan c = { s.enc bits with w := s.w ++ [c] } := by
        simp [Whole.Enc.scan, h0, hs]
      rw [he, scan, if_neg h0, if_pos hs]
      exact builds_refl hc ho ha hw _
    · have he : (s.enc bits).scan c = { (s.enc bits).emit with
          dict := DictC.add (s.enc bits).emit.dict (s.w ++ [c]) (s.enc bits).emit.n
          n := (s.enc bits).emit.n + 1
          w := [c] } := by
        simp [Whole.Enc.scan, h0, hs]
      rw [he, scan, if_neg h0, if_neg hs]
      exact ((emitPhrase_enc hc ho ha hw (hp h0)).bind_advance (f := assign (s.w ++ [c])) (fun _ => rfl)).map_w [c]

/-- The final phrase and the code slot after it are those of the function, before its terminator. -/
theorem endPhrase_enc {s : State} {o : Nat} {bits : List Bool} (hc : CodesOk s) (ho : OutOk s) (hco : CompressOk s)
    (hw : Wrote o s bits) :
    ∃ d : Whole.Enc, (s.enc bits).close = { d with stream := d.stream ++ msb (bitlen d.n) eosCode } ∧
      Builds o s d (endPhrase s) := by
  obtain ⟨-, ha, -, ⟨-, -, hp⟩, -⟩ := hco
  by_cases h0 : s.w = []
  · refine ⟨s.enc bits, by simp [Whole.Enc.close, h0], ?_⟩
    rw [endPhrase, if_pos h0]
    exact builds_refl hc ho ha hw s.w
  · refine ⟨{ (s.enc bits).emit with n := (s.enc bits).emit.n + 1 }, by simp [Whole.Enc.close, h0], ?_⟩
    rw [endPhrase, if_neg h0]
    exact (emitPhrase_enc hc ho ha hw (hp h0)).bind_advance (fun _ => rfl)

/-- The result of a compression whose closed code stream is that of `e` (41_compress.md R141). -/
def encResult (ad : Adapter) (p : Params) (e : Whole.Enc) : Whole.Result :=
  if exceeds p.maxCodeBits (bitlen e.n) || exceeds p.outMax (Whole.render ad e.stream).length then .fail .capacity
  else .ok (Whole.render ad e.stream) e.n (bitlen e.n)

theorem encResult_eq_fail {ad : Adapter} {p : Params} {e : Whole.Enc}
    (h : exceeds p.maxCodeBits (bitlen e.n) = true ∨ exceeds p.outMax (Whole.render ad e.stream).length = true) :
    encResult ad p e = .fail .capacity :=
  if_pos (Bool.or_eq_true_iff.2 h)

theorem encResult_eq_ok {ad : Adapter} {p : Params} {e : Whole.Enc} (hn : exceeds p.maxCodeBits (bitlen e.n) = false)
    (hl : exceeds p.outMax (Whole.render ad e.stream).length = false) :
    encResult ad p e = .ok (Whole.render ad e.stream) e.n (bitlen e.n) :=
  if_neg (by simp [hn, hl])

/-- Over a bound, the compression can only fail: no rendering has fewer elements than its stream has whole symbols. -/
theorem encResult_of_overBound {s : State} {e : Whole.Enc} (hx : overBound s e) :
    encResult s.adapter s.params e = .fail .capacity := by
  have hdiv : e.stream.length / s.adapter.sb ≤ (e.stream.length + s.adapter.sb - 1) / s.adapter.sb :=
    Nat.div_le_div_right (by have := sb_pos s.adapter; omega)
  have hlen : e.stream.length / s.adapter.sb ≤ (Whole.render s.adapter e.stream).length := by
    simp only [Whole.render, List.length_append, List.length_map, symbols_length]; omega
  exact encResult_eq_fail (hx.symm.imp id (exceeds_mono hlen))

/-- The `C_END` step ends the compression with the function's result. -/
theorem endStep_enc {s : State} {bits : List Bool} (hc : CodesOk s) (ho : OutOk s) (hco : CompressOk s)
    (hw : Wrote 0 s bits) :
    ∃ t, settle s (endStep s) = .next t ∧ t.host = s.host ∧
      reports (encResult s.adapter s.params (s.enc bits).close) t := by
  have hfail (he : endStep s = .error (.cause .capacity))
      (hr : encResult s.adapter s.params (s.enc bits).close = .fail .capacity) :
      ∃ t, settle s (endStep s) = .next t ∧ t.host = s.host ∧
        reports (encResult s.adapter s.params (s.enc bits).close) t := by
    rw [he, hr]; exact ⟨_, rfl, rfl, rfl, rfl, rfl⟩
  obtain ⟨d, hd, hb⟩ := endPhrase_enc hc ho hco hw
  rw [hd] at hfail ⊢
  rcases hb with ⟨t, ht, hct, hstep, -, hwt⟩ | ⟨ht, hx⟩
  · have hend : endStep s =
        ((putBits (msb (bitlen d.n) eosCode) (t.built d)).bind finish).map complete := by rw [endStep, ht]; rfl
    have hwt' : Wrote 0 (t.built d) d.stream := ⟨hwt.cnt, hwt.acc, hwt.len, hwt.out⟩
    rcases wrote_putBits (msb (bitlen d.n) eosCode) hwt' hstep.out hstep.acc with ⟨a, ha, hsa, -, hwa⟩ | ⟨ha, hx⟩
    · have hax : a.adapter = s.adapter ∧ a.params = s.params :=
        ⟨hsa.adapter.trans hstep.adapter, hsa.params.trans hstep.params⟩
      rcases wrote_finish hwa hsa.out hsa.acc with ⟨b, hb, hsb, -, hlen, hout, hx⟩ | ⟨hb, hx⟩
      · rw [hax.1] at hlen hout hx
        rw [hax.2] at hx
        have hbound : exceeds s.params.maxCodeBits (bitlen d.n) = false := hstep.params ▸ CodesOk_exceeds hct
        have hnb : b.n = d.n ∧ b.nb = bitlen d.n ∧ b.host = s.host := by
          obtain ⟨_, _, _, _, rfl, -, -⟩ := hsb
          obtain ⟨_, _, _, _, rfl, -, -⟩ := hsa
          obtain ⟨_, _, _, _, rfl, -, -⟩ := hstep
          exact ⟨rfl, rfl, rfl⟩
        refine ⟨complete b, by simp only [hend, ha, Except.bind, hb, Except.map, settle], hnb.2.2, ?_⟩
        rw [encResult_eq_ok (by exact hbound) (by exact hx)]
        refine ⟨rfl, rfl, hlen, fun i hi => ?_, hnb.1, hnb.2.1⟩
        show (Table.read? b.outBuf i).getD _ = _
        rw [hout i (Nat.zero_le _) hi]; rfl
      · rw [hax.1, hax.2] at hx
        exact hfail (by simp only [hend, ha, Except.bind, hb, Except.map]) (encResult_eq_fail (.inr hx))
    · refine hfail (by simp only [hend, ha, Except.bind, Except.map]) (encResult_of_overBound (.inl ?_))
      rw [List.length_append, ← hstep.adapter, ← hstep.params]
      exact hx
  · refine hfail (by rw [endStep, ht]; rfl) (encResult_of_overBound (overBound_mono (e := d) le_rfl ?_ hx))
    simp

end Sys2Proof.Machine
end

section
/-! PROOFS of the statements of 10_state.md, part 3: a decode step on the block is one word of decompression as a function
(42_decompress.md R168), and within an operation it only adds. -/

namespace Sys2Proof.Machine

open Sys2Proof.Safety Sys2Proof.Claims

/-- The elements of `OUT`. -/
def State.outElems (s : State) : List Elem := (List.range s.outLen).map s.outAt

theorem length_outElems (s : State) : s.outElems.length = s.outLen := by simp [State.outElems]

theorem getElem_outElems {s : State} {i : Nat} (hi : i < s.outElems.length) : s.outElems[i] = s.outAt i := by
  simp [State.outElems]

/-- What a decompression has built so far, as the function form holds it. -/
abbrev State.dec (s : State) : Whole.Dec :=
  { dict := s.dictD, n := s.n, prev := s.prev, pend := s.pend, out := s.outElems }

/-- Elements written at the end of `OUT`: those before stay. -/
theorem outAt_writeFrom {s t : State} {e : Phrase} (hb : t.outBuf = writeFrom s.outBuf s.outLen e)
    (hp : t.outEpoch = s.outEpoch) {i : Nat} (hi : i < s.outLen) : t.outAt i = s.outAt i := by
  have hread : Table.read? t.outBuf i = Table.read? s.outBuf i := by rw [hb, read?_writeFrom, if_neg (by omega)]
  show (Table.read? t.outBuf i).getD (Config.freeOut t.outEpoch i) = _
  rw [hread, hp]; rfl

/-- And they come after those. -/
theorem outElems_writeFrom {s t : State} {e : Phrase} (hb : t.outBuf = writeFrom s.outBuf s.outLen e)
    (hp : t.outEpoch = s.outEpoch) (hl : t.outLen = s.outLen + e.length) : t.outElems = s.outElems ++ e := by
  apply List.ext_getElem
  · rw [List.length_append, length_outElems, length_outElems, hl]
  · intro i hi _
    rw [length_outElems, hl] at hi
    rw [getElem_outElems]
    by_cases h : i < s.outLen
    · rw [List.getElem_append_left (by rwa [length_outElems]), getElem_outElems, outAt_writeFrom hb hp h]
    · have hread : Table.read? t.outBuf i = some e[i - s.outLen] := by
        rw [hb, read?_writeFrom, if_pos (by omega), List.getElem?_eq_getElem]
      rw [List.getElem_append_right (by rw [length_outElems]; omega)]
      simp only [length_outElems]
      exact congrArg (Option.getD · _) hread

/-- What `TAIL` finds of the pending entry: none is due, or its first part is known and the entry itself is not. -/
def PendOk (s : State) : Prop :=
  s.pend = none ∨ ∃ p q w, s.prev = some p ∧ s.pend = some q ∧ q < s.n ∧ Table.read? s.dictD p = some w ∧
    Table.read? s.dictD q = none

/-- A sound decompression meets it (10_state.md R36). -/
theorem DecodeOk_pendOk {s : State} (h : DecodeOk s) : PendOk s := by
  obtain ⟨-, -, -, -, ⟨-, hq, -, -⟩ | ⟨p, q, hp, hq, hpq, hqn, hp2, hdom⟩⟩ := h
  · exact .inl hq
  · obtain ⟨w, hw⟩ := Option.isSome_iff_exists.1 ((hdom p).2 ⟨hp2, hpq⟩)
    refine .inr ⟨p, q, w, hp, hq, by omega, hw, ?_⟩
    rw [← Option.not_isSome_iff_eq_none, hdom q]
    exact fun h => Nat.lt_irrefl _ h.2

/-- The code the next `RAW` gets has no entry yet. -/
theorem DecodeOk_read?_n {s : State} (h : DecodeOk s) : Table.read? s.dictD s.n = none := by
  obtain ⟨-, -, -, -, ⟨-, -, hd, -⟩ | ⟨p, q, -, -, -, hqn, -, hdom⟩⟩ := h
  · rw [hd]; rfl
  · rw [← Option.not_isSome_iff_eq_none, hdom s.n]
    omega

/-- Within an operation: `t` comes later than `s`, and the counters and `OUT` have only grown. -/
def Grows (s t : State) : Prop :=
  s.n ≤ t.n ∧ s.nb ≤ t.nb ∧ s.outLen ≤ t.outLen ∧ ∀ i < s.outLen, t.outAt i = s.outAt i

/-- Within a decompression: nothing else has changed but its own working state, and no entry is lost. -/
def Grown (s t : State) : Prop :=
  Kept s t ∧ Grows s t ∧ ∀ k e, Table.read? s.dictD k = some e → Table.read? t.dictD k = some e

theorem Grown.kept {s t : State} (h : Grown s t) : Kept s t := h.1

theorem Grows.trans {s t u : State} (h : Grows s t) (g : Grows t u) : Grows s u := by
  obtain ⟨hn, hnb, hl, ho⟩ := h
  obtain ⟨gn, gnb, gl, go⟩ := g
  exact ⟨hn.trans gn, hnb.trans gnb, hl.trans gl, fun i hi => (go i (lt_of_lt_of_le hi hl)).trans (ho i hi)⟩

theorem Grown.trans {s t u : State} (h : Grown s t) (g : Grown t u) : Grown s u := by
  obtain ⟨hk, hg, he⟩ := h
  obtain ⟨gk, gg, ge⟩ := g
  exact ⟨hk.trans gk, hg.trans gg, fun k e hke => ge k e (he k e hke)⟩

/-- One more code and its width, with `OUT` as it was. -/
theorem grows_succ {s t : State} (hc : CodesOk s) (hn : t.n = s.n + 1) (hnb : t.nb = bitlen (s.n + 1))
    (hl : s.outLen ≤ t.outLen) (ho : ∀ i < s.outLen, t.outAt i = s.outAt i) : Grows s t :=
  ⟨by omega, by rw [hnb, CodesOk_nb hc]; exact bitlen_mono (Nat.le_succ _), hl, ho⟩

/-- A write at a code with no entry keeps every entry. -/
theorem read?_write_fresh {d : DictD} {q k : Nat} {w e : Phrase} (hq : Table.read? d q = none)
    (hk : Table.read? d k = some e) : Table.read? (Table.write d q w) k = some e := by
  rw [Table.read?_write_other _ _ (by rintro rfl; rw [hq] at hk; cases hk), hk]

/-- The first part of a pending entry is known. -/
theorem PendOk_prev {s : State} (h : PendOk s) :
    s.pend = none ∨ ∃ w, s.prev.bind (Table.read? s.dictD) = some w := by
  rcases h with hq | ⟨p, q, w, hp, -, -, hw, -⟩
  · exact .inl hq
  · exact .inr ⟨w, by rw [hp]; exact hw⟩

/-- What the fill of the pending entry writes. -/
theorem filled_cases {s : State} (h : PendOk s) (x : Elem) :
    (s.pend = none ∧ filled s x = s.dictD) ∨ ∃ p q w, s.prev = some p ∧ s.pend = some q ∧
      Table.read? s.dictD p = some w ∧ Table.read? s.dictD q = none ∧ filled s x = Table.write s.dictD q (w ++ [x]) := by
  rcases h with hq | ⟨p, q, w, hp, hq, -, hw, hfree⟩
  · exact .inl ⟨hq, by simp [filled, hq]⟩
  · exact .inr ⟨p, q, w, hp, hq, hw, hfree, by simp [filled, hp, hq, hw]⟩

/-- It keeps every entry. -/
theorem read?_filled {s : State} (h : PendOk s) (x : Elem) {k : Nat} {e : Phrase} (hk : Table.read? s.dictD k = some e) :
    Table.read? (filled s x) k = some e := by
  rcases filled_cases h x with ⟨-, hf⟩ | ⟨p, q, w, -, -, -, hfree, hf⟩ <;> rw [hf]
  · exact hk
  · exact read?_write_fresh hfree hk

/-- `TAIL` is the function's `TAIL`: one more code, or `ERR_CAPACITY`. -/
theorem tail_dec (k : Nat) (x : Elem) (e : Phrase) {s : State} (hc : CodesOk s) (ho : OutOk s) (hp : PendOk s) :
    (∃ t, tail k (x :: e) s = .ok t ∧ Whole.Dec.tail s.params k (x :: e) s.dec = some t.dec ∧
      Grown s t ∧ t.n = s.n + 1 ∧ t.bp = s.bp) ∨
    tail k (x :: e) s = .error (.cause .capacity) ∧ Whole.Dec.tail s.params k (x :: e) s.dec = none := by
  have hfill : (match s.pend with
      | none => s.dictD
      | some q => Table.write s.dictD q (((s.prev.bind (Table.read? s.dictD)).getD []) ++ [x])) = filled s x := by
    rcases filled_cases hp x with ⟨hq, hf⟩ | ⟨p, q, w, hp, hq, hw, -, hf⟩ <;> rw [hf]
    · simp [hq]
    · simp [hp, hq, hw]
  have hlen : s.dec.out.length = s.outLen := length_outElems s
  have hcons : (x :: e).length = e.length + 1 := rfl
  have htail := tail_eq (k := k) (x := x) (e := e) hc ho (PendOk_prev hp)
  rw [dec_tail_eq, hlen, hcons]
  split at htail
  · exact .inr ⟨htail, if_pos ‹_›⟩
  · refine .inl ⟨_, htail, (if_neg ‹_›).trans ?_,
      ⟨tail_kept htail, grows_succ hc rfl rfl (Nat.le_add_right _ _) ?_, fun _ _ => read?_filled hp x⟩, rfl, rfl⟩
    · congr 1
      simp only [Whole.Dec.mk.injEq]
      exact ⟨hfill, trivial, trivial, trivial, (outElems_writeFrom (by rfl) (by rfl) (by rfl)).symm⟩
    · intro i hi
      exact outAt_writeFrom (e := x :: e) (by rfl) (by rfl) hi

/-- What a decode step does, and the function with it: it ends the operation with a cause or with success, or it goes on,
with one word more. -/
def DecodesAlike (s : State) (r : Host.Outcome State Fault Refusal) : Prop :=
  (∃ c, r = .next (fail c s) ∧ ∀ f, Whole.decodeStream s.params (f + 1) s.dec s.restBits = .fail c) ∨
  (r = .next (complete (s.consume s.nb)) ∧
    ∀ f, Whole.decodeStream s.params (f + 1) s.dec s.restBits = .ok s.outElems s.n s.nb) ∨
  ∃ t, r = .next t ∧
    (∀ f, Whole.decodeStream s.params (f + 1) s.dec s.restBits = Whole.decodeStream s.params f t.dec t.restBits) ∧
    Grown s t ∧ t.n ≤ s.n + 2 ∧ s.bp + s.nb ≤ t.bp

/-- The rest of a decompression as a function after a word, if the word fitted. -/
def decodeOn (p : Params) (f : Nat) (bits : List Bool) : Option Whole.Dec → Whole.Result
  | none => .fail .capacity
  | some d => Whole.decodeStream p f d bits

/-- A word that ends with `TAIL`, run from a state `u` that has grown from `s`. -/
theorem decodesAlike_tail {s u : State} (k : Nat) (x : Elem) (e : Phrase) (hc : CodesOk u) (ho : OutOk u) (hp : PendOk u)
    (hg : Grown s u) (hn : u.n ≤ s.n + 1) (hb : s.bp + s.nb ≤ u.bp)
    (hs : ∀ f, Whole.decodeStream s.params (f + 1) s.dec s.restBits =
      decodeOn s.params f u.restBits (Whole.Dec.tail s.params k (x :: e) u.dec)) :
    DecodesAlike s (settle s (tail k (x :: e) u)) := by
  rcases tail_dec k x e hc ho hp with ⟨t, ht, hdt, hgt, hnt, hbt⟩ | ⟨ht, hdt⟩ <;> rw [hg.kept.params] at hdt
  · refine .inr (.inr ⟨t, by rw [ht]; rfl, fun f => ?_, hg.trans hgt, by omega, by omega⟩)
    have hrest : t.restBits = u.restBits := congrArg₂ List.drop hbt hgt.kept.bits
    rw [hs f, hdt, decodeOn, hrest]
  · exact .inl ⟨.capacity, by rw [ht]; rfl, fun f => by rw [hs f, hdt, decodeOn]⟩

theorem grown_consume (s : State) (k : Nat) : Grown s (s.consume k) :=
  ⟨⟨rfl, rfl, rfl, rfl, rfl, rfl, rfl, rfl, rfl, rfl, rfl⟩, ⟨le_rfl, le_rfl, le_rfl, fun _ _ => rfl⟩, fun _ _ h => h⟩

/-- The bits after those consumed. -/
theorem restBits_consume (s : State) (k : Nat) : (s.consume k).restBits = s.restBits.drop k :=
  List.drop_drop.symm

theorem length_restBits (s : State) : s.restBits.length = s.bits.length - s.bp := List.length_drop

/-- `RAW`, R163, as a word of the function. -/
theorem execRaw_dec (u : Elem) {s : State} (hc : CodesOk s) (ho : OutOk s) (hp : PendOk s)
    (hfree : Table.read? s.dictD s.n = none) (hs : ∀ f, Whole.decodeStream s.params (f + 1) s.dec s.restBits =
      decodeOn s.params f (s.restBits.drop (s.nb + rawBits))
        ((Whole.Dec.advance s.params { s.dec with dict := Table.write s.dec.dict s.dec.n [u] }).bind
          (Whole.Dec.tail s.params s.dec.n [u]))) :
    DecodesAlike s (execRaw u s) := by
  set a : State := { s.consume (s.nb + rawBits) with dictD := Table.write s.dictD s.n [u] }
  have hexec : execRaw u s = settle s ((advance a).bind (tail s.n [u])) := rfl
  rw [hexec]
  rcases advance_cases (s := a) hc with ⟨hx, hadv, hc'⟩ | ⟨hx, hadv⟩ <;> rw [hadv]
  · have hadvd : Whole.Dec.advance s.params { s.dec with dict := Table.write s.dec.dict s.dec.n [u] } =
        some { s.dec with dict := Table.write s.dictD s.n [u], n := s.n + 1 } :=
      if_neg (Bool.eq_false_iff.1 hx)
    refine decodesAlike_tail s.n u [] hc' ho ?_ ?_ le_rfl (by show s.bp + s.nb ≤ s.bp + (s.nb + rawBits); omega) ?_
    · refine hp.imp id ?_
      rintro ⟨p, q, w, hp, hq, hqn, hw, hqfree⟩
      exact ⟨p, q, w, hp, hq, Nat.lt_succ_of_lt hqn, read?_write_fresh hfree hw,
        (Table.read?_write_other _ _ hqn.ne).trans hqfree⟩
    · exact ⟨⟨rfl, rfl, rfl, rfl, rfl, rfl, rfl, rfl, rfl, rfl, rfl⟩, grows_succ hc rfl rfl le_rfl fun _ _ => rfl,
        fun _ _ h => read?_write_fresh hfree h⟩
    · intro f
      rw [hs f, hadvd, ← restBits_consume]; rfl
  · refine .inl ⟨.capacity, rfl, fun f => ?_⟩
    have hadvd : Whole.Dec.advance s.params { s.dec with dict := Table.write s.dec.dict s.dec.n [u] } = none :=
      if_pos hx
    rw [hs f, hadvd]; rfl

/-- The first unit of an entry is there: no entry is empty. -/
theorem DecodeOk_entry {s : State} (h : DecodeOk s) {k : Nat} {e : Phrase} (hk : Table.read? s.dictD k = some e) :
    ∃ x e', e = x :: e' := by
  obtain ⟨-, -, hne, -, -⟩ := h
  exact List.exists_cons_of_ne_nil (hne _ (Table.mem_of_read? hk))

/-- A word that `TAIL` can end with, R164 and R165, as a word of the function. -/
theorem reference_dec {s : State} {k : Nat} {rest : List Bool} {x : Elem} {e : Phrase} (hc : CodesOk s) (ho : OutOk s)
    (hp : PendOk s) (htk : takeBits (bitlen s.dec.n) s.restBits = some (k, rest)) (hk1 : k ≠ eosCode) (hk0 : k ≠ rawCode)
    (hprev : s.dec.prev ≠ none) (hw : s.dec.word? k = some (x :: e)) :
    DecodesAlike s (settle s (tail k (x :: e) (s.consume s.nb))) := by
  obtain ⟨-, -, hrest, -⟩ := takeBits_eq_some htk
  refine decodesAlike_tail k x e hc ho hp (grown_consume s s.nb) (Nat.le_succ _) le_rfl fun f => ?_
  simp only [Whole.decodeStream.eq_2, htk, if_neg hk1, if_neg hk0, if_neg hprev, hw]
  rw [hrest, restBits_consume, CodesOk_nb hc]; rfl

/-- What the `D_DECODE` step runs: the code word it reads, or a failure where there is none to read. -/
theorem decodeStep_eq (s : State) :
    (∀ i tl, decodeCode s.codeCtx s.restBits = .ok (i, tl) → decodeStep s = exec i s) ∧
    ∀ e, decodeCode s.codeCtx s.restBits = .error e → decodeStep s = .next (fail .truncated s) := by
  unfold decodeStep
  constructor
  · intro i tl h
    rw [h]
  · intro e h
    rw [h]

/-- A decode step on a code that is neither `EOS` nor `RAW`: a known entry, the one-ahead entry, or an illegal code
(30_encoding.md R74). -/
theorem decodeStep_code_dec {s : State} {k : Nat} {rest : List Bool} (hc : CodesOk s) (ho : OutOk s) (hd : DecodeOk s)
    (htk : takeBits (bitlen s.dec.n) s.restBits = some (k, rest)) (hk1 : k ≠ eosCode) (hk0 : k ≠ rawCode)
    (hcode : decodeCode s.codeCtx s.restBits =
      if s.dec.prev = none then .ok (.illegalCode k, rest)
      else if s.codeCtx.known.contains k then .ok (.ref k, rest)
      else if s.dec.pend = some k then .ok (.refAhead k, rest)
      else .ok (.illegalCode k, rest)) :
    DecodesAlike s (decodeStep s) := by
  have hp := DecodeOk_pendOk hd
  obtain ⟨hrun, -⟩ := decodeStep_eq s
  by_cases hprev : s.dec.prev = none
  · refine .inl ⟨.badCode, hrun _ _ (hcode.trans (if_pos hprev)), fun f => ?_⟩
    simp only [Whole.decodeStream.eq_2, htk, if_neg hk1, if_neg hk0, if_pos hprev]
  have hknown : s.codeCtx.known.contains k = (Table.read? s.dictD k).isSome := by
    rw [Bool.eq_iff_iff, Table.read?_isSome, List.contains_iff_mem]; rfl
  rw [if_neg hprev, hknown] at hcode
  cases hr : Table.read? s.dictD k with
  | some e =>
    rw [hr] at hcode
    have hstep : decodeStep s = settle s (tail k e (s.consume s.nb)) := by
      rw [hrun (.ref k) rest hcode]; simp only [exec, execRef, hr]
    obtain ⟨x, e, rfl⟩ := DecodeOk_entry hd hr
    rw [hstep]
    exact reference_dec hc ho hp htk hk1 hk0 hprev (by simp [Whole.Dec.word?, hr])
  | none =>
    rw [hr] at hcode
    by_cases hpk : s.pend = some k
    · rcases hp with hq | ⟨p, q, w, hpv, -, -, hw, -⟩
      · exact absurd (hq.symm.trans hpk) (by simp)
      obtain ⟨x, w, rfl⟩ := DecodeOk_entry hd hw
      have hbind : s.prev.bind (Table.read? s.dictD) = some (x :: w) := by rw [hpv]; exact hw
      have hstep : decodeStep s = settle s (tail k (x :: (w ++ [x])) (s.consume s.nb)) := by
        rw [hrun (.refAhead k) rest (hcode.trans (if_pos hpk))]; simp only [exec, execRefAhead, hbind, List.cons_append]
      rw [hstep]
      exact reference_dec hc ho (DecodeOk_pendOk hd) htk hk1 hk0 hprev (by simp [Whole.Dec.word?, hr, hbind, hpk])
    · refine .inl ⟨.badCode, hrun _ _ (hcode.trans (if_neg hpk)), fun f => ?_⟩
      have hw : s.dec.word? k = none := by simp [Whole.Dec.word?, hr, hpk]
      simp only [Whole.decodeStream.eq_2, htk, if_neg hk1, if_neg hk0, if_neg hprev, hw]

/-- A decode step is one word of the function: the cases are those of 42_decompress.md R161. -/
theorem decodeStep_dec {s : State} (hc : CodesOk s) (ho : OutOk s) (hd : DecodeOk s) : DecodesAlike s (decodeStep s) := by
  have hnb : s.codeCtx.nb = bitlen s.dec.n := CodesOk_nb hc
  obtain ⟨hrun, herror⟩ := decodeStep_eq s
  cases htk : takeBits (bitlen s.dec.n) s.restBits with
  | none =>
    have hdec : decodeCode s.codeCtx s.restBits = .error .truncatedCode := by simp only [decodeCode, hnb, htk]
    exact .inl ⟨.truncated, herror _ hdec, fun f => by simp only [Whole.decodeStream.eq_2, htk]⟩
  | some kr =>
    obtain ⟨k, rest⟩ := kr
    obtain ⟨-, -, hrest, -⟩ := takeBits_eq_some htk
    by_cases hk1 : k = eosCode
    · have hdec : decodeCode s.codeCtx s.restBits = .ok (.eos, rest) := by simp only [decodeCode, hnb, htk, if_pos hk1]
      refine .inr (.inl ⟨hrun _ _ hdec, fun f => ?_⟩)
      simp only [Whole.decodeStream.eq_2, htk, if_pos hk1]
      rw [CodesOk_nb hc]
    by_cases hk0 : k = rawCode
    · cases htk2 : takeBits rawBits rest with
      | none =>
        have hdec : decodeCode s.codeCtx s.restBits = .error .truncatedLiteral := by
          simp only [decodeCode, hnb, htk, if_neg hk1, if_pos hk0, htk2]
        refine .inl ⟨.truncated, herror _ hdec, fun f => ?_⟩
        simp only [Whole.decodeStream.eq_2, htk, if_neg hk1, if_pos hk0, htk2]
      | some ur =>
        obtain ⟨u, rest'⟩ := ur
        obtain ⟨-, -, hrest', -⟩ := takeBits_eq_some htk2
        have hdec : decodeCode s.codeCtx s.restBits = .ok (.raw (BitVec.ofNat 16 u), rest') := by
          simp only [decodeCode, hnb, htk, if_neg hk1, if_pos hk0, htk2]
        rw [hrun _ _ hdec]
        refine execRaw_dec _ hc ho (DecodeOk_pendOk hd) (DecodeOk_read?_n hd) fun f => ?_
        simp only [Whole.decodeStream.eq_2, htk, if_neg hk1, if_pos hk0, htk2]
        rw [hrest', hrest, List.drop_drop, CodesOk_nb hc]; rfl
    · refine decodeStep_code_dec hc ho hd htk hk1 hk0 ?_
      simp only [decodeCode, hnb, htk, if_neg hk1, if_neg hk0]; rfl

end Sys2Proof.Machine
end

section
/-! PROOFS of the statements of 10_state.md, part 4: what one step of the block writes, and what it only adds to. -/

namespace Sys2Proof.Machine

open Sys2Proof.Safety Sys2Proof.Claims

/-! ## One engine step, by phase (70_reset_and_hazards.md R262) -/

theorem step_of_engineTurn {s : State} {rest : List HostAct} (h : engineTurn s rest) :
    step s = engineStep { s with host := rest } := by
  rcases h with ⟨h, rfl⟩ | h <;> simp only [step, h]
  rw [← h]

theorem engineStep_idle {s : State} (hp : s.phase = .idle) : engineStep s = .next s := by simp [engineStep, hp]

theorem engineStep_spoiled {s : State} (hp : s.phase ≠ .idle) (hs : s.spoiled = true) :
    engineStep s = .next (spoiledEnd (tick s)) := by simp [engineStep, hp, hs]

theorem engineStep_cScan {s : State} (hp : s.phase = .cScan) (hs : s.spoiled = false) :
    engineStep s = settle (tick s) (scanStep (tick s)) := by simp [engineStep, hp, hs]

theorem engineStep_cEnd {s : State} (hp : s.phase = .cEnd) (hs : s.spoiled = false) :
    engineStep s = settle (tick s) (endStep (tick s)) := by simp [engineStep, hp, hs]

theorem engineStep_dCheck {s : State} (hp : s.phase = .dCheck) (hs : s.spoiled = false) :
    engineStep s = settle (tick s) (checkStep (tick s)) := by simp [engineStep, hp, hs]

theorem engineStep_dDecode {s : State} (hp : s.phase = .dDecode) (hs : s.spoiled = false) :
    engineStep s = decodeStep (tick s) := by simp [engineStep, hp, hs]

/-- What a sound running compression scans with. -/
theorem Inv_cScan {s : State} (h : Inv s) (hp : s.phase = .cScan) (hs : s.spoiled = false) : CodesOk s ∧ CompressOk s := by
  obtain ⟨hc, hrun⟩ := h.running (by simp [hp]) hs
  rw [hp] at hrun
  exact ⟨hc, hrun⟩

theorem Inv_cEnd {s : State} (h : Inv s) (hp : s.phase = .cEnd) (hs : s.spoiled = false) : CodesOk s ∧ CompressOk s := by
  obtain ⟨hc, hrun⟩ := h.running (by simp [hp]) hs
  rw [hp] at hrun
  obtain ⟨hco, -⟩ := hrun
  exact ⟨hc, hco⟩

/-- What a sound running decompression decodes with. -/
theorem Inv_dDecode {s : State} (h : Inv s) (hp : s.phase = .dDecode) (hs : s.spoiled = false) :
    CodesOk s ∧ DecodeOk s := by
  obtain ⟨hc, hrun⟩ := h.running (by simp [hp]) hs
  rw [hp] at hrun
  exact ⟨hc, hrun⟩

/-! ## `STATUS` and `CMD` -/

/-- The engine leaves `CMD` alone, and `STATUS` too unless the operation ends. -/
def KeepsReport (s t : State) : Prop := t.cmd = s.cmd ∧ (t.status = s.status ∨ t.phase = .idle)

theorem keepsReport_of_kept {s t : State} (h : Kept s t) : KeepsReport s t := ⟨h.cmd, .inl h.status⟩

/-- A step that fails ends the operation, so only a step that ends well has to be looked at. -/
theorem settle_keepsReport {s t : State} {r : Except Stop State} (h : settle s r = .next t)
    (hr : ∀ u, r = .ok u → KeepsReport s u) : KeepsReport s t := by
  rcases settle_eq_next.1 h with h | ⟨c, -, rfl⟩
  · exact hr t h
  · exact ⟨rfl, .inr rfl⟩

theorem spoiledEnd_keepsReport (s : State) : KeepsReport s (spoiledEnd s) := by
  unfold spoiledEnd
  split
  · exact ⟨rfl, .inr rfl⟩
  · split <;> exact ⟨rfl, .inr rfl⟩

/-- The `C_SCAN` step. -/
theorem scanStep_keepsReport {s t : State} (h : scanStep s = .ok t) : KeepsReport s t := by
  unfold scanStep at h
  split at h
  · obtain ⟨u, hu, rfl⟩ := map_eq_ok.1 h
    exact ⟨(scan_kept hu).cmd, .inl (scan_kept hu).status⟩
  · cases h
    exact ⟨rfl, .inl rfl⟩

theorem endPhrase_kept {s t : State} (h : endPhrase s = .ok t) : Kept s t := by
  unfold endPhrase at h
  split at h
  · cases h
    exact .refl _
  · obtain ⟨u, hu, ht⟩ := bind_eq_ok.1 h
    exact (emitPhrase_kept hu).trans (advance_kept ht)

/-- The `C_END` step. -/
theorem endStep_keepsReport {s t : State} (h : endStep s = .ok t) : KeepsReport s t := by
  obtain ⟨u, hu, rfl⟩ := map_eq_ok.1 h
  obtain ⟨v, hv, hu⟩ := bind_eq_ok.1 hu
  obtain ⟨w, hw, hv⟩ := bind_eq_ok.1 hv
  have hkept : Kept s u := ((endPhrase_kept hw).trans (putBits_kept hv)).trans (finish_kept hu)
  exact ⟨hkept.cmd, .inr rfl⟩

/-- What the `D_CHECK` step does when every element is legal. -/
theorem checkStep_eq_ok {s t : State} (h : checkStep s = .ok t) :
    ∃ b, t = { s with bits := b, bp := 0, phase := .dDecode } := by
  obtain ⟨u, hu, rfl⟩ := map_eq_ok.1 h
  unfold unpack at hu
  split at hu
  · cases hu
  · cases hu
    exact ⟨_, rfl⟩

/-- An engine step, by phase. -/
theorem engineStep_keepsReport {s t : State} (h : Inv s) (hst : engineStep s = .next t) :
    t.cmd = s.cmd ∧ (t.status = s.status ∨ s.phase ≠ .idle ∧ t.phase = .idle) := by
  by_cases hp : s.phase = .idle
  · rw [engineStep_idle hp] at hst
    cases hst
    exact ⟨rfl, .inl rfl⟩
  have ht := inv_tick h
  suffices hk : KeepsReport (tick s) t from ⟨hk.1, hk.2.imp id fun hi => ⟨hp, hi⟩⟩
  cases hs : s.spoiled with
  | true =>
    rw [engineStep_spoiled hp hs] at hst
    cases hst
    exact spoiledEnd_keepsReport _
  | false =>
    cases hph : s.phase with
    | idle => exact absurd hph hp
    | cScan =>
      rw [engineStep_cScan hph hs] at hst
      exact settle_keepsReport hst fun _ => scanStep_keepsReport
    | cEnd =>
      rw [engineStep_cEnd hph hs] at hst
      exact settle_keepsReport hst fun _ => endStep_keepsReport
    | dCheck =>
      rw [engineStep_dCheck hph hs] at hst
      refine settle_keepsReport hst fun u hu => ?_
      obtain ⟨b, rfl⟩ := checkStep_eq_ok hu
      exact ⟨rfl, .inl rfl⟩
    | dDecode =>
      rw [engineStep_dDecode hph hs] at hst
      obtain ⟨hc, hd⟩ := Inv_dDecode ht hph hs
      rcases decodeStep_dec hc ht.out hd with ⟨c, he, -⟩ | ⟨he, -⟩ | ⟨u, he, -, hg, -⟩ <;> cases hst.symm.trans he
      · exact ⟨rfl, .inr rfl⟩
      · exact ⟨rfl, .inr rfl⟩
      · exact keepsReport_of_kept hg.kept

/-- Settles O48: one case per action of the host; the engine's part is `engineStep_keepsReport`. -/
theorem statusAndCmdWrittenOnlyThere : Obligations.StatusAndCmdWrittenOnlyThere := by
  intro s t h hst
  have hengine (rest : List HostAct) (hturn : engineTurn s rest) :
      t.cmd = s.cmd ∧ (t.status ≠ s.status → s.phase ≠ .idle ∧ t.phase = .idle) := by
    rw [step_of_engineTurn hturn] at hst
    obtain ⟨hcmd, hstat⟩ := engineStep_keepsReport (inv_host h rest) hst
    exact ⟨hcmd, hstat.resolve_left⟩
  cases hh : s.host with
  | nil =>
    obtain ⟨hcmd, hstat⟩ := hengine [] (.inl ⟨hh, rfl⟩)
    exact ⟨fun hne => .inr (.inr ⟨[], .inl ⟨hh, rfl⟩, hstat hne⟩), fun hne => absurd hcmd hne⟩
  | cons a rest =>
    cases a with
    | engine =>
      obtain ⟨hcmd, hstat⟩ := hengine rest (.inr hh)
      exact ⟨fun hne => .inr (.inr ⟨rest, .inr hh, hstat hne⟩), fun hne => absurd hcmd hne⟩
    | writeCmd v =>
      rw [step_of_host_writeCmd hh, exec_decodeCommand] at hst
      rcases start_cases v { s with host := rest } with ⟨-, he⟩ | ⟨hb, -, he⟩ | ⟨hb, -, he⟩ <;>
        cases hst.symm.trans he
      · exact ⟨fun hne => absurd rfl hne, fun hne => absurd rfl hne⟩
      · exact ⟨fun _ => .inl ⟨v, rest, rfl, hb⟩, fun _ => .inl ⟨rest, rfl, hb⟩⟩
      · exact ⟨fun _ => .inl ⟨v, rest, rfl, hb⟩, fun _ => .inl ⟨rest, rfl, hb⟩⟩
    | writeIn i x =>
      simp only [step, hh, Host.Outcome.next.injEq] at hst
      subst hst
      exact ⟨fun hne => absurd rfl hne, fun hne => absurd rfl hne⟩
    | writeInLen n =>
      simp only [step, hh, Host.Outcome.next.injEq] at hst
      subst hst
      exact ⟨fun hne => absurd rfl hne, fun hne => absurd rfl hne⟩
    | powerOnReset => exact ⟨fun _ => .inr (.inl ⟨rest, rfl⟩), fun _ => .inr ⟨rest, rfl⟩⟩

/-! ## Growth within an operation -/

/-- A scan step as a function keeps every code, and adds at most two. -/
theorem enc_scan_grows (e : Whole.Enc) (c : Elem) : e.n ≤ (e.scan c).n ∧ (e.scan c).n ≤ e.n + 2 ∧
    ∀ p k, DictC.code? e.dict p = some k → DictC.code? (e.scan c).dict p = some k := by
  refine ⟨(enc_scan_mono e c).1, ?_⟩
  unfold Whole.Enc.scan
  split
  · exact ⟨Nat.le_add_right _ _, fun _ _ h => h⟩
  · split
    · exact ⟨Nat.le_add_right _ _, fun _ _ h => h⟩
    · rename_i hnone
      have hnew := emit_new (Option.not_isSome_iff_eq_none.1 hnone)
      refine ⟨by have := (emit_mono_n e).1; show e.emit.n + 1 ≤ e.n + 2; omega, fun p k hk => ?_⟩
      have hemit : DictC.code? e.emit.dict p = some k := by
        unfold Whole.Enc.emit
        split
        · exact hk
        · rename_i hw
          rw [DictC.code?_add, if_neg (by rintro rfl; rw [hw] at hk; cases hk), hk]
      show DictC.code? (DictC.add _ _ _) p = some k
      rw [DictC.code?_add, if_neg (by rintro rfl; rw [hnew] at hemit; cases hemit), hemit]

/-- What has been written up to here, taken as it stands in `OUT` and `ACC` (10_state.md R34). -/
theorem wrote_written {s : State} (ha : AccOk s) : Wrote s.outLen s (written s) := by
  obtain ⟨hcnt, hacc⟩ := ha
  have hsymbols : (((List.range s.outLen).map fun i =>
      msb s.adapter.sb ((s.adapter.dec (s.outAt i)).getD 0)).flatten).length = s.outLen * s.adapter.sb := by simp [List.length_flatten, Function.comp_def]
  have hlen : (written s).length = s.outLen * s.adapter.sb + s.accCnt := by
    rw [written, List.length_append, hsymbols, msb_length]
  refine ⟨?_, ?_, ?_, fun i hi hi' => absurd hi' (Nat.not_lt.2 hi)⟩
  · rw [hlen, Nat.mul_add_mod_of_lt hcnt]
  · rw [written, List.drop_left' hsymbols, val_msb_of_lt hacc]
  · rw [hlen, Nat.mul_comm, Nat.mul_add_div (sb_pos _), Nat.div_eq_of_lt hcnt, Nat.add_zero]

/-- The `C_SCAN` step: the cursor moves on and no code is lost. -/
theorem scanStep_grows {s t : State} (hc : CodesOk s) (ho : OutOk s) (hco : CompressOk s) (h : scanStep s = .ok t) :
    Grows s t ∧ t.n ≤ s.n + 2 ∧ s.inPtr ≤ t.inPtr ∧
      ∀ p k, DictC.code? s.dictC p = some k → DictC.code? t.dictC p = some k := by
  have ha : AccOk s := by obtain ⟨-, ha, -⟩ := hco; exact ha
  unfold scanStep at h
  split at h
  · obtain ⟨u, hu, rfl⟩ := map_eq_ok.1 h
    rcases scan_enc (s.inAt s.inPtr) hc ho hco (wrote_written ha) with ⟨a, ht, -, hstep, hkeep, -⟩ | ⟨ht, -⟩ <;>
      cases hu.symm.trans ht
    obtain ⟨hle, hadd, hcodes⟩ := enc_scan_grows (s.enc (written s)) (s.inAt s.inPtr)
    have hkept : a.inPtr = s.inPtr ∧ a.outEpoch = s.outEpoch := by
      obtain ⟨_, _, _, _, rfl, -, -⟩ := hstep
      exact ⟨rfl, rfl⟩
    refine ⟨⟨hle, ?_, hkeep.1, fun i hi => ?_⟩, hadd, ?_, hcodes⟩
    · rw [CodesOk_nb hc]; exact bitlen_mono hle
    · show (Table.read? a.outBuf i).getD (Config.freeOut a.outEpoch i) = _
      rw [hkeep.2 i hi, hkept.2]; rfl
    · show s.inPtr ≤ a.inPtr + 1
      omega
  · cases h
    exact ⟨⟨le_rfl, le_rfl, le_rfl, fun _ _ => rfl⟩, Nat.le_add_right _ _, le_rfl, fun _ _ h => h⟩

/-- The `D_DECODE` step, unless it ends the operation: the cursor passes a code word and no entry is lost. -/
theorem decodeStep_grows {s t : State} (hc : CodesOk s) (ho : OutOk s) (hd : DecodeOk s) (h : decodeStep s = .next t)
    (hp : t.phase ≠ .idle) :
    Grows s t ∧ t.n ≤ s.n + 2 ∧ s.bp + s.nb ≤ t.bp ∧ t.bits = s.bits ∧
      ∀ k e, Table.read? s.dictD k = some e → Table.read? t.dictD k = some e := by
  rcases decodeStep_dec hc ho hd with ⟨c, he, -⟩ | ⟨he, -⟩ | ⟨u, he, -, ⟨hk, hg, hentries⟩, hn, hb⟩ <;>
    cases h.symm.trans he
  · exact absurd rfl hp
  · exact absurd rfl hp
  · exact ⟨hg, hn, hb, hk.bits, hentries⟩

/-- An engine step that fails ends the operation; so one that does not end it went well. -/
theorem settle_running {s t : State} {r : Except Stop State} (h : settle s r = .next t) (hp : t.phase ≠ .idle) :
    r = .ok t := by
  rcases settle_eq_next.1 h with h | ⟨c, -, rfl⟩
  · exact h
  · exact absurd rfl hp

/-- An engine step that does not end the operation, by phase. The end of a compression always ends it, and the check only
unpacks. -/
theorem engineStep_grows {s t : State} (hinv : Inv s) (hp : s.phase ≠ .idle) (hs : s.spoiled = false)
    (hst : engineStep s = .next t) (htp : t.phase ≠ .idle) :
    Grows s t ∧ t.n ≤ s.n + 2 ∧
      (s.phase = .cScan → s.inPtr ≤ t.inPtr ∧
        ∀ p k, DictC.code? s.dictC p = some k → DictC.code? t.dictC p = some k) ∧
      (s.phase = .dDecode → s.bp + s.nb ≤ t.bp ∧ t.bits = s.bits ∧
        ∀ k e, Table.read? s.dictD k = some e → Table.read? t.dictD k = some e) := by
  have ht := inv_tick hinv
  cases hph : s.phase with
  | idle => exact absurd hph hp
  | cScan =>
    rw [engineStep_cScan hph hs] at hst
    obtain ⟨hc, hco⟩ := Inv_cScan ht hph hs
    obtain ⟨hg, hn, hgrow⟩ := scanStep_grows hc ht.out hco (settle_running hst htp)
    exact ⟨hg, hn, fun _ => hgrow, nofun⟩
  | cEnd =>
    rw [engineStep_cEnd hph hs] at hst
    obtain ⟨u, -, rfl⟩ := map_eq_ok.1 (settle_running hst htp)
    exact absurd rfl htp
  | dCheck =>
    rw [engineStep_dCheck hph hs] at hst
    obtain ⟨b, rfl⟩ := checkStep_eq_ok (settle_running hst htp)
    exact ⟨⟨le_rfl, le_rfl, le_rfl, fun _ _ => rfl⟩, Nat.le_add_right _ _, nofun, nofun⟩
  | dDecode =>
    rw [engineStep_dDecode hph hs] at hst
    obtain ⟨hc, hd⟩ := Inv_dDecode ht hph hs
    obtain ⟨hg, hn, hgrow⟩ := decodeStep_grows hc ht.out hd hst htp
    exact ⟨hg, hn, nofun, fun _ => hgrow⟩

/-- Settles O50: the step is the engine's, and `engineStep_grows` says what it adds. -/
theorem withinAnOperationOnlyGrowth : Obligations.WithinAnOperationOnlyGrowth := by
  rintro s t ph rest ⟨hinv, rfl, hs, hturn⟩ hp hst htp
  rw [step_of_engineTurn hturn] at hst
  obtain ⟨⟨hn, hnb, hl, ho⟩, hn2, hgrow⟩ := engineStep_grows (inv_host hinv rest) hp hs hst htp
  exact ⟨hn, hn2, hnb, hl, ho, hgrow⟩

end Sys2Proof.Machine
end

section
/-! PROOFS of the statements of 10_state.md, part 5: a command on the block computes its function (44_commands.md R221), so
its report depends on the command, the input and the parameters alone. -/

namespace Sys2Proof.Machine

open Sys2Proof.Safety Sys2Proof.Claims

/-- With the host's list empty, the engine takes the step. -/
theorem run_engineStep {s t : State} (k : Nat) (hh : s.host = []) (h : engineStep s = .next t) : run (k + 1) s = run k t :=
  run_next k (by simpa only [step, hh] using h)

/-- An operation that has ended keeps its report (60_exceptions.md R243). -/
theorem reports_idle {r : Whole.Result} {t : State} (h : reports r t) : t.phase = .idle := by
  cases r with
  | ok out n nb => exact h.2.1
  | fail c => exact h.2.2

/-- The operation ends at the next engine step; the steps left over change nothing. -/
theorem run_ends {s t : State} {r : Whole.Result} (k : Nat) (hh : s.host = []) (h : engineStep s = .next t)
    (ht : t.host = s.host) (hr : reports r t) : ∃ u, run (k + 1) s = .next u ∧ reports r u := by
  rw [run_engineStep k hh h, run_idle (ht.trans hh) (reports_idle hr)]
  exact ⟨t, rfl, hr⟩

/-- The report of a failure, as a result. -/
theorem reports_fail (c : Cause) (s : State) : reports (.fail c) (fail c s) := ⟨rfl, rfl, rfl⟩

/-! ## Compression -/

/-- The input units not yet scanned, `j` of them. -/
def State.unread (s : State) (j : Nat) : List Elem := (List.range' s.inPtr j).map s.inAt

/-- A compression with `j` units to scan ends with the function's result after `j + 2` steps. -/
theorem run_compress (j : Nat) {s : State} {bits : List Bool} (hinv : Inv s) (hp : s.phase = .cScan) (hs : s.spoiled = false)
    (hh : s.host = []) (hj : s.inPtr + j = s.inLen) (hw : Wrote 0 s bits) :
    ∃ t, run (j + 2) s = .next t ∧
      reports (encResult s.adapter s.params ((s.unread j).foldl Whole.Enc.scan (s.enc bits)).close) t := by
  induction j generalizing s bits with
  | zero =>
    set u : State := { tick s with phase := .cEnd }
    have hu : engineStep s = .next u := by
      rw [engineStep_cScan hp hs, scanStep, if_neg (by simp only [tick_inPtr, tick_inLen]; omega)]; rfl
    have hinvu := inv_tick (inv_of_engineStep hinv hu)
    obtain ⟨hc, hco⟩ := Inv_cEnd hinvu rfl hs
    obtain ⟨t, ht, hth, hr⟩ := endStep_enc (bits := bits) hc hinvu.out hco ⟨hw.cnt, hw.acc, hw.len, hw.out⟩
    rw [run_engineStep 1 hh hu]
    exact run_ends (s := u) 0 hh ((engineStep_cEnd (s := u) rfl hs).trans ht) hth hr
  | succ j ih =>
    obtain ⟨hc, hco⟩ := Inv_cScan (inv_tick hinv) hp hs
    have hstep := engineStep_cScan hp hs
    have hscan : scanStep (tick s) = (scan (s.inAt s.inPtr) (tick s)).map fun t => { t with inPtr := t.inPtr + 1 } := by
      rw [scanStep, if_pos (by simp only [tick_inPtr, tick_inLen]; omega)]; rfl
    have hunread : s.unread (j + 1) = s.inAt s.inPtr :: (List.range' (s.inPtr + 1) j).map s.inAt := by
      simp [State.unread, List.range'_succ]
    rw [hunread, List.foldl_cons]
    rcases scan_enc (s.inAt s.inPtr) hc (inv_tick hinv).out hco (bits := bits) ⟨hw.cnt, hw.acc, hw.len, hw.out⟩ with
      ⟨a, ht, -, hst, -, hwa⟩ | ⟨ht, hx⟩
    · rw [hscan, ht] at hstep
      rw [run_engineStep (j + 2) hh hstep]
      obtain ⟨m, l, acc, cnt, rfl, -, -⟩ := hst
      exact ih (inv_of_engineStep hinv hstep) hp hs hh (by show s.inPtr + 1 + j = s.inLen; omega)
        ⟨hwa.cnt, hwa.acc, hwa.len, hwa.out⟩
    · rw [hscan, ht] at hstep
      have hresult : encResult s.adapter s.params
          (((List.range' (s.inPtr + 1) j).map s.inAt).foldl Whole.Enc.scan ((s.enc bits).scan (s.inAt s.inPtr))).close =
          .fail .capacity := by
        refine encResult_of_overBound (overBound_mono ?_ ?_ hx)
        · exact (enc_fold_mono _ _).1.trans (enc_close_mono _).1
        · exact (enc_fold_mono _ _).2.trans (enc_close_mono _).2
      rw [hresult]
      exact run_ends (j + 2) hh hstep rfl (reports_fail _ _)

/-! ## Decompression -/

/-- From its first code word on, a decompression ends with the function's result after at most half as many steps as it has
bits left, and one: each code word has at least two bits (42_decompress.md R169). -/
theorem run_decode (k : Nat) {s : State} (hinv : Inv s) (hp : s.phase = .dDecode) (hs : s.spoiled = false) (hh : s.host = [])
    (hk : s.restBits.length / 2 + 1 ≤ k) (f : Nat) (hf : k ≤ f) :
    ∃ t, run k s = .next t ∧ reports (Whole.decodeStream s.params f s.dec s.restBits) t := by
  induction k generalizing s f with
  | zero => omega
  | succ k ih =>
    obtain ⟨f, rfl⟩ : ∃ g, f = g + 1 := ⟨f - 1, by omega⟩
    obtain ⟨hc, hd⟩ := Inv_dDecode (inv_tick hinv) hp hs
    have hstep := engineStep_dDecode hp hs
    rcases decodeStep_dec hc (inv_tick hinv).out hd with
        ⟨c, he, hr⟩ | ⟨he, hr⟩ | ⟨t, he, hr, ⟨hkept, -, -⟩, -, hb⟩ <;>
      rw [he] at hstep <;> have hr : Whole.decodeStream s.params (f + 1) s.dec s.restBits = _ := hr f <;> rw [hr]
    · exact run_ends k hh hstep rfl (reports_fail c _)
    · refine run_ends k hh hstep rfl ⟨rfl, rfl, ?_, fun i hi => ?_, rfl, rfl⟩
      · exact (length_outElems s).symm
      · exact (getElem_outElems hi).symm
    · have hinvt := inv_of_engineStep hinv hstep
      have hpt := hkept.phase.trans hp
      have hst := hkept.spoiled.trans hs
      obtain ⟨-, -, -, -, hbt, -⟩ := Inv_dDecode hinvt hpt hst
      have hbits : t.bits.length = s.bits.length := congrArg List.length hkept.bits
      have hnb : 2 ≤ s.nb := CodesOk_nb hc ▸ two_le_bitlen (CodesOk_two_le hc)
      simp only [tick_bp, tick_nb] at hb
      have hrest : t.restBits.length / 2 + 1 ≤ k := by
        rw [length_restBits] at hk ⊢
        omega
      rw [run_engineStep k hh hstep]
      simpa only [hkept.params] using ih hinvt hpt hst (hkept.host.trans hh) hrest f (by omega)

/-- The result of a decompression whose input fits (42_decompress.md R168). -/
def decResult (ad : Adapter) (p : Params) (xs : List Elem) : Whole.Result :=
  match Whole.unpackAll ad xs with
  | none => .fail .alphabet
  | some bits => Whole.decodeStream p (bits.length + 1) Whole.Dec.init bits

theorem length_inElems (s : State) (n : Nat) : (s.inElems n).length = n := by simp [State.inElems]

/-- A decompression that has just started ends with the function's result within its bound. -/
theorem run_decompress {s : State} (hinv : Inv s) (hp : s.phase = .dCheck) (hs : s.spoiled = false) (hh : s.host = [])
    (hdec : s.dec = Whole.Dec.init) :
    ∃ t, run (s.adapter.sb * s.adapter.length s.inAt s.inLen / 2 + 2) s = .next t ∧
      reports (decResult s.adapter s.params (s.inElems s.inLen)) t := by
  have hstep := engineStep_dCheck hp hs
  rw [checkStep, unpack_eq] at hstep
  rw [decResult]
  cases hu : Whole.unpackAll s.adapter (s.inElems s.inLen) with
  | none =>
    rw [show Whole.unpackAll (tick s).adapter ((tick s).inElems (tick s).inLen) = none from hu] at hstep
    exact run_ends _ hh hstep rfl (reports_fail _ _)
  | some bits =>
    rw [show Whole.unpackAll (tick s).adapter ((tick s).inElems (tick s).inLen) = some bits from hu] at hstep
    have hlen : bits.length = s.adapter.sb * s.adapter.length s.inAt s.inLen := by
      rw [unpackElems_length ((unpackAll_inElems s s.inLen s.adapter).trans hu), length_inElems]
    rw [run_engineStep _ hh hstep, ← hlen, ← hdec]
    exact run_decode (bits.length / 2 + 1) (inv_of_engineStep hinv hstep) rfl hs hh le_rfl _ (by omega)

/-! ## Commands -/

/-- An idle block is not busy (10_state.md R23, R39). -/
theorem busy_of_idle {s : State} (h : StatusOk s) (hp : s.phase = .idle) : s.busy = false := by
  simp only [StatusOk, hp, if_true] at h
  rcases h with h | h | ⟨c, h⟩ <;> rw [State.busy, h]
  · rfl
  · rfl
  · cases c <;> rfl

/-- A command as a function, by what bounds its input and which way it goes (44_commands.md R221). -/
theorem command_eq (v : BitVec 3) (p : Params) (xs : List Elem) : Whole.command v p xs =
    if exceeds p.inMax xs.length then .fail .capacity
    else if cmdDir v then decResult (cmdAdapter v) p xs
    else encResult (cmdAdapter v) p (xs.foldl Whole.Enc.scan Whole.Enc.init).close := by
  unfold Whole.command Whole.compress Whole.decompress
  cases exceeds p.inMax xs.length
  · rfl
  · exact ite_self _

theorem stepBound_eq (v : BitVec 3) (s : State) : stepBound v s =
    (if cmdDir v then (cmdAdapter v).sb * (cmdAdapter v).length s.inAt s.inLen / 2 + 2 else s.inLen + 2) + 1 := by
  unfold stepBound
  split
  · rw [Nat.add_comm 2]
  · rfl

/-- Every command ends within its bound, with the report of its function (44_commands.md R221, 70_reset_and_hazards.md R263). -/
theorem run_reports_command {v : BitVec 3} {s : State} (h : aboutToStart v s) :
    ∃ t, run (stepBound v s) s = .next t ∧ reports (Whole.command v s.params (s.inElems s.inLen)) t := by
  obtain ⟨hinv, hp, hh⟩ := h
  set s' : State := { s with host := [] }
  have hstep : step s = start v s' := (step_of_host_writeCmd hh).trans (exec_decodeCommand _ _)
  rw [stepBound_eq, command_eq, length_inElems]
  rcases start_cases v s' with ⟨hb, -⟩ | ⟨-, hx, he⟩ | ⟨-, hx, he⟩
  · exact absurd ((busy_of_idle (s := s') hinv.status hp).symm.trans hb) (by decide)
  · refine ⟨_, (run_next _ (hstep.trans he)).trans (run_idle rfl rfl _), ?_⟩
    rw [if_pos hx]
    exact reports_fail _ _
  · rw [run_next _ (hstep.trans he), if_neg (Bool.eq_false_iff.1 hx)]
    have hbegun := inv_begun v (s := s') hinv.params hinv.inWf
    cases hv : cmdDir v with
    | false =>
      have hw : Wrote 0 (begun v s') [] := ⟨by simp, by simp, by simp, by simp⟩
      have hunread : s.inElems s.inLen = (begun v s').unread s.inLen := by
        rw [State.inElems, List.range_eq_range']; rfl
      rw [hunread]
      exact run_compress s.inLen hbegun (by simp [hv]) rfl rfl (Nat.zero_add _) hw
    | true => exact run_decompress hbegun (by simp [hv]) rfl rfl rfl

/-- Two blocks that report one result agree in all that the result says. -/
theorem reports_agree {r : Whole.Result} {t₁ t₂ : State} (h₁ : reports r t₁) (h₂ : reports r t₂) :
    t₁.status = t₂.status ∧ t₁.outLen = t₂.outLen ∧ (∀ i < t₁.outLen, t₁.outAt i = t₂.outAt i) ∧
      (t₁.status = statusSuccess → t₁.dbgN = t₂.dbgN ∧ t₁.dbgNb = t₂.dbgNb) := by
  cases r with
  | ok out n nb =>
    obtain ⟨hs₁, -, hl₁, ho₁, hn₁, hnb₁⟩ := h₁
    obtain ⟨hs₂, -, hl₂, ho₂, hn₂, hnb₂⟩ := h₂
    refine ⟨hs₁.trans hs₂.symm, hl₁.trans hl₂.symm, fun i hi => ?_,
      fun _ => ⟨hn₁.trans hn₂.symm, hnb₁.trans hnb₂.symm⟩⟩
    rw [ho₁ i (hl₁ ▸ hi), ho₂ i (hl₁ ▸ hi)]
  | fail c =>
    obtain ⟨hl₁, hs₁, -⟩ := h₁
    obtain ⟨hl₂, hs₂, -⟩ := h₂
    refine ⟨hs₁.trans hs₂.symm, hl₁.trans hl₂.symm, fun i hi => ?_, fun hs => ?_⟩
    · rw [hl₁] at hi; cases hi
    · exact absurd (hs₁.symm.trans hs) (statusFailure_ne c).1

/-- Settles O36: each block reports the function of its input (`run_reports_command`), and the two inputs are one. -/
theorem noEarlierOperationMatters : Obligations.NoEarlierOperationMatters := by
  intro v s₁ s₂ t₁ t₂ h₁ h₂ hparams hlen hin hrun₁ hrun₂
  have helems : s₁.inElems s₁.inLen = s₂.inElems s₂.inLen := by
    rw [← hlen]
    exact List.map_congr_left fun i hi => hin i (List.mem_range.1 hi)
  obtain ⟨u₁, hu₁, hr₁⟩ := run_reports_command h₁
  obtain ⟨u₂, hu₂, hr₂⟩ := run_reports_command h₂
  cases hrun₁.symm.trans hu₁
  cases hrun₂.symm.trans hu₂
  rw [helems, hparams] at hr₁
  exact reports_agree hr₁ hr₂

end Sys2Proof.Machine
end

section
/-! PROOFS of the statements of 20_memory.md, part 1: the buffers. The input is the host's (R64), and the `BYTES` output of a
compression is its `RAW16` output split into bytes (R56). -/

namespace Sys2Proof.Machine

open Sys2Proof.Safety Sys2Proof.Claims

/-! ## Only the host writes the input -/

/-- All that decides what the input reads as, and the parameters: `IN_LEN`, the listed elements of `IN`, and the draw of the
others. -/
def State.input (s : State) : Nat × Memory × Nat × Params := (s.inLen, s.inBuf, s.inEpoch, s.params)

theorem sameInput_of_input_eq {s t : State} (h : t.input = s.input) : sameInput s t := by
  obtain ⟨hlen, hbuf, hepoch, hparams⟩ : t.inLen = s.inLen ∧ t.inBuf = s.inBuf ∧ t.inEpoch = s.inEpoch ∧ t.params = s.params := by
    simpa only [State.input, Prod.mk.injEq] using h
  exact ⟨hlen, fun i => by simp only [State.inAt, hbuf, hepoch], hparams⟩

theorem sameInput_params {s t : State} (h : sameInput s t) : t.params = s.params := by
  obtain ⟨-, -, hparams⟩ := h
  exact hparams

theorem Kept.input {s t : State} (h : Kept s t) : t.input = s.input := by
  simp only [State.input, h.inLen, h.inBuf, h.inEpoch, h.params]

theorem settle_input {s t : State} {r : Except Stop State} (h : settle s r = .next t)
    (hr : ∀ u, r = .ok u → u.input = s.input) : t.input = s.input := by
  rcases settle_eq_next.1 h with h | ⟨c, -, rfl⟩
  · exact hr t h
  · rfl

theorem spoiledEnd_input (s : State) : (spoiledEnd s).input = s.input := by
  unfold spoiledEnd
  split
  · rfl
  · split <;> rfl

/-- The `C_SCAN` step. -/
theorem scanStep_input {s t : State} (h : scanStep s = .ok t) : t.input = s.input := by
  unfold scanStep at h
  split at h
  · obtain ⟨u, hu, rfl⟩ := map_eq_ok.1 h
    exact (scan_kept hu).input
  · cases h
    rfl

/-- The `C_END` step. -/
theorem endStep_input {s t : State} (h : endStep s = .ok t) : t.input = s.input := by
  obtain ⟨u, hu, rfl⟩ := map_eq_ok.1 h
  obtain ⟨v, hv, hu⟩ := bind_eq_ok.1 hu
  obtain ⟨w, hw, hv⟩ := bind_eq_ok.1 hv
  exact (((endPhrase_kept hw).trans (putBits_kept hv)).trans (finish_kept hu)).input

/-- The `D_DECODE` step. -/
theorem decodeStep_input {s t : State} (hc : CodesOk s) (ho : OutOk s) (hd : DecodeOk s) (h : decodeStep s = .next t) :
    t.input = s.input := by
  rcases decodeStep_dec hc ho hd with ⟨c, he, -⟩ | ⟨he, -⟩ | ⟨u, he, -, hg, -⟩ <;> cases h.symm.trans he
  · rfl
  · rfl
  · exact hg.kept.input

/-- An engine step, by phase: the engine reads the input and does not write it. -/
theorem engineStep_input {s t : State} (h : Inv s) (hst : engineStep s = .next t) : t.input = s.input := by
  have ht := inv_tick h
  by_cases hp : s.phase = .idle
  · cases hst.symm.trans (engineStep_idle hp)
    rfl
  suffices hk : t.input = (tick s).input from hk
  cases hs : s.spoiled with
  | true =>
    cases hst.symm.trans (engineStep_spoiled hp hs)
    exact spoiledEnd_input _
  | false =>
    cases hph : s.phase with
    | idle => exact absurd hph hp
    | cScan => exact settle_input ((engineStep_cScan hph hs).symm.trans hst) fun _ => scanStep_input
    | cEnd => exact settle_input ((engineStep_cEnd hph hs).symm.trans hst) fun _ => endStep_input
    | dCheck =>
      refine settle_input ((engineStep_dCheck hph hs).symm.trans hst) fun u hu => ?_
      obtain ⟨b, rfl⟩ := checkStep_eq_ok hu
      rfl
    | dDecode =>
      obtain ⟨hc, hd⟩ := Inv_dDecode ht hph hs
      exact decodeStep_input hc ht.out hd ((engineStep_dDecode hph hs).symm.trans hst)

/-- A write of `CMD` reads the input's length and writes none of the input (R210, R258). -/
theorem start_input {v : BitVec 3} {s t : State} (h : start v s = .next t) : t.input = s.input := by
  rcases start_cases v s with ⟨-, he⟩ | ⟨-, -, he⟩ | ⟨-, -, he⟩ <;> cases h.symm.trans he <;> rfl

/-- Settles O49: one case per action of the host. The engine and a command leave the input alone (`engineStep_input`,
`start_input`); the other three are the host's own, and keep the parameters. -/
theorem onlyTheHostWritesInput : Obligations.OnlyTheHostWritesInput := by
  intro s t h hst
  have hengine (rest : List HostAct) (hturn : engineTurn s rest) : sameInput s t := by
    rw [step_of_engineTurn hturn] at hst
    exact sameInput_of_input_eq (s := { s with host := rest }) (engineStep_input (inv_host h rest) hst)
  cases hh : s.host with
  | nil =>
    have hs := hengine [] (.inl ⟨hh, rfl⟩)
    exact ⟨sameInput_params hs, fun _ _ _ => hs⟩
  | cons a rest =>
    cases a with
    | engine =>
      have hs := hengine rest (.inr hh)
      exact ⟨sameInput_params hs, fun _ _ _ => hs⟩
    | writeCmd v =>
      rw [step_of_host_writeCmd hh, exec_decodeCommand] at hst
      have hs : sameInput s t := sameInput_of_input_eq (s := { s with host := rest }) (start_input hst)
      exact ⟨sameInput_params hs, fun _ _ _ => hs⟩
    | writeIn i x =>
      simp only [step, hh, Host.Outcome.next.injEq] at hst
      exact ⟨hst ▸ rfl, fun hin _ _ => absurd rfl (hin i x rest)⟩
    | writeInLen n =>
      simp only [step, hh, Host.Outcome.next.injEq] at hst
      exact ⟨hst ▸ rfl, fun _ hlen _ => absurd rfl (hlen n rest)⟩
    | powerOnReset =>
      simp only [step, hh, Host.Outcome.next.injEq] at hst
      exact ⟨hst ▸ rfl, fun _ _ hreset => absurd rfl (hreset rest)⟩

/-! ## `BYTES` and `RAW16` -/

/-- The output of a compression that succeeds is its code stream, rendered (41_compress.md R141). -/
theorem compress_eq_ok {ad : Adapter} {p : Params} {xs out : List Elem} {n nb : Nat}
    (h : Whole.compress ad p xs = .ok out n nb) : out = Whole.render ad (Whole.encodeStream xs).stream := by
  unfold Whole.compress at h
  dsimp only at h
  split at h
  · cases h
  · cases h
    rfl

/-- The value of the `i`-th group of `sb` bits of a stream, where a bit past the end is 0 (40_bitstream.md R103). -/
def symbolAt (sb i : Nat) (bits : List Bool) : Nat := val ((bits.drop (i * sb) ++ List.replicate sb false).take sb)

theorem symbolAt_lt (sb i : Nat) (bits : List Bool) : symbolAt sb i bits < 2 ^ sb := val_group_lt _ _

/-- A group past the end of the stream is all zeros. -/
theorem symbolAt_of_length_le {sb i : Nat} {bits : List Bool} (h : bits.length ≤ i * sb) : symbolAt sb i bits = 0 := by
  rw [symbolAt, List.drop_of_length_le h, List.nil_append, List.take_replicate, Nat.min_self]
  have hz (n : Nat) : val (List.replicate n false) = 0 := by
    induction n with
    | zero => rfl
    | succ n ih => simp [List.replicate_succ, val_cons, ih]
  exact hz sb

/-- A group of twice the width is two groups, the more significant first. -/
theorem symbolAt_two_mul (sb i : Nat) (bits : List Bool) :
    symbolAt (2 * sb) i bits = symbolAt sb (2 * i) bits * 2 ^ sb + symbolAt sb (2 * i + 1) bits := by
  set padded := bits ++ List.replicate ((i + 1) * (2 * sb)) false
  have hgroup (w j : Nat) (hj : (j + 1) * w ≤ (i + 1) * (2 * sb)) :
      symbolAt w j bits = val ((padded.drop (j * w)).take w) := by
    rw [symbolAt, group_zeros (hj.trans (Nat.le_add_left _ _))]
  have hlen : ((padded.drop (2 * i * sb + sb)).take sb).length = sb := by
    rw [List.length_take, List.length_drop, List.length_append, List.length_replicate]
    have : (i + 1) * (2 * sb) = 2 * i * sb + sb + sb := by ring
    omega
  rw [hgroup (2 * sb) i le_rfl, hgroup sb (2 * i) (by nlinarith), hgroup sb (2 * i + 1) (by nlinarith),
    show i * (2 * sb) = 2 * i * sb by ring, show (2 * i + 1) * sb = 2 * i * sb + sb by ring, Nat.two_mul sb,
    List.take_add, List.drop_drop, val_append, hlen]

/-- Under an adapter without padding whose elements are the symbols themselves, element `i` is the `i`-th group (43_alphabets.md
R191, R196). -/
theorem toNat_getElem_render {ad : Adapter} (had : ad = .raw16 ∨ ad = .bytes) {bits : List Bool} {i : Nat}
    (h : i < (Whole.render ad bits).length) : ((Whole.render ad bits)[i]).toNat = symbolAt ad.sb i bits := by
  have hlt := symbolAt_lt ad.sb i bits
  rcases had with rfl | rfl <;> simp only [Whole.render, Whole.padding, List.append_nil, List.getElem_map, symbols_getElem] <;>
    exact Nat.mod_eq_of_lt (hlt.trans_le (by decide))

theorem length_render {ad : Adapter} (had : ad = .raw16 ∨ ad = .bytes) (bits : List Bool) :
    (Whole.render ad bits).length = (bits.length + ad.sb - 1) / ad.sb := by
  rcases had with rfl | rfl <;> simp [Whole.render, Whole.padding]

/-- Element `i` of the `RAW16` rendering is bytes `2i` and `2i + 1` of the stream. -/
theorem toNat_getElem_render_raw16 {bits : List Bool} {i : Nat} (h : i < (Whole.render .raw16 bits).length) :
    ((Whole.render .raw16 bits)[i]).toNat = symbolAt 8 (2 * i) bits * 256 + symbolAt 8 (2 * i + 1) bits :=
  (toNat_getElem_render (.inl rfl) h).trans (symbolAt_two_mul 8 i bits)

theorem toNat_getElem_render_bytes {bits : List Bool} {i : Nat} (h : i < (Whole.render .bytes bits).length) :
    ((Whole.render .bytes bits)[i]).toNat = symbolAt 8 i bits := toNat_getElem_render (.inr rfl) h

/-- Settles O38: each element of `RAW16` is two bytes of the stream (`toNat_getElem_render_raw16`); where `BYTES` lacks the second
of the last element, the stream has ended before it, so it is zero. -/
theorem bytesSplitRaw16 : Obligations.BytesSplitRaw16 := by
  rintro p xs raw bytes n nb n' nb' len hraw hbytes rfl
  obtain rfl := compress_eq_ok (ad := .raw16) hraw
  obtain rfl := compress_eq_ok (ad := .bytes) hbytes
  set bits := (Whole.encodeStream xs).stream
  have hlraw : (Whole.render .raw16 bits).length = (bits.length + 15) / 16 := length_render (.inl rfl) bits
  have hlbytes : (Whole.render .bytes bits).length = (bits.length + 7) / 8 := length_render (.inr rfl) bits
  have hlt (j : Nat) : symbolAt 8 j bits < 256 := symbolAt_lt 8 j bits
  refine ⟨hlraw, hlbytes, fun i h h' => ?_, fun i h h' => ?_, fun hodd h => ?_, by omega⟩
  · rw [toNat_getElem_render_bytes, toNat_getElem_render_raw16]
    have := hlt (2 * i + 1)
    omega
  · rw [toNat_getElem_render_bytes, toNat_getElem_render_raw16]
    have := hlt (2 * i + 1)
    omega
  · rw [toNat_getElem_render_raw16, symbolAt_of_length_le (i := 2 * _ + 1) (by omega)]
    omega

end Sys2Proof.Machine
end

section
/-! PROOFS of the statements of 20_memory.md, part 2: the bounds on the dictionaries (R54). -/

namespace Sys2Proof.Machine

open Sys2Proof.Safety Sys2Proof.Claims

/-! ## A running operation -/

/-- Rising numbers in a range are no more than the range has. -/
theorem length_le_of_pairwise_lt {l : List Nat} {a b : Nat} (hl : l.Pairwise (· < ·)) (h : ∀ k ∈ l, a ≤ k ∧ k < b) :
    l.length ≤ b - a := by
  have hsub : l ⊆ List.range' a (b - a) := fun k hk => by
    obtain ⟨hak, hkb⟩ := h k hk
    rw [List.mem_range'_1]
    omega
  have hnodup : l.Nodup := hl.imp Nat.ne_of_lt
  simpa using (List.subperm_of_subset hnodup hsub).length_le

/-- The codes of `DICT_C` are different codes from `FIRST_CODE` up and below `N` (10_state.md R31). -/
theorem DictCOk_length {s : State} (h : DictCOk s) : s.dictC.length ≤ s.n - 2 := by
  obtain ⟨-, hrising, hrange, -⟩ := h
  rw [← List.length_map (f := Prod.snd)]
  refine length_le_of_pairwise_lt hrising fun k hk => ?_
  obtain ⟨e, he, rfl⟩ := List.mem_map.1 hk
  obtain ⟨-, hlow, hhigh⟩ := hrange e he
  exact ⟨hlow, hhigh⟩

/-- So are those of `DICT_D`, with none for the pending code either (10_state.md R35, R36). -/
theorem DecodeOk_length {s : State} (h : DecodeOk s) : s.dictD.length ≤ s.n - 2 := by
  obtain ⟨-, hwf, -, -, ⟨-, -, hd, -⟩ | ⟨p, q, -, -, -, hqn, -, hdom⟩⟩ := h
  · simp [hd]
  · rw [← List.length_map (f := Prod.fst)]
    refine length_le_of_pairwise_lt hwf fun k hk => ?_
    obtain ⟨hlow, hhigh⟩ := (hdom k).1 ((Table.read?_isSome _ _).2 hk)
    exact ⟨hlow, by omega⟩

/-! ## The length of a compression's input -/

/-- What R54 says of a dictionary `d` made by a compression that has read `ys`: no word twice and none empty, each one-unit word
is a unit read, and each longer word was made at a unit after the first. -/
def DictBound (ys : List Elem) (d : DictC) : Prop :=
  (d.map Prod.fst).Nodup ∧ (∀ e ∈ d, e.1 ≠ []) ∧ (∀ e ∈ d, ∀ u, e.1 = [u] → u ∈ ys) ∧
    (d.filter fun e => 2 ≤ e.1.length).length ≤ ys.length - 1

theorem dictBound_nil : DictBound [] [] := ⟨List.nodup_nil, nofun, nofun, le_rfl⟩

theorem DictBound.append_read {ys : List Elem} {d : DictC} (h : DictBound ys d) (zs : List Elem) : DictBound (ys ++ zs) d := by
  obtain ⟨hnodup, hne, hunit, hlonger⟩ := h
  exact ⟨hnodup, hne, fun e he u hu => List.mem_append_left zs (hunit e he u hu),
    hlonger.trans (by rw [List.length_append]; omega)⟩

/-- One more word, made while the units `zs` are read: one unit read before, or a longer word if `zs` comes after the first unit. -/
theorem DictBound.add {ys zs : List Elem} {d : DictC} {p : Phrase} {k : Nat} (h : DictBound ys d) (hp : p ≠ [])
    (hnew : DictC.code? d p = none) (hunit : ∀ u, p = [u] → u ∈ ys)
    (hlonger : 2 ≤ p.length → ys ≠ [] ∧ zs ≠ []) : DictBound (ys ++ zs) (DictC.add d p k) := by
  obtain ⟨hnodup, hne, hunits, hold⟩ := h
  rw [DictC.add_of_new hnew]
  have hmem (e : Phrase × Nat) (he : e ∈ d ++ [(p, k)]) : e ∈ d ∨ e = (p, k) := by simpa using he
  refine ⟨?_, fun e he => ?_, fun e he u hu => List.mem_append_left zs ?_, ?_⟩
  · rw [List.map_append]
    refine hnodup.append (List.nodup_singleton p) (List.disjoint_singleton.2 ?_)
    rw [← DictC.code?_isSome, hnew]
    nofun
  · rcases hmem e he with he | rfl
    · exact hne e he
    · exact hp
  · rcases hmem e he with he | rfl
    · exact hunits e he u hu
    · exact hunit u hu
  · rw [List.filter_append, List.length_append, List.length_append]
    by_cases hl : 2 ≤ p.length
    · obtain ⟨hys, hzs⟩ := hlonger hl
      have := List.length_pos_of_ne_nil hys
      have := List.length_pos_of_ne_nil hzs
      simp only [List.filter_singleton, hl, decide_true, cond_true, List.length_singleton]
      omega
    · simp only [List.filter_singleton, hl, decide_false, cond_false, List.length_nil]
      omega

/-- The one-unit words are different units of those read. -/
theorem DictBound.unit_length {ys : List Elem} {d : DictC} (h : DictBound ys d) :
    (d.filter fun e => e.1.length = 1).length ≤ ys.dedup.length := by
  obtain ⟨hnodup, -, hunits, -⟩ := h
  have hsub : (d.filter fun e => e.1.length = 1).map Prod.fst ⊆ ys.dedup.map fun u => [u] := fun p hp => by
    obtain ⟨e, he, rfl⟩ := List.mem_map.1 hp
    obtain ⟨hed, hlen⟩ := List.mem_filter.1 he
    obtain ⟨u, hu⟩ := List.length_eq_one_iff.1 (of_decide_eq_true hlen)
    exact List.mem_map.2 ⟨u, List.mem_dedup.2 (hunits e hed u hu), hu.symm⟩
  have hnodup' : ((d.filter fun e => e.1.length = 1).map Prod.fst).Nodup := hnodup.sublist (List.filter_sublist.map _)
  simpa using (List.subperm_of_subset hnodup' hsub).length_le

/-- Every word has one unit or more. -/
theorem DictBound.length_eq {ys : List Elem} {d : DictC} (h : DictBound ys d) :
    d.length = (d.filter fun e => e.1.length = 1).length + (d.filter fun e => 2 ≤ e.1.length).length := by
  obtain ⟨-, hne, -, -⟩ := h
  rw [List.length_eq_length_filter_add fun e : Phrase × Nat => decide (e.1.length = 1)]
  congr 2
  refine List.filter_congr fun e he => ?_
  have := List.length_pos_of_ne_nil (hne e he)
  simp only [← decide_not, decide_eq_decide]
  omega

/-- A compression that has read `ys`: its dictionary is bounded, and its pending phrase, empty only while nothing is read, is in
the dictionary or a unit read (10_state.md R32). -/
def EncBound (ys : List Elem) (e : Whole.Enc) : Prop :=
  DictBound ys e.dict ∧ (e.w ≠ [] → ys ≠ []) ∧ (e.w ≠ [] → (DictC.code? e.dict e.w).isSome ∨ ∃ u ∈ ys, e.w = [u])

theorem encBound_init : EncBound [] Whole.Enc.init := ⟨dictBound_nil, (absurd rfl ·), (absurd rfl ·)⟩

/-- An emission makes an entry only of a unit (41_compress.md R138). -/
theorem EncBound.emit {ys : List Elem} {e : Whole.Enc} (h : EncBound ys e) (hw : e.w ≠ []) : DictBound ys e.emit.dict := by
  obtain ⟨hdict, -, hpending⟩ := h
  unfold Whole.Enc.emit
  split
  · exact hdict
  · rename_i hnew
    obtain ⟨u, hu, hwu⟩ := (hpending hw).resolve_left (by simp [hnew])
    have hadd := hdict.add (zs := []) (k := e.n) hw hnew (fun v hv => by cases hwu.symm.trans hv; exact hu) (by simp [hwu])
    simpa using hadd

/-- A scan step makes at most one longer entry, and none at the first unit (R135 to R137). -/
theorem EncBound.scan {ys : List Elem} {e : Whole.Enc} (h : EncBound ys e) (c : Elem) : EncBound (ys ++ [c]) (e.scan c) := by
  have hemit : e.w ≠ [] → DictBound ys e.emit.dict := h.emit
  obtain ⟨hdict, hread, -⟩ := h
  have hc : ∃ u ∈ ys ++ [c], [c] = [u] := ⟨c, by simp, rfl⟩
  unfold Whole.Enc.scan
  split
  · exact ⟨hdict.append_read [c], by simp, fun _ => .inr hc⟩
  · rename_i hw
    split
    · rename_i hs
      exact ⟨hdict.append_read [c], by simp, fun _ => .inl hs⟩
    · rename_i hs
      refine ⟨?_, by simp, fun _ => .inr hc⟩
      refine (hemit hw).add (by simp) (emit_new (Option.not_isSome_iff_eq_none.1 hs)) (fun u hu => ?_) fun _ => ⟨hread hw, by simp⟩
      exact absurd (List.append_eq_singleton_iff.1 hu) (by simp [hw])

theorem EncBound.foldl_scan {ys : List Elem} {e : Whole.Enc} (h : EncBound ys e) (zs : List Elem) :
    EncBound (ys ++ zs) (zs.foldl Whole.Enc.scan e) := by
  induction zs generalizing ys e with
  | nil => simpa using h
  | cons c zs ih => simpa using ih (h.scan c)

/-- The end emits the pending phrase, if there is one (R140). -/
theorem EncBound.close {ys : List Elem} {e : Whole.Enc} (h : EncBound ys e) : DictBound ys e.close.dict := by
  unfold Whole.Enc.close
  split
  · obtain ⟨hdict, -⟩ := h
    exact hdict
  · rename_i hw
    exact h.emit hw

theorem dictBound_encodeStream (xs : List Elem) : DictBound xs (Whole.encodeStream xs).dict :=
  (encBound_init.foldl_scan xs).close

/-- Settles O42: the codes of a running operation are different ones below `N` (`DictCOk_length`, `DecodeOk_length`), and the
words of a compression are bounded by the units it has read (`dictBound_encodeStream`). -/
theorem dictionaryBounds : Obligations.DictionaryBounds := by
  refine ⟨fun s h hs hp => ?_, fun xs => ?_⟩
  · have hcodes : CodesOk s := by
      obtain ⟨hc, -⟩ := h.running (by rcases hp with hp | hp | hp <;> simp [hp]) hs
      exact hc
    obtain ⟨-, hn, -, hnb⟩ := hcodes
    refine ⟨fun hd => ?_, fun hd => ?_, hn, fun m hm => Nat.pow_le_pow_right Nat.two_pos (hnb m hm)⟩
    · obtain ⟨-, hdec⟩ := Inv_dDecode h hd hs
      exact DecodeOk_length hdec
    · have hco : CompressOk s := by
        rcases hp with hp | hp | hp
        · exact (Inv_cScan h hp hs).2
        · exact (Inv_cEnd h hp hs).2
        · exact absurd hp hd
      obtain ⟨-, -, hdict, -⟩ := hco
      exact DictCOk_length hdict
  · have hb := dictBound_encodeStream xs
    have hunit := hb.unit_length
    have hlen := hb.length_eq
    obtain ⟨-, -, -, hlonger⟩ := hb
    have hdedup : xs.dedup.length ≤ xs.length := (List.dedup_sublist xs).length_le
    exact ⟨by omega, hunit, hlonger⟩

end Sys2Proof.Machine
end

section
/-! PROOFS of the statements of 30_encoding.md, part 1: the decoder and the encoder of code words and commands undo each other
(R70 to R81), and the legality table of R74. -/

namespace Sys2Proof

/-! ## The decoder, one rule per kind of code word -/

/-- A successful read is a value of that width and the bits after it. -/
theorem eq_msb_append_of_takeBits {n v : Nat} {bits rest : List Bool} (h : takeBits n bits = some (v, rest)) :
    bits = msb n v ++ rest ∧ v < 2 ^ n := by
  obtain ⟨hn, rfl, rfl, hv⟩ := takeBits_eq_some h
  have hm := msb_val (bits.take n)
  rw [List.length_take_of_le hn] at hm
  exact ⟨by rw [hm, List.take_append_drop], hv⟩

/-- The instruction of a code that is not reserved: the last three rows of R74, in the order of tests of 42_decompress.md R161. -/
def CodeCtx.instrOf (c : CodeCtx) (k : Nat) : Instr :=
  if c.prev = none then .illegalCode k
  else if c.known.contains k then .ref k
  else if c.pend = some k then .refAhead k
  else .illegalCode k

theorem instrOf_eq (c : CodeCtx) (k : Nat) : c.instrOf k =
    if c.prev = none then .illegalCode k
    else if c.known.contains k then .ref k
    else if c.pend = some k then .refAhead k
    else .illegalCode k := rfl

/-- The literal after `RAW_CODE` (R71, 40_bitstream.md R105). -/
def readLiteral (bits : List Bool) : Except DecodeError (Instr × List Bool) :=
  match takeBits rawBits bits with
  | none => .error .truncatedLiteral
  | some (u, rest) => .ok (.raw (BitVec.ofNat 16 u), rest)

/-- What the decoder makes of the code it reads. -/
theorem decodeCode_eq {c : CodeCtx} {bits rest : List Bool} {k : Nat} (h : takeBits c.nb bits = some (k, rest)) :
    decodeCode c bits =
      if k = eosCode then .ok (.eos, rest) else if k = rawCode then readLiteral rest else .ok (c.instrOf k, rest) := by
  delta decodeCode
  simp only [h, instrOf_eq]
  split_ifs <;> rfl

theorem decodeCode_short {c : CodeCtx} {bits : List Bool} (h : takeBits c.nb bits = none) :
    decodeCode c bits = .error .truncatedCode := by
  delta decodeCode
  rw [h]

theorem readLiteral_msb (u : Elem) (rest : List Bool) : readLiteral (msb rawBits u.toNat ++ rest) = .ok (.raw u, rest) := by
  have hliteral := takeBits_msb rest (n := rawBits) u.isLt
  delta readLiteral
  simp only [hliteral, BitVec.ofNat_toNat, BitVec.setWidth_eq]

theorem readLiteral_eq_ok {bits rest : List Bool} {i : Instr} (h : readLiteral bits = .ok (i, rest)) :
    ∃ u : Elem, i = .raw u ∧ bits = msb rawBits u.toNat ++ rest := by
  cases hliteral : takeBits rawBits bits with
  | none =>
    delta readLiteral at h
    rw [hliteral] at h
    cases h
  | some ur =>
    obtain ⟨u, tl⟩ := ur
    obtain ⟨rfl, hu⟩ := eq_msb_append_of_takeBits hliteral
    obtain ⟨v, rfl⟩ : ∃ v : Elem, v.toNat = u := ⟨.ofNatLT u hu, BitVec.toNat_ofNatLT u hu⟩
    cases (readLiteral_msb v tl).symm.trans h
    exact ⟨v, rfl, rfl⟩

theorem decodeCode_raw (c : CodeCtx) (u : Elem) (rest : List Bool) :
    decodeCode c (msb c.nb rawCode ++ (msb rawBits u.toNat ++ rest)) = .ok (.raw u, rest) := by
  rw [decodeCode_eq (takeBits_msb (v := rawCode) _ (Nat.two_pow_pos _)), if_neg (by decide), if_pos rfl, readLiteral_msb]

theorem decodeCode_eos {c : CodeCtx} (hnb : 1 ≤ c.nb) (rest : List Bool) :
    decodeCode c (msb c.nb eosCode ++ rest) = .ok (.eos, rest) := by
  rw [decodeCode_eq (takeBits_msb (v := eosCode) rest (Nat.one_lt_two_pow (by omega))), if_pos rfl]

theorem decodeCode_code {c : CodeCtx} {k : Nat} (hk : firstCode ≤ k) (hlt : k < 2 ^ c.nb) (rest : List Bool) :
    decodeCode c (msb c.nb k ++ rest) = .ok (c.instrOf k, rest) := by
  have h1 : k ≠ eosCode := by rintro rfl; exact absurd hk (by decide)
  have h0 : k ≠ rawCode := by rintro rfl; exact absurd hk (by decide)
  rw [decodeCode_eq (takeBits_msb rest hlt), if_neg h1, if_neg h0]

/-- What the decoder can have read: a raw-unit item, `EOS`, or a code that is not reserved. -/
theorem decodeCode_cases {c : CodeCtx} {bits rest : List Bool} {i : Instr} (h : decodeCode c bits = .ok (i, rest)) :
    (∃ u : Elem, i = .raw u ∧ bits = msb c.nb rawCode ++ (msb rawBits u.toNat ++ rest)) ∨
    (i = .eos ∧ 1 ≤ c.nb ∧ bits = msb c.nb eosCode ++ rest) ∨
    ∃ k, firstCode ≤ k ∧ k < 2 ^ c.nb ∧ i = c.instrOf k ∧ bits = msb c.nb k ++ rest := by
  cases hcode : takeBits c.nb bits with
  | none => cases (decodeCode_short hcode).symm.trans h
  | some kr =>
    obtain ⟨k, tl⟩ := kr
    rw [decodeCode_eq hcode] at h
    obtain ⟨rfl, hlt⟩ := eq_msb_append_of_takeBits hcode
    split_ifs at h with h1 h0
    · subst h1
      cases h
      exact .inr (.inl ⟨rfl, (Nat.one_lt_two_pow_iff.1 hlt).bot_lt, rfl⟩)
    · subst h0
      obtain ⟨u, rfl, rfl⟩ := readLiteral_eq_ok h
      exact .inl ⟨u, rfl, rfl⟩
    · have hk : firstCode ≤ k := lt_of_le_of_ne (Nat.pos_of_ne_zero h0) (Ne.symm h1)
      cases h
      exact .inr (.inr ⟨k, hk, hlt, rfl, rfl⟩)

/-! ## Well-formed code words -/

theorem wf_eos (c : CodeCtx) : Instr.eos.wf c = decide (1 ≤ c.nb) := rfl

/-- `REF` names a known entry (R164). -/
theorem wf_ref {c : CodeCtx} {k : Nat} : (Instr.ref k).wf c = true ↔
    firstCode ≤ k ∧ k < 2 ^ c.nb ∧ c.prev ≠ none ∧ c.known.contains k = true := by
  change (decide (firstCode ≤ k) && decide (k < 2 ^ c.nb) && c.prev.isSome && c.known.contains k) = true ↔ _
  simp only [Bool.and_eq_true, decide_eq_true_eq, Option.isSome_iff_ne_none, and_assoc]

/-- `REF_AHEAD` names the pending entry (R165). -/
theorem wf_refAhead {c : CodeCtx} {k : Nat} : (Instr.refAhead k).wf c = true ↔
    firstCode ≤ k ∧ k < 2 ^ c.nb ∧ c.prev ≠ none ∧ ¬ c.known.contains k = true ∧ c.pend = some k := by
  change (decide (firstCode ≤ k) && decide (k < 2 ^ c.nb) && c.prev.isSome && !c.known.contains k && c.pend == some k) = true ↔ _
  simp only [Bool.and_eq_true, decide_eq_true_eq, Option.isSome_iff_ne_none, Bool.not_eq_true', Bool.not_eq_true, beq_iff_eq,
    and_assoc]

/-- Any other code is illegal (R166). -/
theorem wf_illegalCode {c : CodeCtx} {k : Nat} : (Instr.illegalCode k).wf c = true ↔
    firstCode ≤ k ∧ k < 2 ^ c.nb ∧ (c.prev = none ∨ ¬ c.known.contains k = true ∧ c.pend ≠ some k) := by
  change (decide (firstCode ≤ k) && decide (k < 2 ^ c.nb) &&
    (c.prev.isNone || (!c.known.contains k && !(c.pend == some k)))) = true ↔ _
  simp only [Bool.and_eq_true, Bool.or_eq_true, decide_eq_true_eq, Option.isNone_iff_eq_none, Bool.not_eq_true',
    Bool.not_eq_true, beq_eq_false_iff_ne, ne_eq, and_assoc]

/-- The instruction of a code is well-formed, and the code is its encoding (R70, R75). -/
theorem instrOf_wf (c : CodeCtx) {k : Nat} (hk : firstCode ≤ k) (hlt : k < 2 ^ c.nb) :
    (c.instrOf k).isCodeWord = true ∧ (c.instrOf k).wf c = true ∧ encode c.nb (c.instrOf k) = msb c.nb k := by
  rw [instrOf_eq]
  split_ifs with hprev hknown hpend
  · exact ⟨rfl, wf_illegalCode.2 ⟨hk, hlt, .inl hprev⟩, rfl⟩
  · exact ⟨rfl, wf_ref.2 ⟨hk, hlt, hprev, hknown⟩, rfl⟩
  · exact ⟨rfl, wf_refAhead.2 ⟨hk, hlt, hprev, hknown, hpend⟩, rfl⟩
  · exact ⟨rfl, wf_illegalCode.2 ⟨hk, hlt, .inr ⟨hknown, hpend⟩⟩, rfl⟩

/-- A well-formed code word is a raw-unit item, `EOS`, or the instruction of its code (R71, R74). -/
theorem codeWord_cases {c : CodeCtx} {i : Instr} (hi : i.isCodeWord = true) (hwf : i.wf c = true) :
    (∃ u, i = .raw u) ∨ (i = .eos ∧ 1 ≤ c.nb) ∨ ∃ k, firstCode ≤ k ∧ k < 2 ^ c.nb ∧ i = c.instrOf k := by
  cases i with
  | raw u => exact .inl ⟨u, rfl⟩
  | eos => exact .inr (.inl ⟨rfl, of_decide_eq_true (wf_eos c ▸ hwf)⟩)
  | ref k =>
    obtain ⟨hk, hlt, hprev, hknown⟩ := wf_ref.1 hwf
    exact .inr (.inr ⟨k, hk, hlt, by rw [instrOf_eq, if_neg hprev, if_pos hknown]⟩)
  | refAhead k =>
    obtain ⟨hk, hlt, hprev, hnew, hpend⟩ := wf_refAhead.1 hwf
    exact .inr (.inr ⟨k, hk, hlt, by rw [instrOf_eq, if_neg hprev, if_neg hnew, if_pos hpend]⟩)
  | illegalCode k =>
    obtain ⟨hk, hlt, hprev | ⟨hnew, hpend⟩⟩ := wf_illegalCode.1 hwf
    · exact .inr (.inr ⟨k, hk, hlt, by rw [instrOf_eq, if_pos hprev]⟩)
    · exact .inr (.inr ⟨k, hk, hlt, by rw [instrOf_eq, if_neg hnew, if_neg hpend, ite_self]⟩)
  | _ => cases hi

/-- The encoding has the length the table gives it (R70, R73, R79): the laws of `Laws.Length`, together. -/
theorem length_encode (nb : Nat) (i : Instr) : (encode nb i).length = i.width nb := by
  cases i with
  | raw u => exact Laws.Length.raw u nb
  | eos => exact Laws.Length.eos nb
  | ref k => exact Laws.Length.ref k nb
  | refAhead k => exact Laws.Length.refAhead k nb
  | illegalCode k => exact Laws.Length.illegalCode k nb
  | compressRaw16 => exact Laws.Length.compressRaw16 nb
  | compressBase64 => exact Laws.Length.compressBase64 nb
  | compressUri => exact Laws.Length.compressUri nb
  | compressBytes => exact Laws.Length.compressBytes nb
  | decompressRaw16 => exact Laws.Length.decompressRaw16 nb
  | decompressBase64 => exact Laws.Length.decompressBase64 nb
  | decompressUri => exact Laws.Length.decompressUri nb
  | decompressBytes => exact Laws.Length.decompressBytes nb

/-- A command is read back from its value of `CMD`, and from that value as a table word (R79). -/
theorem decode_encode_command {i : Instr} (nb : Nat) (hi : i.isCodeWord = false) :
    (encodeCommand i).map decodeCommand = some i ∧ decodeTableWord 3 (val (encode nb i)) = some i := by
  cases i with
  | raw | eos | ref | refAhead | illegalCode => cases hi
  | compressRaw16 | compressBase64 | compressUri | compressBytes => exact ⟨rfl, rfl⟩
  | decompressRaw16 | decompressBase64 | decompressUri | decompressBytes => exact ⟨rfl, rfl⟩

/-- Settles O7: each kind of code word by its rule of the decoder, and each command by its value. -/
theorem decodingUndoesEncoding : Obligations.DecodingUndoesEncoding := by
  refine ⟨fun c i rest hi hwf => ?_, fun i nb hi => decode_encode_command nb hi⟩
  rcases codeWord_cases hi hwf with ⟨u, rfl⟩ | ⟨rfl, hnb⟩ | ⟨k, hk, hlt, rfl⟩
  · have hassoc : encode c.nb (.raw u) ++ rest = msb c.nb rawCode ++ (msb rawBits u.toNat ++ rest) := List.append_assoc ..
    rw [hassoc]
    exact decodeCode_raw c u rest
  · exact decodeCode_eos hnb rest
  · obtain ⟨-, -, hencode⟩ := instrOf_wf c hk hlt
    rw [hencode]
    exact decodeCode_code hk hlt rest

/-- Settles O8: `decodeCode_cases` says what can have been read, and each kind is well-formed. -/
theorem encodingUndoesDecoding : Obligations.EncodingUndoesDecoding := by
  intro c bits rest i h
  have hread : i.isCodeWord = true ∧ i.wf c = true ∧ encode c.nb i ++ rest = bits := by
    rcases decodeCode_cases h with ⟨u, rfl, rfl⟩ | ⟨rfl, hnb, rfl⟩ | ⟨k, hk, hlt, rfl, rfl⟩
    · exact ⟨rfl, rfl, List.append_assoc ..⟩
    · exact ⟨rfl, decide_eq_true hnb, rfl⟩
    · obtain ⟨hcode, hwf, hencode⟩ := instrOf_wf c hk hlt
      exact ⟨hcode, hwf, by rw [hencode]⟩
  obtain ⟨hcode, hwf, hbits⟩ := hread
  exact ⟨hcode, hwf, hbits, length_encode c.nb i⟩

/-- Settles O10: each word is a literal, so the decoder runs on it. -/
theorem wordsOfTheTables : Obligations.WordsOfTheTables := by
  unfold Obligations.WordsOfTheTables
  decide

end Sys2Proof

namespace Sys2Proof.Machine

open Sys2Proof.Safety Sys2Proof.Claims

/-! ## Legal codes -/

/-- In a sound state the first phrase sets `PREV` (10_state.md R36). -/
theorem DecodeOk_phrasesDecoded {s : State} (h : DecodeOk s) (hprev : s.prev ≠ none) : PhrasesDecoded s := by
  obtain ⟨-, -, -, -, ⟨hnone, -⟩ | hphrases⟩ := h
  · exact absurd hnone hprev
  · exact hphrases

/-- The entries known to the decoder are those below `PEND = N - 1`, so `N` decides what a code stands for (R74). -/
theorem instrOf_codeCtx {s : State} (h : PhrasesDecoded s) {k : Nat} (hk : firstCode ≤ k) :
    s.codeCtx.instrOf k = if k ≤ s.n - 2 then .ref k else if k = s.n - 1 then .refAhead k else .illegalCode k := by
  obtain ⟨p, q, hp, hq, hpq, hqn, hp2, hdom⟩ := h
  have hknown : s.codeCtx.known.contains k = true ↔ k ≤ s.n - 2 := by
    rw [List.contains_iff_mem, State.codeCtx, ← Table.read?_isSome, hdom]
    omega
  have hpend : s.codeCtx.pend = some k ↔ k = s.n - 1 := by
    rw [State.codeCtx, hq, Option.some.injEq]
    omega
  have hprev : s.codeCtx.prev ≠ none := fun hnone => by cases hp.symm.trans hnone
  simp only [instrOf_eq, hprev, hknown, hpend, if_false]

/-- Settles O9: the reserved codes by their rules, the others by `decodeCode_code`, where `instrOf_codeCtx` gives the row of
R74. -/
theorem legalCodes : Obligations.LegalCodes := by
  intro s k rest hc hd hk
  have hcode : ∀ i, firstCode ≤ k → s.codeCtx.instrOf k = i → decodeCode s.codeCtx (msb s.nb k ++ rest) = .ok (i, rest) :=
    fun i hk2 hi => hi ▸ decodeCode_code (c := s.codeCtx) hk2 hk rest
  obtain ⟨hn2, hnlt, -, -⟩ := hc
  refine ⟨fun hprev => ?_, hnlt, ?_, ?_, fun hprev hk2 hkn => ?_, fun hprev hkn => ?_, fun hillegal => ?_⟩
  · obtain ⟨p, q, -, hq, -, hqn, -⟩ := DecodeOk_phrasesDecoded hd hprev
    rw [hq, ← hqn, Nat.add_sub_cancel]
  · rintro rfl u r rfl
    exact decodeCode_raw s.codeCtx u r
  · rintro rfl
    exact decodeCode_eos (c := s.codeCtx) (Nat.one_lt_two_pow_iff.1 hk).bot_lt rest
  · refine hcode _ hk2 ?_
    rw [instrOf_codeCtx (DecodeOk_phrasesDecoded hd hprev) hk2, if_pos hkn]
  · have hphrases := DecodeOk_phrasesDecoded hd hprev
    have hk2 : firstCode ≤ k := by
      obtain ⟨p, q, -, -, hpq, hqn, hp2, -⟩ := hphrases
      omega
    refine hcode _ hk2 ?_
    rw [instrOf_codeCtx hphrases hk2, if_neg (by omega), if_pos hkn]
  · refine ⟨?_, fail .badCode s, rfl, reports_fail .badCode s⟩
    rcases hillegal with ⟨hprev, hk2⟩ | ⟨hprev, hkn⟩
    · exact hcode _ hk2 (if_pos hprev)
    · have hk2 : firstCode ≤ k := hn2.trans hkn
      refine hcode _ hk2 ?_
      rw [instrOf_codeCtx (DecodeOk_phrasesDecoded hd hprev) hk2, if_neg (by omega), if_neg (by omega)]

end Sys2Proof.Machine
end

section
/-! PROOFS of the statements of 30_encoding.md, part 2: the code stream of a compression is a list of legal items (R72 to R74,
41_compress.md R142). -/

namespace Sys2Proof.Machine

open Sys2Proof.Claims

/-! ## The compressor, by cases -/

/-- The emission of a known phrase is a reference, R138. -/
theorem enc_emit_known {e : Whole.Enc} {k : Nat} (hk : DictC.code? e.dict e.w = some k) :
    e.emit = { e with stream := e.stream ++ msb (bitlen e.n) k } := by
  delta Whole.Enc.emit
  rw [hk]

/-- The emission of a new phrase is an escape and registers it, R138. -/
theorem enc_emit_new {e : Whole.Enc} (hk : DictC.code? e.dict e.w = none) : e.emit =
    { e with
      stream := e.stream ++ msb (bitlen e.n) rawCode ++ (e.w.map fun u => msb rawBits u.toNat).flatten
      dict := DictC.add e.dict e.w e.n
      n := e.n + 1 } := by
  delta Whole.Enc.emit
  rw [hk]

/-- The first unit of a phrase, R135. -/
theorem enc_scan_first {e : Whole.Enc} (hw : e.w = []) (c : Elem) : e.scan c = { e with w := [c] } := if_pos hw

/-- A longer word that is known, R136. -/
theorem enc_scan_hit {e : Whole.Enc} {c : Elem} (hw : e.w ≠ []) (hs : (DictC.code? e.dict (e.w ++ [c])).isSome) :
    e.scan c = { e with w := e.w ++ [c] } := (if_neg hw).trans (if_pos hs)

/-- A longer word that is new, R137. -/
theorem enc_scan_miss {e : Whole.Enc} {c : Elem} (hw : e.w ≠ []) (hs : ¬ (DictC.code? e.dict (e.w ++ [c])).isSome) :
    e.scan c = { e.emit with dict := DictC.add e.emit.dict (e.w ++ [c]) e.emit.n, n := e.emit.n + 1, w := [c] } :=
  (if_neg hw).trans (if_neg hs)

/-- The end without a pending phrase, R140. -/
theorem enc_close_empty {e : Whole.Enc} (hw : e.w = []) :
    e.close = { e with stream := e.stream ++ msb (bitlen e.n) eosCode } := by
  delta Whole.Enc.close
  rw [if_pos hw]

/-- The end with a pending phrase, R140: its emission, the slot reserved after it, and the terminator. -/
theorem enc_close_phrase {e : Whole.Enc} (hw : e.w ≠ []) :
    e.close = { e.emit with n := e.emit.n + 1, stream := e.emit.stream ++ msb (bitlen (e.emit.n + 1)) eosCode } := by
  delta Whole.Enc.close
  rw [if_neg hw]

/-- An emission keeps every entry (10_state.md R33). -/
theorem code?_emit {e : Whole.Enc} {p : Phrase} {k : Nat} (hk : DictC.code? e.dict p = some k) :
    DictC.code? e.emit.dict p = some k := by
  cases hw : DictC.code? e.dict e.w with
  | some j => rwa [enc_emit_known hw]
  | none =>
    have hne : p ≠ e.w := by rintro rfl; cases hw.symm.trans hk
    rw [enc_emit_new hw, DictC.code?_add, if_neg hne, hk]

/-- The rest of a compression keeps every entry. -/
theorem code?_foldl_scan_close (ys : List Elem) {e : Whole.Enc} {p : Phrase} {k : Nat} (hk : DictC.code? e.dict p = some k) :
    DictC.code? (ys.foldl Whole.Enc.scan e).close.dict p = some k := by
  induction ys generalizing e with
  | nil =>
    by_cases hw : e.w = []
    · rw [List.foldl_nil, enc_close_empty hw]
      exact hk
    · rw [List.foldl_nil, enc_close_phrase hw]
      exact code?_emit hk
  | cons c ys ih =>
    obtain ⟨-, -, hkept⟩ := enc_scan_grows e c
    exact ih (hkept p k hk)

/-! ## Sound compressors -/

/-- Every code of the dictionary is assigned: from `FIRST_CODE` up and below `n` (10_state.md R31). -/
def CodesBelow (n : Nat) (d : DictC) : Prop := ∀ p k, DictC.code? d p = some k → firstCode ≤ k ∧ k < n

theorem CodesBelow.add {n : Nat} {d : DictC} (h : CodesBelow n d) (hn : firstCode ≤ n) (p : Phrase) :
    CodesBelow (n + 1) (DictC.add d p n) := by
  intro q k hk
  rw [DictC.code?_add] at hk
  by_cases hq : q = p
  · rw [if_pos hq] at hk
    cases hk
    exact ⟨hn, Nat.lt_succ_self _⟩
  · rw [if_neg hq] at hk
    obtain ⟨hlow, hhigh⟩ := h q k hk
    exact ⟨hlow, Nat.lt_succ_of_lt hhigh⟩

/-- A compressor between two units: its codes are assigned ones, and its pending phrase, if any, is known or one unit
(10_state.md R31, R32). -/
def EncSound (e : Whole.Enc) : Prop :=
  firstCode ≤ e.n ∧ CodesBelow e.n e.dict ∧ (e.w ≠ [] → (DictC.code? e.dict e.w).isSome ∨ ∃ u, e.w = [u])

theorem encSound_init : EncSound Whole.Enc.init := ⟨le_rfl, nofun, (absurd rfl ·)⟩

theorem EncSound.emit_codes {e : Whole.Enc} (h : EncSound e) : CodesBelow e.emit.n e.emit.dict := by
  obtain ⟨hn, hcodes, -⟩ := h
  cases hw : DictC.code? e.dict e.w with
  | some k => rwa [enc_emit_known hw]
  | none => rw [enc_emit_new hw]; exact hcodes.add hn e.w

theorem EncSound.scan {e : Whole.Enc} (h : EncSound e) (c : Elem) : EncSound (e.scan c) := by
  have hemit := h.emit_codes
  obtain ⟨hn, hcodes, -⟩ := h
  by_cases hw : e.w = []
  · rw [enc_scan_first hw]
    exact ⟨hn, hcodes, fun _ => .inr ⟨c, rfl⟩⟩
  by_cases hs : (DictC.code? e.dict (e.w ++ [c])).isSome
  · rw [enc_scan_hit hw hs]
    exact ⟨hn, hcodes, fun _ => .inl hs⟩
  · rw [enc_scan_miss hw hs]
    have hn' : firstCode ≤ e.emit.n := hn.trans (enc_emit_mono e).1
    exact ⟨Nat.le_succ_of_le hn', hemit.add hn' _, fun _ => .inr ⟨c, rfl⟩⟩

/-! ## Items -/

/-- What ties an item to its phrase: an escape is its unit, a reference the word that has its code in `d` (R72). -/
def ItemOf (d : DictC) (p : Phrase) (i : Item) : Prop :=
  (∀ u, i = .raw u → p = [u]) ∧ ∀ k, i = .ref k → DictC.code? d p = some k

/-- An emission writes one item of the pending phrase; with the code assigned after it, it uses the item's codes (R73). -/
theorem EncSound.emit_item {e : Whole.Enc} (h : EncSound e) (hw : e.w ≠ []) :
    ∃ i : Item, e.emit.stream = e.stream ++ i.bits e.n ∧ e.emit.n + 1 = e.n + i.codes ∧ ItemOf e.dict e.w i := by
  obtain ⟨-, -, hpending⟩ := h
  cases hk : DictC.code? e.dict e.w with
  | some k =>
    rw [enc_emit_known hk]
    exact ⟨.ref k, rfl, rfl, nofun, fun j hj => by cases hj; exact hk⟩
  | none =>
    obtain ⟨u, hu⟩ := (hpending hw).resolve_left (by simp [hk])
    rw [enc_emit_new hk, hu]
    exact ⟨.raw u, List.append_assoc .., rfl, fun v hv => by cases hv; rfl, nofun⟩

/-- The compression `f` writes the items after the stream `bits`, from count `n` on; their phrases joined are `zs`. -/
def Writes (bits : List Bool) (n : Nat) (f : Whole.Enc) (zs : List Elem) (items : List (Item × Phrase)) : Prop :=
  f.stream = bits ++ streamOf n (items.map Prod.fst) ∧ legal n (items.map Prod.fst) ∧
    (∀ i ∈ items, i.2 ≠ [] ∧ ItemOf f.dict i.2 i.1) ∧ (items.map Prod.snd).flatten = zs ∧
    f.n = n + ((items.map Prod.fst).map Item.codes).sum

theorem writes_nil {e : Whole.Enc} (hw : e.w = []) : Writes e.stream e.n e.close [] [] := by
  rw [enc_close_empty hw]
  exact ⟨rfl, trivial, nofun, rfl, rfl⟩

/-- An emission before the items. Its reference is legal, for its code is an assigned one (R74). -/
theorem EncSound.writes_cons {e f : Whole.Enc} (h : EncSound e) (hw : e.w ≠ []) {zs : List Elem} {items : List (Item × Phrase)}
    (hkept : ∀ p k, DictC.code? e.dict p = some k → DictC.code? f.dict p = some k)
    (hrest : Writes e.emit.stream (e.emit.n + 1) f zs items) : ∃ is, Writes e.stream e.n f (e.w ++ zs) is := by
  obtain ⟨i, hbits, hcodes, hunit, hcode⟩ := h.emit_item hw
  obtain ⟨-, hbelow, -⟩ := h
  rw [hbits, hcodes] at hrest
  obtain ⟨hstream, hlegal, hphrases, hwords, hsum⟩ := hrest
  refine ⟨(i, e.w) :: items, ?_, ?_, ?_, ?_, ?_⟩
  · simpa [streamOf] using hstream
  · cases i with
    | raw u => exact hlegal
    | ref k =>
      obtain ⟨hlow, hhigh⟩ := hbelow _ _ (hcode k rfl)
      exact ⟨hlow.trans_lt hhigh, hlow, Nat.le_sub_one_of_lt hhigh, hlegal⟩
  · rintro j (- | ⟨-, hj⟩)
    · exact ⟨hw, hunit, fun k hk => hkept _ _ (hcode k hk)⟩
    · exact hphrases j hj
  · simp [hwords]
  · simp [hsum, Nat.add_assoc]

/-- From a sound compressor on, the rest of a compression writes items of the pending phrase and the units still to come. -/
theorem EncSound.writes (ys : List Elem) {e : Whole.Enc} (h : EncSound e) :
    ∃ items, Writes e.stream e.n (ys.foldl Whole.Enc.scan e).close (e.w ++ ys) items := by
  induction ys generalizing e with
  | nil =>
    by_cases hw : e.w = []
    · exact ⟨[], by simpa [hw] using writes_nil hw⟩
    · rw [List.foldl_nil, enc_close_phrase hw]
      exact h.writes_cons hw (fun p k => code?_emit) (items := []) ⟨rfl, trivial, nofun, rfl, rfl⟩
  | cons c ys ih =>
    have hscan := ih (h.scan c)
    by_cases hw : e.w = []
    · rw [enc_scan_first hw] at hscan
      simpa [hw, enc_scan_first hw] using hscan
    by_cases hs : (DictC.code? e.dict (e.w ++ [c])).isSome
    · rw [enc_scan_hit hw hs] at hscan
      simpa [enc_scan_hit hw hs] using hscan
    · obtain ⟨items, hitems⟩ := hscan
      refine h.writes_cons hw (fun p k => code?_foldl_scan_close (c :: ys)) (items := items) ?_
      rw [List.foldl_cons]
      rwa [enc_scan_miss hw hs] at hitems ⊢

/-- The first item is an escape: at `FIRST_CODE` no reference is legal (R72). -/
theorem legal_firstCode {i : Item} {is : List Item} (h : legal firstCode (i :: is)) : ∃ u, i = .raw u := by
  cases i with
  | raw u => exact ⟨u, rfl⟩
  | ref k =>
    obtain ⟨hlt, -⟩ := h
    exact absurd hlt (Nat.lt_irrefl _)

/-- Phrases that are not empty join to nothing only if there are none. -/
theorem Writes.eq_nil_iff {bits : List Bool} {n : Nat} {f : Whole.Enc} {zs : List Elem} {items : List (Item × Phrase)}
    (h : Writes bits n f zs items) : items = [] ↔ zs = [] := by
  obtain ⟨-, -, hphrases, rfl, -⟩ := h
  rw [List.flatten_eq_nil_iff]
  refine ⟨by rintro rfl; nofun, fun hempty => List.eq_nil_iff_forall_not_mem.2 fun i hi => ?_⟩
  obtain ⟨hne, -⟩ := hphrases i hi
  exact hne (hempty _ (List.mem_map_of_mem hi))

/-- Settles O41: the items are those that `EncSound.writes` finds from the start on. -/
theorem compressionGrammar : Obligations.CompressionGrammar := by
  intro xs
  obtain ⟨items, h⟩ := encSound_init.writes xs
  have hnil := h.eq_nil_iff
  obtain ⟨hstream, hlegal, hphrases, hwords, hsum⟩ := h
  refine ⟨items, hstream, hlegal, hnil, fun i hi => ?_, fun i hi => ?_, fun i hi k hk => ?_, hwords, hsum⟩
  · obtain ⟨is, rfl⟩ := List.head?_eq_some_iff.1 hi
    obtain ⟨u, hu⟩ := legal_firstCode hlegal
    obtain ⟨-, hunit, -⟩ := hphrases i (List.mem_cons_self ..)
    exact ⟨u, hu, hunit u hu⟩
  · obtain ⟨hne, hunit, -⟩ := hphrases i hi
    exact ⟨hne, hunit⟩
  · obtain ⟨-, -, hcode⟩ := hphrases i hi
    exact hcode k hk

end Sys2Proof.Machine
end

section
/-! PROOFS of the statements of 40_bitstream.md: what `UNPACK` checks and builds (R104), what the writer appends (R103), and that the
reader gives back what the writer wrote (R106). -/

namespace Sys2Proof.Machine

open Sys2Proof.Safety Sys2Proof.Claims

/-! ## The check step -/

/-- Legal input unpacks into one group of bits per element (R104). -/
theorem unpack_legal {s : State} {len : Nat} (hlen : len = s.adapter.length s.inAt s.inLen)
    (h : ∀ i < len, s.adapter.dec (s.inAt i) ≠ none) :
    ∃ bits, unpack s = .ok { s with bits := bits, bp := 0 } ∧ bits.length = s.adapter.sb * len ∧
      ∀ i < len, ∀ v, s.adapter.dec (s.inAt i) = some v →
        (bits.drop (i * s.adapter.sb)).take s.adapter.sb = msb s.adapter.sb v := by
  subst hlen
  obtain ⟨bits, hbits⟩ := unpackElems_some (ad := s.adapter) (xs := s.inElems (s.adapter.length s.inAt s.inLen))
    (by simpa [State.inElems] using h)
  refine ⟨bits, by rw [unpack, hbits], by rw [unpackElems_length hbits, length_inElems], fun i hi v hv => ?_⟩
  exact unpackElems_group hbits i (by rwa [length_inElems]) v (by simpa [State.inElems] using hv)

/-- One illegal element is enough for `ERR_ALPHABET` (43_alphabets.md R199). -/
theorem unpack_illegal {s : State} {i : Nat} (hi : i < s.adapter.length s.inAt s.inLen)
    (h : s.adapter.dec (s.inAt i) = none) : unpack s = .error (.cause .alphabet) := by
  have hmem : s.inAt i ∈ s.inElems (s.adapter.length s.inAt s.inLen) := List.mem_map_of_mem (List.mem_range.2 hi)
  rw [unpack, unpackElems_none hmem h]

/-- Settles O24: the step is `UNPACK`, which all of the elements pass (`unpack_legal`) or one does not (`unpack_illegal`). -/
theorem checkStepUnpacks : Obligations.CheckStepUnpacks := by
  intro s rest len hp hs hturn hlen
  set u : State := tick { s with host := rest }
  have hstep : step s = settle u (checkStep u) := (step_of_engineTurn hturn).trans (engineStep_dCheck hp hs)
  refine ⟨fun hlegal => ?_, fun ⟨i, hi, hillegal⟩ => ?_⟩
  · obtain ⟨bits, hunpack, hbits, hgroups⟩ := unpack_legal (s := u) hlen hlegal
    refine ⟨{ u with bits := bits, bp := 0, phase := .dDecode }, by rw [hstep, checkStep, hunpack]; rfl, rfl, rfl, hbits, hgroups, ?_⟩
    exact ⟨rfl, rfl, rfl, rfl, rfl, rfl, rfl, rfl, ⟨rfl, fun _ => rfl⟩, ⟨rfl, rfl, rfl, rfl, rfl⟩, rfl, fun _ => rfl, rfl⟩
  · have hunpack : unpack u = .error (.cause .alphabet) := unpack_illegal (by rwa [hlen] at hi) hillegal
    exact ⟨fail .alphabet u, by rw [hstep, checkStep, hunpack]; rfl, ⟨rfl, rfl, rfl⟩, rfl, fun _ => rfl, rfl⟩

/-! ## The writer -/

theorem putBits_append (a b : List Bool) (s : State) : putBits (a ++ b) s = (putBits a s).bind (putBits b) := by
  induction a generalizing s with
  | nil => rfl
  | cons x a ih =>
    simp only [List.cons_append, putBits]
    cases putBit x s with
    | error e => rfl
    | ok t => exact ih t

/-- `WRITE` calls put the bits of their stream, one by one (R100). -/
theorem writeAll_eq_putBits (ws : List (Nat × Nat)) (s : State) : writeAll ws s = putBits (stream ws) s := by
  induction ws generalizing s with
  | nil => rfl
  | cons w ws ih =>
    have hstream : stream (w :: ws) = msb w.2 w.1 ++ stream ws := rfl
    rw [hstream, putBits_append, ← funext ih]
    rfl

/-- A state with an empty accumulator is one where the writer can begin (10_state.md R34). -/
theorem accOk_of_empty {s : State} (ha : s.acc = 0) (hc : s.accCnt = 0) : AccOk s := by
  simp [AccOk, ha, hc, sb_pos]

/-- An empty accumulator holds the value 0. -/
theorem acc_eq_zero {s : State} (h : AccOk s) (hc : s.accCnt = 0) : s.acc = 0 := by
  obtain ⟨-, hlt⟩ := h
  simpa [hc] using hlt

/-- From an empty accumulator, everything written is whole symbols. -/
theorem length_written {s : State} (ha : AccOk s) (hc : s.accCnt = 0) : (written s).length = s.outLen * s.adapter.sb := by
  rw [(wrote_written ha).length_eq, hc, Nat.add_zero]

/-- Whole groups in front of a stream do not change how many groups it fills. -/
theorem ceil_mul_add {k : Nat} (hk : 0 < k) (q n : Nat) : (q * k + n + k - 1) / k = q + (n + k - 1) / k := by
  rw [show q * k + n + k - 1 = k * q + (n + k - 1) by rw [mul_comm]; omega, Nat.mul_add_div hk]

/-- `WRITE` calls and then the loop of `FINISH`, when the symbols have room: they add their stream, and zeros up to the end of the
last group, to the bits written before (R102). -/
theorem writeAll_padZeros (ws : List (Nat × Nat)) {s : State} {before : List Bool} (hw : Wrote s.outLen s before) (ho : OutOk s)
    (ha : AccOk s)
    (hroom : exceeds s.params.outMax ((before.length + (stream ws).length + s.adapter.sb - 1) / s.adapter.sb) = false) :
    ∃ t z, (writeAll ws s).bind (padZeros s.adapter.sb) = .ok t ∧ WriterStep s t ∧ KeepsOut s t ∧ t.accCnt = 0 ∧
      Wrote s.outLen t (before ++ stream ws ++ List.replicate z false) ∧
      before.length + (stream ws).length + z =
        (before.length + (stream ws).length + s.adapter.sb - 1) / s.adapter.sb * s.adapter.sb := by
  rw [writeAll_eq_putBits]
  rcases wrote_putBits (stream ws) hw ho ha with ⟨u, hu, hsu, hku, hwu⟩ | ⟨-, hx⟩
  · rcases wrote_padZeros s.adapter.sb hwu hsu.out hsu.acc (.inr (by rw [hsu.adapter]; omega)) with
      ⟨t, z, ht, hst, hkt, h0, hwt, hz⟩ | ⟨-, hx⟩
    · rw [hsu.adapter, List.length_append] at hz
      exact ⟨t, z, by rw [hu]; exact ht, hsu.trans hst, hku.trans hkt, h0, hwt, hz⟩
    · rw [hsu.adapter, hsu.params, List.length_append, hroom] at hx
      cases hx
  · have hsb := sb_pos s.adapter
    rw [exceeds_mono (Nat.div_le_div_right (by omega)) hx] at hroom
    cases hroom

/-- The group the statement spells out bit by bit is that of the stream with zeros past its end (R103). -/
theorem val_eq_symbolAt {sb i : Nat} {bits g : List Bool} (hlen : g.length = sb)
    (h : ∀ j < sb, g[j]? = some (bits[i * sb + j]?.getD false)) : val g = symbolAt sb i bits := by
  have hg : g = (bits.drop (i * sb) ++ List.replicate sb false).take sb := by
    apply List.ext_getElem?
    intro j
    by_cases hj : j < sb
    · rw [h j hj, List.getElem?_take_of_lt hj, List.getElem?_append, List.getElem?_drop, List.length_drop,
        List.getElem?_replicate]
      split
      · rw [List.getElem?_eq_getElem (by omega)]; rfl
      · rw [List.getElem?_eq_none (by omega), if_pos (by omega)]; rfl
    · rw [List.getElem?_eq_none (by omega), List.getElem?_eq_none (by simp; omega)]
  rw [hg, symbolAt]

/-- A group after `q` whole groups, in a stream filled up with zeros, is a symbol of the stream that begins there. -/
theorem val_group_eq_symbolAt {sb q i z : Nat} {before bits : List Bool} (hb : before.length = q * sb)
    (hi : (i + 1) * sb ≤ bits.length + z) :
    val (((before ++ bits ++ List.replicate z false).drop ((q + i) * sb)).take sb) = symbolAt sb i bits := by
  rw [List.append_assoc, Nat.add_mul, ← hb, ← List.drop_drop, List.drop_left, group_zeros hi, symbolAt]

theorem KeepsOut.outAt {s t : State} (h : KeepsOut s t) (hst : WriterStep s t) {i : Nat} (hi : i < s.outLen) :
    t.outAt i = s.outAt i := by
  have hread := h.2 i hi
  obtain ⟨_, _, _, _, rfl, -, -⟩ := hst
  rw [State.outAt, hread, State.outAt]

theorem Wrote.outAt {o : Nat} {s : State} {bits : List Bool} (h : Wrote o s bits) {i : Nat} (ho : o ≤ i) (hi : i < s.outLen) :
    s.outAt i = s.adapter.enc (val ((bits.drop (i * s.adapter.sb)).take s.adapter.sb)) := by
  rw [State.outAt, h.out i ho hi, Option.getD_some]

/-- Settles O25: `Wrote` holds of the bits written before the calls, which are whole groups, and is kept by the writer
(`writeAll_padZeros`); so each new element is the symbol of its group of the calls' stream. -/
theorem writerSummary : Obligations.WriterSummary := by
  intro ws s len ho hacc hcnt hlen hroom
  have hsb := sb_pos s.adapter
  have ha := accOk_of_empty hacc hcnt
  have hbefore := length_written ha hcnt
  have hceil : ((written s).length + (stream ws).length + s.adapter.sb - 1) / s.adapter.sb = s.outLen + len := by
    rw [hbefore, ceil_mul_add hsb, hlen]
  obtain ⟨t, z, ht, hst, hkeep, h0, hw, hz⟩ :=
    writeAll_padZeros ws (wrote_written ha) ho ha (by rw [hceil]; exact exceeds_eq_false.2 hroom)
  rw [hceil] at hz
  have houtLen : t.outLen = s.outLen + len := by
    rw [hw.len, hst.adapter, List.length_append, List.length_append, List.length_replicate, hz, Nat.mul_div_cancel _ hsb]
  refine ⟨t, ht, houtLen, acc_eq_zero hst.acc h0, h0, fun i hi g hg hbits => ?_, fun i hi => hkeep.outAt hst hi⟩
  have hgroup : (i + 1) * s.adapter.sb ≤ (stream ws).length + z := by
    have hle : (i + 1) * s.adapter.sb ≤ len * s.adapter.sb := Nat.mul_le_mul_right _ hi
    rw [hbefore, Nat.add_mul] at hz
    omega
  rw [hw.outAt (Nat.le_add_right _ _) (by omega), hst.adapter, val_group_eq_symbolAt hbefore hgroup, val_eq_symbolAt hg hbits]

/-! ## The reader -/

/-- `READ` of a value that stands next in the stream (R105). -/
theorem readBits_msb {s : State} {v n : Nat} {rest : List Bool} (h : s.restBits = msb n v ++ rest) (hv : v < 2 ^ n) :
    readBits n s = .ok (v, s.consume n) ∧ (s.consume n).restBits = rest := by
  refine ⟨by rw [readBits, h, takeBits_msb rest hv], ?_⟩
  rw [restBits_consume, h, List.drop_left' (msb_length n v)]

/-- `READ` calls return the values whose stream stands next, whatever follows it. -/
theorem readAll_stream {ws : List (Nat × Nat)} {s : State} {rest : List Bool} (h : s.restBits = stream ws ++ rest)
    (hfit : ∀ w ∈ ws, w.1 < 2 ^ w.2) : readAll (ws.map Prod.snd) s = .ok (ws.map Prod.fst) := by
  induction ws generalizing s with
  | nil => rfl
  | cons w ws ih =>
    obtain ⟨hw, hws⟩ := List.forall_mem_cons.1 hfit
    have hstream : s.restBits = msb w.2 w.1 ++ (stream ws ++ rest) := by rw [h, ← List.append_assoc]; rfl
    obtain ⟨hread, hrest⟩ := readBits_msb hstream hw
    simp only [List.map_cons, readAll, hread, Except.bind, ih hrest hws, Except.map]

/-- `WRITE` calls and `FINISH` from an empty `OUT` leave the rendered stream there (R103, 43_alphabets.md R193). -/
theorem outElems_writeAll_finish {ws : List (Nat × Nat)} {s t : State} (ho : OutOk s) (h0 : s.outLen = 0) (hacc : s.acc = 0)
    (hcnt : s.accCnt = 0) (ht : (writeAll ws s).bind finish = .ok t) : t.outElems = Whole.render s.adapter (stream ws) := by
  have ha := accOk_of_empty hacc hcnt
  have hempty : Wrote 0 s [] := ⟨by simp [hcnt], by simp [hacc], by simp [h0], by simp [h0]⟩
  obtain ⟨u, hu, ht⟩ := bind_eq_ok.1 ht
  rw [writeAll_eq_putBits] at hu
  rcases wrote_putBits (stream ws) hempty ho ha with ⟨u', hu', hsu, -, hwu⟩ | ⟨he, -⟩
  · cases hu.symm.trans hu'
    rcases wrote_finish hwu hsu.out hsu.acc with ⟨t', ht', -, -, hlen, hout, -⟩ | ⟨he, -⟩
    · cases ht.symm.trans ht'
      rw [hsu.adapter, List.nil_append] at hlen hout
      refine List.ext_getElem ((length_outElems t).trans hlen) fun i hi hi' => ?_
      rw [getElem_outElems hi, State.outAt, hout i (Nat.zero_le i) hi', Option.getD_some]
    · cases ht.symm.trans he
  · cases hu.symm.trans he

/-- Settles O26: the output is the rendered stream (`outElems_writeAll_finish`), which unpacks to the stream and its padding
(`unpack_render`), from which the reader takes the values back (`readAll_stream`). -/
theorem readerUndoesWriter : Obligations.ReaderUndoesWriter := by
  intro ws s t r ho h0 hacc hcnt hfit ht had hlen hin
  have hinput : r.inElems r.inLen = Whole.render s.adapter (stream ws) := by
    rw [← outElems_writeAll_finish ho h0 hacc hcnt ht, State.outElems, ← hlen]
    exact List.map_congr_left fun i hi => hin i (List.mem_range.1 hi)
  have hunpack := unpack_eq r
  rw [hinput, had, unpack_render] at hunpack
  exact ⟨_, hunpack, readAll_stream rfl hfit⟩

end Sys2Proof.Machine
end

section
/-! PROOFS of the statements of 42_decompress.md, part 1: decompression as a function (R168) undoes compression (R171), whatever the
adapter (R172) and whatever stands after `EOS` (R162, R173). -/

namespace Sys2Proof.Machine

open Sys2Proof.Safety Sys2Proof.Claims

/-! ## The round trip -/

/-- What a compression that succeeds says of its bounds and its result (41_compress.md R141). -/
theorem command_compress_eq_ok {v : BitVec 3} {p : Params} {xs out : List Elem} {n nb : Nat} (hv : cmdDir v = false)
    (h : Whole.command v p xs = .ok out n nb) :
    exceeds p.maxCodeBits (bitlen (Whole.encodeStream xs).n) = false ∧
      out = Whole.render (cmdAdapter v) (Whole.encodeStream xs).stream ∧
      n = (Whole.encodeStream xs).n ∧ nb = bitlen (Whole.encodeStream xs).n := by
  rw [command_eq, hv, if_neg Bool.false_ne_true] at h
  change (if _ then _ else encResult (cmdAdapter v) p (Whole.encodeStream xs)) = _ at h
  unfold encResult at h
  split_ifs at h with _ hx
  cases h
  rw [Bool.or_eq_true, not_or, Bool.not_eq_true] at hx
  obtain ⟨hcodes, -⟩ := hx
  exact ⟨hcodes, rfl, rfl, rfl⟩

/-- `CMD` with `DIR` set selects the decompression of the same adapter (30_encoding.md R79). -/
theorem cmd_decompress {v : BitVec 3} (hv : cmdDir v = false) :
    cmdDir (v + 4) = true ∧ cmdAdapter (v + 4) = cmdAdapter v := by
  revert v
  decide

/-- A decompression of a rendered stream decodes the stream, with the zeros that fill its last symbol (40_bitstream.md R103,
R104). -/
theorem command_decompress_render {v : BitVec 3} {p : Params} {bits : List Bool} (hv : cmdDir v = true)
    (hfit : ∀ m ∈ p.inMax, (Whole.render (cmdAdapter v) bits).length ≤ m) :
    ∃ zeros : List Bool, Whole.command v p (Whole.render (cmdAdapter v) bits) =
      Whole.decodeStream p ((bits ++ zeros).length + 1) Whole.Dec.init (bits ++ zeros) := by
  rw [command_eq, if_neg (Bool.eq_false_iff.1 (exceeds_eq_false.2 hfit)), if_pos hv, decResult, unpack_render]
  exact ⟨_, rfl⟩

/-- The decompressor reads a code stream back, whatever follows it: from the start on it runs in lockstep with the compressor
(R170). -/
theorem decodeStream_encodeStream {p : Params} {xs : List Elem}
    (hcodes : exceeds p.maxCodeBits (bitlen (Whole.encodeStream xs).n) = false) (hout : exceeds p.outMax xs.length = false)
    {f : Nat} (hf : (Whole.encodeStream xs).stream.length ≤ f) (tl : List Bool) :
    Whole.decodeStream p f Whole.Dec.init ((Whole.encodeStream xs).stream ++ tl) =
      .ok xs (Whole.encodeStream xs).n (bitlen (Whole.encodeStream xs).n) := by
  obtain ⟨rest, hstream, hrest⟩ := lock_fold xs lock_init p hcodes hout
  have hstream : (Whole.encodeStream xs).stream = rest := hstream
  rw [hstream] at hf ⊢
  exact hrest f tl hf

/-- Settles O33: the input unpacks to the code stream and zeros, and the decompressor reads the code stream back
(`decodeStream_encodeStream`). -/
theorem roundTrip : Obligations.RoundTrip := by
  intro v p xs out n nb hv h hout hin
  obtain ⟨hcodes, rfl, rfl, rfl⟩ := command_compress_eq_ok hv h
  obtain ⟨hdir, had⟩ := cmd_decompress hv
  rw [← had] at hin ⊢
  obtain ⟨zeros, hdec⟩ := command_decompress_render hdir hin
  rw [hdec]
  exact decodeStream_encodeStream hcodes (exceeds_eq_false.2 hout) (by rw [List.length_append]; omega) zeros

/-! ## One word of decompression -/

/-- The bits after a word and what has been built with it; `none` is `ERR_CAPACITY`. -/
def goesOn (rest : List Bool) : Option Whole.Dec → Except Whole.Result (Whole.Dec × List Bool)
  | none => .error (.fail .capacity)
  | some d => .ok (d, rest)

/-- One word of decompression as a function, R161 to R166: the result if it ends the operation, else what has been built with it and
the bits after it. `decodeStream_succ` ties it to the model. -/
def decodeWord (p : Params) (d : Whole.Dec) (bits : List Bool) : Except Whole.Result (Whole.Dec × List Bool) :=
  match takeBits (bitlen d.n) bits with
  | none => .error (.fail .truncated)
  | some (k, rest) =>
    if k = eosCode then .error (.ok d.out d.n (bitlen d.n))
    else if k = rawCode then
      match takeBits rawBits rest with
      | none => .error (.fail .truncated)
      | some (u, rest') =>
        goesOn rest' ((Whole.Dec.advance p { d with dict := Table.write d.dict d.n [BitVec.ofNat 16 u] }).bind
          (Whole.Dec.tail p d.n [BitVec.ofNat 16 u]))
    else if d.prev = none then .error (.fail .badCode)
    else
      match d.word? k with
      | none => .error (.fail .badCode)
      | some e => goesOn rest (Whole.Dec.tail p k e d)

/-- The rest of a decompression after a word. -/
def decodeAfter (p : Params) (f : Nat) : Except Whole.Result (Whole.Dec × List Bool) → Whole.Result
  | .error r => r
  | .ok (d, rest) => Whole.decodeStream p f d rest

/-- Decompression is one word after another, R168. -/
theorem decodeStream_succ (p : Params) (f : Nat) (d : Whole.Dec) (bits : List Bool) :
    Whole.decodeStream p (f + 1) d bits = decodeAfter p f (decodeWord p d bits) := by
  rw [Whole.decodeStream.eq_2, decodeWord]
  cases takeBits (bitlen d.n) bits with
  | none => rfl
  | some kr =>
    obtain ⟨k, rest⟩ := kr
    dsimp only
    split_ifs
    · rfl
    · cases takeBits rawBits rest with
      | none => rfl
      | some ur => dsimp only; cases Option.bind _ _ <;> rfl
    · rfl
    · cases d.word? k with
      | none => rfl
      | some e => dsimp only; cases Whole.Dec.tail p k e d <;> rfl

/-! ## The bits after `EOS` -/

/-- A word that is read is read alike with more bits after it. -/
theorem takeBits_append_of_some {n v : Nat} {bits rest : List Bool} (h : takeBits n bits = some (v, rest)) (extra : List Bool) :
    takeBits n (bits ++ extra) = some (v, rest ++ extra) := by
  obtain ⟨rfl, hv⟩ := eq_msb_append_of_takeBits h
  rw [List.append_assoc, takeBits_msb _ hv]

/-- A word that is not cut short does the same with more bits after it, and leaves them. -/
theorem decodeWord_append {p : Params} {d : Whole.Dec} {bits : List Bool} (h : decodeWord p d bits ≠ .error (.fail .truncated))
    (extra : List Bool) :
    decodeWord p d (bits ++ extra) = (decodeWord p d bits).map fun w => (w.1, w.2 ++ extra) := by
  have hgoesOn (rest : List Bool) (o : Option Whole.Dec) :
      goesOn (rest ++ extra) o = (goesOn rest o).map fun w => (w.1, w.2 ++ extra) := by cases o <;> rfl
  unfold decodeWord at h ⊢
  cases hk : takeBits (bitlen d.n) bits with
  | none => simp [hk] at h
  | some kr =>
    obtain ⟨k, rest⟩ := kr
    simp only [hk, takeBits_append_of_some hk extra] at h ⊢
    split_ifs at h ⊢
    · rfl
    · cases hu : takeBits rawBits rest with
      | none => simp [hu] at h
      | some ur => simp only [takeBits_append_of_some hu extra, hgoesOn]
    · rfl
    · cases d.word? k with
      | none => rfl
      | some e => exact hgoesOn _ _

/-- A decompression that is not cut short ends alike with more bits after its own, and with more fuel. -/
theorem decodeStream_append {p : Params} {f f' : Nat} {d : Whole.Dec} {bits : List Bool}
    (h : Whole.decodeStream p f d bits ≠ .fail .truncated) (hf : f ≤ f') (extra : List Bool) :
    Whole.decodeStream p f' d (bits ++ extra) = Whole.decodeStream p f d bits := by
  induction f generalizing f' d bits with
  | zero => exact absurd rfl h
  | succ f ih =>
    obtain ⟨f', rfl⟩ : ∃ g, f' = g + 1 := ⟨f' - 1, by omega⟩
    rw [decodeStream_succ] at h
    have hword : decodeWord p d bits ≠ .error (.fail .truncated) := fun hw => h (by rw [hw]; rfl)
    rw [decodeStream_succ, decodeStream_succ, decodeWord_append hword]
    cases hw : decodeWord p d bits with
    | error r => rfl
    | ok w => exact ih (by rwa [hw] at h) (by omega)

/-- Settles O43: a decompression that succeeds is not cut short (`decodeStream_append`). -/
theorem bitsAfterEosDoNotMatter : Obligations.BitsAfterEosDoNotMatter := by
  intro p fuel fuel' d bits extra out n nb h hf
  rw [decodeStream_append (by rw [h]; nofun) hf, h]

/-! ## One input under two adapters -/

/-- `TAIL` with a bound on `OUT` does what it does without, or reaches the bound. -/
theorem tail_outMax (p : Params) (k : Nat) (e : Phrase) (d : Whole.Dec) :
    Whole.Dec.tail p k e d = Whole.Dec.tail { p with outMax := none } k e d ∨ Whole.Dec.tail p k e d = none := by
  rw [dec_tail_eq, dec_tail_eq]
  cases exceeds p.outMax (d.out.length + e.length)
  · exact .inl rfl
  · exact .inr rfl

/-- So does a word. -/
theorem decodeWord_outMax (p : Params) (d : Whole.Dec) (bits : List Bool) :
    decodeWord p d bits = decodeWord { p with outMax := none } d bits ∨ decodeWord p d bits = .error (.fail .capacity) := by
  unfold decodeWord
  cases takeBits (bitlen d.n) bits with
  | none => exact .inl rfl
  | some kr =>
    obtain ⟨k, rest⟩ := kr
    dsimp only
    split_ifs
    · exact .inl rfl
    · cases takeBits rawBits rest with
      | none => exact .inl rfl
      | some ur =>
        obtain ⟨u, rest'⟩ := ur
        set a : Whole.Dec := { d with dict := Table.write d.dict d.n [BitVec.ofNat 16 u] }
        have hadvance : Whole.Dec.advance { p with outMax := none } a = Whole.Dec.advance p a := rfl
        dsimp only
        rw [hadvance]
        cases Whole.Dec.advance p a with
        | none => exact .inl rfl
        | some b => exact (tail_outMax p d.n _ b).imp (congrArg (goesOn rest')) (congrArg (goesOn rest'))
    · exact .inl rfl
    · cases d.word? k with
      | none => exact .inl rfl
      | some e => exact (tail_outMax p k e d).imp (congrArg (goesOn rest)) (congrArg (goesOn rest))

/-- So does a decompression. -/
theorem decodeStream_outMax (p : Params) (f : Nat) (d : Whole.Dec) (bits : List Bool) :
    Whole.decodeStream p f d bits = Whole.decodeStream { p with outMax := none } f d bits ∨
      Whole.decodeStream p f d bits = .fail .capacity := by
  induction f generalizing d bits with
  | zero => exact .inl rfl
  | succ f ih =>
    rw [decodeStream_succ, decodeStream_succ]
    rcases decodeWord_outMax p d bits with hw | hw <;> rw [hw]
    · cases decodeWord { p with outMax := none } d bits with
      | error r => exact .inl rfl
      | ok w => exact ih w.1 w.2
    · exact .inr rfl

/-- A code stream is never cut short, whatever the bound on `OUT`: it holds its own `EOS`. -/
theorem decodeStream_encodeStream_ne_truncated {p : Params} {xs : List Elem}
    (hcodes : exceeds p.maxCodeBits (bitlen (Whole.encodeStream xs).n) = false) :
    Whole.decodeStream p (Whole.encodeStream xs).stream.length Whole.Dec.init (Whole.encodeStream xs).stream ≠
      .fail .truncated := by
  have hread := decodeStream_encodeStream (p := { p with outMax := none }) hcodes rfl le_rfl []
  rw [List.append_nil] at hread
  rcases decodeStream_outMax p (Whole.encodeStream xs).stream.length Whole.Dec.init (Whole.encodeStream xs).stream with h | h <;>
    rw [h]
  · rw [hread]; nofun
  · nofun

/-- So a decompression of a compression's output under any adapter has the result that its code stream alone decides. -/
theorem command_decompress_encodeStream {v : BitVec 3} {p : Params} {xs : List Elem} (hv : cmdDir v = true)
    (hcodes : exceeds p.maxCodeBits (bitlen (Whole.encodeStream xs).n) = false)
    (hfit : ∀ m ∈ p.inMax, (Whole.render (cmdAdapter v) (Whole.encodeStream xs).stream).length ≤ m) :
    Whole.command v p (Whole.render (cmdAdapter v) (Whole.encodeStream xs).stream) =
      Whole.decodeStream p (Whole.encodeStream xs).stream.length Whole.Dec.init (Whole.encodeStream xs).stream := by
  obtain ⟨zeros, hdec⟩ := command_decompress_render hv hfit
  rw [hdec]
  exact decodeStream_append (decodeStream_encodeStream_ne_truncated hcodes) (by rw [List.length_append]; omega) zeros

/-- Settles O37: both results are decided by the one code stream (`command_decompress_encodeStream`); the `RAW16` output, the shorter
one, fits in `IN` when the `BYTES` output does. -/
theorem crossAdapterEquivalence : Obligations.CrossAdapterEquivalence := by
  intro p xs raw bytes n nb n' nb' hraw hbytes hin
  obtain ⟨hcodes, rfl, -, -⟩ := command_compress_eq_ok rfl hraw
  obtain ⟨-, rfl, -, -⟩ := command_compress_eq_ok rfl hbytes
  set bits := (Whole.encodeStream xs).stream
  have hshorter : (Whole.render (cmdAdapter 4) bits).length ≤ (Whole.render (cmdAdapter 7) bits).length := by
    have hlraw : (Whole.render .raw16 bits).length = (bits.length + 15) / 16 := length_render (.inl rfl) bits
    have hlbytes : (Whole.render .bytes bits).length = (bits.length + 7) / 8 := length_render (.inr rfl) bits
    show (Whole.render .raw16 bits).length ≤ (Whole.render .bytes bits).length
    omega
  exact (command_decompress_encodeStream (v := 7) rfl hcodes hin).trans
    (command_decompress_encodeStream (v := 4) rfl hcodes fun m hm => hshorter.trans (hin m hm)).symm

end Sys2Proof.Machine
end
section
/-! PROOFS of the statements of 42_decompress.md, part 2: the block under the host protocol (44_commands.md R222), and the round trip
on the block (R171). -/

namespace Sys2Proof.Machine

open Sys2Proof.Safety Sys2Proof.Claims

/-! ## What the host still does -/

theorem settle_host {s t : State} {r : Except Stop State} (h : settle s r = .next t) (hr : ∀ u, r = .ok u → u.host = s.host) :
    t.host = s.host := by
  rcases settle_eq_next.1 h with h | ⟨c, -, rfl⟩
  · exact hr t h
  · rfl

theorem spoiledEnd_host (s : State) : (spoiledEnd s).host = s.host := by
  unfold spoiledEnd
  split
  · rfl
  · split <;> rfl

/-- The `C_SCAN` step. -/
theorem scanStep_host {s t : State} (h : scanStep s = .ok t) : t.host = s.host := by
  unfold scanStep at h
  split at h
  · obtain ⟨u, hu, rfl⟩ := map_eq_ok.1 h
    exact (scan_kept hu).host
  · cases h
    rfl

/-- The `C_END` step. -/
theorem endStep_host {s t : State} (h : endStep s = .ok t) : t.host = s.host := by
  obtain ⟨u, hu, rfl⟩ := map_eq_ok.1 h
  obtain ⟨v, hv, hu⟩ := bind_eq_ok.1 hu
  obtain ⟨w, hw, hv⟩ := bind_eq_ok.1 hv
  exact (((endPhrase_kept hw).trans (putBits_kept hv)).trans (finish_kept hu)).host

/-- The `D_DECODE` step. -/
theorem decodeStep_host {s t : State} (hc : CodesOk s) (ho : OutOk s) (hd : DecodeOk s) (h : decodeStep s = .next t) :
    t.host = s.host := by
  rcases decodeStep_dec hc ho hd with ⟨c, he, -⟩ | ⟨he, -⟩ | ⟨u, he, -, hg, -⟩ <;> cases h.symm.trans he
  · rfl
  · rfl
  · exact hg.kept.host

/-- The engine takes nothing off the host's list, whatever its phase. -/
theorem engineStep_host {s t : State} (h : Inv s) (hst : engineStep s = .next t) : t.host = s.host := by
  have ht := inv_tick h
  by_cases hp : s.phase = .idle
  · cases hst.symm.trans (engineStep_idle hp)
    rfl
  suffices hk : t.host = (tick s).host from hk
  cases hs : s.spoiled with
  | true =>
    cases hst.symm.trans (engineStep_spoiled hp hs)
    exact spoiledEnd_host _
  | false =>
    cases hph : s.phase with
    | idle => exact absurd hph hp
    | cScan => exact settle_host ((engineStep_cScan hph hs).symm.trans hst) fun _ => scanStep_host
    | cEnd => exact settle_host ((engineStep_cEnd hph hs).symm.trans hst) fun _ => endStep_host
    | dCheck =>
      refine settle_host ((engineStep_dCheck hph hs).symm.trans hst) fun u hu => ?_
      obtain ⟨b, rfl⟩ := checkStep_eq_ok hu
      rfl
    | dDecode =>
      obtain ⟨hc, hd⟩ := Inv_dDecode ht hph hs
      exact decodeStep_host hc ht.out hd ((engineStep_dDecode hph hs).symm.trans hst)

/-- A write of `CMD` adds nothing to the host's list. -/
theorem start_host {v : BitVec 3} {s t : State} (h : start v s = .next t) : t.host = s.host := by
  rcases start_cases v s with ⟨-, he⟩ | ⟨-, -, he⟩ | ⟨-, -, he⟩ <;> cases h.symm.trans he <;> rfl

/-- A step takes the host's next action off its list. -/
theorem step_host {s t : State} (h : Inv s) (hst : step s = .next t) : t.host = s.host.tail := by
  cases hh : s.host with
  | nil =>
    rw [step_of_engineTurn (rest := []) (.inl ⟨hh, rfl⟩)] at hst
    exact engineStep_host (inv_host h []) hst
  | cons a rest =>
    cases a with
    | engine =>
      rw [step_of_engineTurn (.inr hh)] at hst
      exact engineStep_host (inv_host h rest) hst
    | writeCmd v =>
      rw [step_of_host_writeCmd hh, exec_decodeCommand] at hst
      exact start_host hst
    | writeIn | writeInLen | powerOnReset =>
      simp only [step, hh, Host.Outcome.next.injEq] at hst
      exact hst ▸ rfl

/-- A run of a sound block: it stays sound and keeps its parameters, and the host has done one action a step. -/
theorem run_keeps {k : Nat} {s t : State} (h : Inv s) (hrun : run k s = .next t) :
    Inv t ∧ t.params = s.params ∧ t.host = s.host.drop k := by
  induction k generalizing s with
  | zero =>
    cases hrun
    exact ⟨h, rfl, rfl⟩
  | succ k ih =>
    obtain ⟨u, hu, hinv⟩ := step_inv h
    rw [run_next k hu] at hrun
    obtain ⟨hparams, -⟩ := onlyTheHostWritesInput s u h hu
    obtain ⟨ht, htp, hth⟩ := ih hinv hrun
    exact ⟨ht, htp.trans hparams, by rw [hth, step_host h hu, List.drop_tail]⟩

/-- Once the block is idle and the host has nothing left to do, the state is the last of the run, so all such runs end alike. -/
theorem run_end_unique {j k : Nat} {s t u : State} (ht : run j s = .next t) (hth : t.host = []) (htp : t.phase = .idle)
    (hu : run k s = .next u) (huh : u.host = []) (hup : u.phase = .idle) : t = u := by
  rcases Nat.le_total j k with hjk | hkj
  · obtain ⟨i, rfl⟩ := Nat.exists_eq_add_of_le hjk
    rw [run_add i ht, run_idle hth htp] at hu
    cases hu
    rfl
  · obtain ⟨i, rfl⟩ := Nat.exists_eq_add_of_le hkj
    rw [run_add i hu, run_idle huh hup] at ht
    cases ht
    rfl

/-! ## The host protocol -/

theorem inAt_hostWriteIn (i : Nat) (x : Elem) (s : State) (j : Nat) :
    (hostWriteIn i x s).inAt j = if j = i then x else s.inAt j := by
  rw [State.inAt, hostWriteIn_inBuf, Table.read?_write]
  split <;> rfl

/-- The host writes elements from index `i` on: they stand there, and those before them are as they were. -/
theorem run_writeIn (ys : List Elem) {i : Nat} {s : State} {rest : List HostAct} (hp : s.phase = .idle)
    (hh : s.host = (List.range' i ys.length).zipWith HostAct.writeIn ys ++ rest) :
    ∃ t, run ys.length s = .next t ∧ t.phase = .idle ∧ t.host = rest ∧ (∀ j < i, t.inAt j = s.inAt j) ∧
      (List.range' i ys.length).map t.inAt = ys := by
  induction ys generalizing i s with
  | nil => exact ⟨s, rfl, hp, hh, fun _ _ => rfl, rfl⟩
  | cons y ys ih =>
    set s' : State := { s with host := (List.range' (i + 1) ys.length).zipWith HostAct.writeIn ys ++ rest }
    have hstep : step s = .next (hostWriteIn i y s') := by
      simp only [List.length_cons, List.range'_succ, List.zipWith_cons_cons, List.cons_append] at hh
      simp only [step, hh, s']
    obtain ⟨t, ht, htp, hth, hbefore, hys⟩ := ih (s := hostWriteIn i y s') hp rfl
    refine ⟨t, (run_next _ hstep).trans ht, htp, hth, fun j hj => ?_, ?_⟩
    · rw [hbefore j (by omega), inAt_hostWriteIn, if_neg (by omega)]
      rfl
    · rw [List.length_cons, List.range'_succ, List.map_cons, hys, hbefore i (by omega), inAt_hostWriteIn, if_pos rfl]

/-- The host protocol runs a command on exactly the elements the host wrote (R222): after its writes the block is about to start on
them. -/
theorem run_hostProtocol {v : BitVec 3} {xs : List Elem} {s : State} (h : Inv s) (hp : s.phase = .idle)
    (hh : s.host = hostProtocol xs v) :
    ∃ k t, run k s = .next t ∧ t.host = [] ∧ reports (Whole.command v s.params xs) t := by
  rw [hostProtocol, List.range_eq_range'] at hh
  obtain ⟨a, ha, hap, hah, -, hxs⟩ := run_writeIn xs hp hh
  obtain ⟨hainv, haparams, -⟩ := run_keeps h ha
  set b : State := hostWriteInLen xs.length { a with host := [.writeCmd v] }
  have hb : step a = .next b := by simp only [step, hah, b]
  have hbinv : Inv b := inv_hostWriteInLen _ (inv_host hainv _)
  have helems : b.inElems b.inLen = xs := by rw [State.inElems, List.range_eq_range']; exact hxs
  obtain ⟨t, ht, hr⟩ := run_reports_command (v := v) (s := b) ⟨hbinv, hap, rfl⟩
  have hrun : run (xs.length + (stepBound v b + 1)) s = .next t := (run_add _ ha).trans ((run_next _ hb).trans ht)
  obtain ⟨-, -, hth⟩ := run_keeps hbinv ht
  refine ⟨_, t, hrun, ?_, ?_⟩
  · rw [hth, stepBound_eq, show b.host = [.writeCmd v] from rfl, List.drop_succ_cons, List.drop_nil]
  · rwa [helems, show b.params = s.params from haparams] at hr

/-- The report of a success says what the result is. -/
theorem reports_ok_unique {r : Whole.Result} {out : List Elem} {n nb : Nat} {t : State} (h : reports (.ok out n nb) t)
    (hr : reports r t) : r = .ok out n nb := by
  obtain ⟨hstatus, -, hlen, hout, rfl, rfl⟩ := h
  cases r with
  | fail c =>
    obtain ⟨-, hfailed, -⟩ := hr
    exact absurd (hfailed.symm.trans hstatus) (statusFailure_ne c).1
  | ok out' n' nb' =>
    obtain ⟨-, -, hlen', hout', rfl, rfl⟩ := hr
    have heq : out' = out :=
      List.ext_getElem (hlen'.symm.trans hlen) fun i hi' hi => (hout' i hi').symm.trans (hout i hi)
    rw [heq]

/-- Settles O34: each run of the host protocol reports the function of what the host wrote (`run_hostProtocol`), the first one `out`,
so the second one the input, by the round trip of the functions. -/
theorem roundTripOnTheBlock : Obligations.RoundTripOnTheBlock := by
  intro v xs out s t n nb k hv hinv hp hh hrun hth htp hr hout hin
  obtain ⟨i, t', hrun', hth', hr'⟩ := run_hostProtocol hinv hp hh
  cases run_end_unique hrun hth htp hrun' hth' (reports_idle hr')
  have hcompress : Whole.command v s.params xs = .ok out n nb := reports_ok_unique hr hr'
  obtain ⟨hinvt, hparams, -⟩ := run_keeps hinv hrun
  obtain ⟨j, u, hu, huh, hru⟩ := run_hostProtocol (v := v + 4) (xs := out) (s := { t with host := hostProtocol out (v + 4) })
    (inv_host hinvt _) htp rfl
  have hdecompress := roundTrip v s.params xs out n nb hv hcompress hout hin
  rw [show ({ t with host := hostProtocol out (v + 4) } : State).params = s.params from hparams, hdecompress] at hru
  exact ⟨j, u, hu, huh, hru⟩

end Sys2Proof.Machine
end
section
/-! PROOFS of the statements of 42_decompress.md, part 3: the code words (R161 to R167), and that a decompression ends (R169). -/

namespace Sys2Proof.Machine

open Sys2Proof.Safety Sys2Proof.Claims

/-! ## The step that runs them -/

/-- A literal that is cut short (40_bitstream.md R105). -/
theorem readLiteral_short {bits : List Bool} (h : bits.length < rawBits) : readLiteral bits = .error .truncatedLiteral := by
  delta readLiteral
  rw [takeBits_eq_none.2 h]

/-- With too few bits for a code word or its literal, none can be read (40_bitstream.md R105). -/
theorem decodeCode_truncated {c : CodeCtx} {bits : List Bool}
    (h : bits.length < c.nb ∨ ∃ r, bits = msb c.nb rawCode ++ r ∧ r.length < rawBits) :
    ∃ e, decodeCode c bits = .error e := by
  rcases h with h | ⟨r, rfl, hr⟩
  · exact ⟨_, decodeCode_short (takeBits_eq_none.2 h)⟩
  · refine ⟨.truncatedLiteral, ?_⟩
    rw [decodeCode_eq (takeBits_msb (v := rawCode) r (Nat.two_pow_pos _)), if_neg (by decide), if_pos rfl, readLiteral_short hr]

/-- Settles O13: the step is the `D_DECODE` step (`engineStep_dDecode`), which runs what the decoder reads (`decodeStep_eq`). -/
theorem stepRunsDecodedCodeWord : Obligations.StepRunsDecodedCodeWord := by
  intro s rest hp hs hturn
  set u : State := tick { s with host := rest }
  have hstep : step s = decodeStep u := (step_of_engineTurn hturn).trans (engineStep_dDecode hp hs)
  obtain ⟨hrun, herror⟩ := decodeStep_eq u
  refine ⟨fun i tl h => hstep.trans (hrun i tl h), fun i tl hi hwf hbits => ?_, fun h => ?_⟩
  · obtain ⟨hdecode, -⟩ := decodingUndoesEncoding
    exact hstep.trans (hrun i tl (by rw [← hdecode s.codeCtx i tl hi hwf]; exact congrArg _ hbits))
  · obtain ⟨e, he⟩ := decodeCode_truncated (c := s.codeCtx) h
    exact ⟨fail .truncated u, hstep.trans (herror e he), reports_fail .truncated u⟩

/-- Settles O14: `EOS` is `COMPLETE` after its own bits. -/
theorem eosCompletes : Obligations.EosCompletes := fun s =>
  ⟨complete (s.consume s.nb), rfl, rfl, rfl, rfl, rfl, rfl, rfl, rfl, ⟨rfl, fun _ => rfl⟩, rfl, fun _ => rfl, rfl⟩

/-- Settles O18: an illegal code is `FAIL`. -/
theorem illegalCodeFails : Obligations.IllegalCodeFails := fun _ s =>
  ⟨fail .badCode s, rfl, reports_fail .badCode s, rfl, rfl, rfl, rfl, fun _ => rfl, rfl⟩

/-! ## `TAIL` where there is room -/

/-- `TAIL` with room for its word and the next code, R167: the fill, the output, `PREV`, `PEND` and one more code. -/
theorem tail_fits {k : Nat} {x : Elem} {e : Phrase} {s : State} (hc : CodesOk s) (hl : ∀ m ∈ s.params.outMax, s.outLen ≤ m)
    (hp : PendOk s) (hfits : fits s (s.outLen + (e.length + 1)) (s.n + 1)) :
    tail k (x :: e) s = .ok
      { s with
        dictD := filled s x
        outBuf := writeFrom s.outBuf s.outLen (x :: e)
        outLen := s.outLen + (e.length + 1)
        prev := some k
        pend := some s.n
        n := s.n + 1
        nb := bitlen (s.n + 1) } := by
  obtain ⟨hout, hcodes⟩ := hfits
  have happend : appendAll (x :: e) { s with dictD := filled s x } = .ok
      { s with
        dictD := filled s x
        outBuf := writeFrom s.outBuf s.outLen (x :: e)
        outLen := s.outLen + (e.length + 1) } := by
    rw [appendAll_eq _ { s with dictD := filled s x } hl]
    exact if_neg (Bool.eq_false_iff.1 (exceeds_eq_false.2 hout))
  simp only [tail, fillPending_eq (PendOk_prev hp), Except.bind, happend]
  rw [CodesOk_advance]
  · exact if_neg (Bool.eq_false_iff.1 (exceeds_eq_false.2 hcodes))
  · exact hc

/-- The pending entry becomes the previous word and one unit. -/
theorem read?_filled_pend {s : State} (h : PendOk s) (x : Elem) {p q : Nat} {w : Phrase} (hp : s.prev = some p)
    (hq : s.pend = some q) (hw : Table.read? s.dictD p = some w) : Table.read? (filled s x) q = some (w ++ [x]) := by
  rcases filled_cases h x with ⟨hnone, -⟩ | ⟨p', q', w', hp', hq', hw', -, hf⟩
  · cases hq.symm.trans hnone
  · cases hp.symm.trans hp'
    cases hq.symm.trans hq'
    cases hw.symm.trans hw'
    rw [hf, Table.read?_write_same]

/-- No other entry changes. -/
theorem read?_filled_other {s : State} (h : PendOk s) (x : Elem) {j : Nat} (hj : s.pend ≠ some j) :
    Table.read? (filled s x) j = Table.read? s.dictD j := by
  rcases filled_cases h x with ⟨-, hf⟩ | ⟨p, q, w, -, hq, -, -, hf⟩ <;> rw [hf]
  exact Table.read?_write_other _ _ (by rintro rfl; exact hj hq)

/-- The elements that `TAIL` writes are appended to `OUT` (20_memory.md R53). -/
theorem appended_writeFrom {s t : State} {e : Phrase} (hb : t.outBuf = writeFrom s.outBuf s.outLen e)
    (hp : t.outEpoch = s.outEpoch) (hl : t.outLen = s.outLen + e.length) : appended e s t := by
  have hread (i : Nat) : t.outAt i = (if s.outLen ≤ i ∧ i < s.outLen + e.length then e[i - s.outLen]?
      else Table.read? s.outBuf i).getD (Config.freeOut s.outEpoch i) := by
    rw [State.outAt, hb, hp, read?_writeFrom]
  refine ⟨hl, fun j hj => ?_, fun i hi => ?_⟩
  · rw [hread, if_pos (by omega), Nat.add_sub_cancel_left, List.getElem?_eq_getElem hj, Option.getD_some]
  · rw [hread, if_neg (by omega)]
    rfl

/-! ## `REF` and `REF_AHEAD` -/

/-- A reference with room, R164 and R165: its own bits are consumed and `TAIL` does the rest. -/
theorem reference_fits {k : Nat} {x : Elem} {e : Phrase} {s : State} (hc : CodesOk s) (hp : PendOk s)
    (hl : ∀ m ∈ s.params.outMax, s.outLen ≤ m) (hfits : fits s (s.outLen + (e.length + 1)) (s.n + 1)) :
    ∃ t, settle s (tail k (x :: e) (s.consume s.nb)) = .next t ∧ appended (x :: e) s t ∧
      t.n = s.n + 1 ∧ t.nb = bitlen (s.n + 1) ∧ t.prev = some k ∧ t.pend = some s.n ∧ t.bp = s.bp + s.nb ∧
      t.dictD = filled s x ∧
      t.bits = s.bits ∧ t.host = s.host ∧ sameStatus s t ∧ sameCompression s t ∧ sameInput s t := by
  have htail : tail k (x :: e) (s.consume s.nb) = .ok _ := tail_fits hc hl hp hfits
  rw [htail]
  refine ⟨_, rfl, appended_writeFrom rfl rfl rfl, rfl, rfl, rfl, rfl, rfl, rfl, rfl, rfl, ?_, ?_, rfl, fun _ => rfl, rfl⟩
  · exact ⟨rfl, rfl, rfl, rfl, rfl, rfl⟩
  · exact ⟨rfl, rfl, rfl, rfl, rfl⟩

/-- Settles O16: the word of the code is not empty (`DecodeOk_entry`), so `reference_fits` applies. -/
theorem refDecodes : Obligations.RefDecodes := by
  intro k e s hc hd hl hk hfits
  have hp := DecodeOk_pendOk hd
  obtain ⟨x, e, rfl⟩ := DecodeOk_entry hd hk
  have hexec : exec (.ref k) s = settle s (tail k (x :: e) (s.consume s.nb)) := by simp only [exec, execRef, hk]
  rw [hexec]
  obtain ⟨t, ht, happended, hn, hnb, hprev, hpend, hbp, hdict, hframe⟩ := reference_fits (k := k) (x := x) hc hp hl hfits
  refine ⟨t, ht, happended, hn, hnb, hprev, hpend, hbp, ?_, ?_, hframe⟩ <;> rw [hdict]
  · exact fun p q w hp' hq hw => read?_filled_pend hp x hp' hq hw
  · exact fun j hj => read?_filled_other hp x hj

/-- Settles O17: the one-ahead word is what the fill makes of the pending entry (`read?_filled_pend`). -/
theorem refAheadDecodes : Obligations.RefAheadDecodes := by
  intro k p x w s hc hd hl hpend hprev hw hfits
  have hp := DecodeOk_pendOk hd
  have hbind : s.prev.bind (Table.read? s.dictD) = some (x :: w) := by rw [hprev]; exact hw
  have hexec : exec (.refAhead k) s = settle s (tail k (x :: (w ++ [x])) (s.consume s.nb)) := by
    simp only [exec, execRefAhead, hbind, List.cons_append]
  have hlen : s.outLen + w.length + 2 = s.outLen + ((w ++ [x]).length + 1) := by
    rw [List.length_append, List.length_singleton, Nat.add_assoc]
  rw [hlen] at hfits
  rw [hexec]
  obtain ⟨t, ht, happended, hn, hnb, hprev', hpend', hbp, hdict, hframe⟩ := reference_fits (k := k) (x := x) hc hp hl hfits
  refine ⟨t, ht, happended, hn, hnb, hprev', hpend', hbp, ?_, ?_, hframe⟩ <;> rw [hdict]
  · exact read?_filled_pend hp x hprev hpend hw
  · refine fun j hj => read?_filled_other hp x fun hj' => hj ?_
    exact Option.some.inj (hj'.symm.trans hpend)

/-! ## `RAW` -/

/-- What the entry of a `RAW` leaves for its `TAIL`: the entry is new, so the first part of the pending one is still there. -/
theorem PendOk.of_write_n {s t : State} {e : Phrase} (h : PendOk s) (hfree : Table.read? s.dictD s.n = none)
    (hdict : t.dictD = Table.write s.dictD s.n e) (hprev : t.prev = s.prev) (hpend : t.pend = s.pend) (hn : s.n ≤ t.n) :
    PendOk t := by
  rcases h with hq | ⟨p, q, w, hp, hq, hqn, hw, hqfree⟩
  · exact .inl (hpend.trans hq)
  · refine .inr ⟨p, q, w, hprev.trans hp, hpend.trans hq, lt_of_lt_of_le hqn hn, ?_, ?_⟩ <;> rw [hdict]
    · exact read?_write_fresh hfree hw
    · rw [Table.read?_write_other _ _ hqn.ne, hqfree]

/-- Settles O15: the entry of `RAW` and its code leave a state in which `TAIL` has room (`tail_fits`); the fill keeps the new
entry (`read?_filled`). -/
theorem rawDecodes : Obligations.RawDecodes := by
  intro u s hc hd hl hfits
  obtain ⟨hout, hcodes⟩ := hfits
  have hfree := DecodeOk_read?_n hd
  have hfit1 : exceeds s.params.maxCodeBits (bitlen (s.n + 1)) = false :=
    exceeds_eq_false.2 fun m hm => (bitlen_mono (Nat.le_succ _)).trans (hcodes m hm)
  set a : State := { s.consume (s.nb + rawBits) with dictD := Table.write s.dictD s.n [u] }
  set b : State := { a with n := s.n + 1, nb := bitlen (s.n + 1) }
  have hadvance : advance a = .ok b := (CodesOk_advance (s := a) hc).trans (if_neg (Bool.eq_false_iff.1 hfit1))
  have hpb : PendOk b := (DecodeOk_pendOk hd).of_write_n hfree rfl rfl rfl (Nat.le_succ _)
  have htail : tail s.n [u] b = .ok _ := tail_fits (CodesOk_succ (s := a) hc hfit1) hl hpb ⟨hout, hcodes⟩
  have hexec : exec (.raw u) s = settle s ((advance a).bind (tail s.n [u])) := rfl
  rw [hexec, hadvance, Except.bind, htail]
  refine ⟨_, rfl, appended_writeFrom rfl rfl rfl, rfl, rfl, rfl, rfl, (Nat.add_assoc ..).symm, ?_, ?_, ?_, rfl, rfl, ?_, ?_, rfl,
    fun _ => rfl, rfl⟩
  · exact read?_filled hpb u (Table.read?_write_same _ _ _)
  · exact fun p q w hp hq hw => read?_filled_pend hpb u hp hq (read?_write_fresh hfree hw)
  · exact fun k hk hpend => (read?_filled_other hpb u hpend).trans (Table.read?_write_other _ _ hk)
  · exact ⟨rfl, rfl, rfl, rfl, rfl, rfl⟩
  · exact ⟨rfl, rfl, rfl, rfl, rfl⟩

/-! ## Decompression ends -/

/-- An operation that reports a result is done (10_state.md R23). -/
theorem reports_done {r : Whole.Result} {t : State} (h : reports r t) : t.done = true := by
  cases r with
  | ok out n nb =>
    obtain ⟨hstatus, -⟩ := h
    rw [State.done, hstatus]
    rfl
  | fail c =>
    obtain ⟨-, hstatus, -⟩ := h
    rw [State.done, hstatus]
    cases c <;> rfl

/-- Settles O32: the run is `run_decode`; one step of it is a word of the function, which ends the operation or passes the bits of a
code word (`decodeStep_dec`). -/
theorem decodeStepsTerminate : Obligations.DecodeStepsTerminate := by
  intro s hinv hp hs hh
  refine ⟨?_, fun t ht => ?_⟩
  · obtain ⟨t, ht, hr⟩ := run_decode ((s.bits.length - s.bp) / 2 + 1) hinv hp hs hh (by rw [length_restBits]) _ le_rfl
    exact ⟨t, ht, reports_idle hr, reports_done hr⟩
  · obtain ⟨hc, hd⟩ := Inv_dDecode (inv_tick hinv) hp hs
    have hnb : 2 ≤ s.nb := CodesOk_nb hc ▸ two_le_bitlen (CodesOk_two_le hc)
    have hstep : step s = decodeStep (tick s) := by rw [← engineStep_dDecode hp hs]; simp only [step, hh]
    have hinvt := stepKeepsInvariant s t hinv ht
    rcases decodeStep_dec hc (inv_tick hinv).out hd with ⟨c, he, -⟩ | ⟨he, -⟩ | ⟨u, he, -, hg, -, hb⟩ <;>
      cases ht.symm.trans (hstep.trans he)
    · exact .inl rfl
    · exact .inl rfl
    · have hpt := hg.kept.phase.trans hp
      obtain ⟨-, -, -, -, hbt, -⟩ := Inv_dDecode hinvt hpt (hg.kept.spoiled.trans hs)
      exact .inr ⟨hpt, hg.kept.bits, hnb, hb, hbt⟩

end Sys2Proof.Machine
end
section
/-! PROOFS of the statements of 42_decompress.md, part 4: the trie form of `DICT_D` (R174). -/

namespace Sys2Proof.Machine

/-! ## The word of an entry -/

theorem trieWord_missing {t : TrieD} {k : Nat} (hx : Table.read? t.last k = none) (f : Nat) : t.word f k = none := by
  cases f with
  | zero => rfl
  | succ f => rw [TrieD.word, hx]

/-- An entry without a parent is its last unit. -/
theorem trieWord_root {t : TrieD} {k : Nat} {x : Elem} (hx : Table.read? t.last k = some x)
    (hp : Table.read? t.parent k = none) (f : Nat) : t.word (f + 1) k = some [x] := by
  rw [TrieD.word, hx, hp]

/-- Any other entry is the word of its parent and its last unit. -/
theorem trieWord_child {t : TrieD} {k q : Nat} {x : Elem} (hx : Table.read? t.last k = some x)
    (hp : Table.read? t.parent k = some q) (f : Nat) : t.word (f + 1) k = (t.word f q).map (· ++ [x]) := by
  rw [TrieD.word, hx, hp]

/-- A word rebuilt from a trie is rebuilt alike with more fuel, and from any trie that has all the entries of the first. -/
theorem trieWord_of_agree {t t' : TrieD} {f f' k : Nat} {w : Phrase}
    (h : ∀ j x, Table.read? t.last j = some x → Table.read? t'.last j = some x ∧ Table.read? t'.parent j = Table.read? t.parent j)
    (hf : f ≤ f') (hw : t.word f k = some w) : t'.word f' k = some w := by
  induction f generalizing f' k w with
  | zero => cases hw
  | succ f ih =>
    obtain ⟨f', rfl⟩ : ∃ g, f' = g + 1 := ⟨f' - 1, by omega⟩
    cases hx : Table.read? t.last k with
    | none => cases (trieWord_missing hx (f + 1)).symm.trans hw
    | some x =>
      obtain ⟨hx', hp'⟩ := h k x hx
      cases hp : Table.read? t.parent k with
      | none =>
        rw [trieWord_root hx hp] at hw
        rw [trieWord_root hx' (hp'.trans hp), hw]
      | some q =>
        rw [trieWord_child hx hp] at hw
        obtain ⟨v, hv, hvw⟩ := Option.map_eq_some_iff.1 hw
        rw [trieWord_child hx' (hp'.trans hp), ih (by omega) hv, Option.map_some, hvw]

/-- `t'` has the entries of `t` at every code but `q`. -/
def SameEntriesBut (q : Nat) (t t' : TrieD) : Prop :=
  ∀ j, j ≠ q → Table.read? t'.parent j = Table.read? t.parent j ∧ Table.read? t'.last j = Table.read? t.last j ∧
    Table.read? t'.first j = Table.read? t.first j

/-- A word that the trie holds does not use a code without an entry, so it is there whatever that code gets. -/
theorem TrieD.represents.word_of_sameEntriesBut {t t' : TrieD} {d : DictD} {q f f' k : Nat} {w : Phrase} (h : t.represents d)
    (hq : Table.read? d q = none) (hsame : SameEntriesBut q t t') (hf : f ≤ f') (hw : t.word f k = some w) :
    t'.word f' k = some w := by
  obtain ⟨-, -, hnone⟩ := h q
  obtain ⟨-, hlast⟩ := hnone hq
  refine trieWord_of_agree (fun j x hx => ?_) hf hw
  obtain ⟨hp, hl, -⟩ := hsame j (by rintro rfl; cases hlast.symm.trans hx)
  exact ⟨hl.trans hx, hp⟩

/-- A new entry `q` with the word `e`: a trie that has it and all else as before holds the map with it (R37). -/
theorem TrieD.represents.write {t t' : TrieD} {d : DictD} {q : Nat} {e : Phrase} (h : t.represents d)
    (hq : Table.read? d q = none) (hsame : SameEntriesBut q t t') (hword : t'.word (q + 1) q = some e)
    (hfirst : Table.read? t'.first q = e.head?) : t'.represents (Table.write d q e) := by
  intro k
  by_cases hk : k = q
  · subst hk
    rw [Table.read?_write_same]
    exact ⟨hword, hfirst, nofun⟩
  rw [Table.read?_write_other _ _ hk]
  obtain ⟨hkword, hkfirst, hknone⟩ := h k
  obtain ⟨hkp, hkl, hkf⟩ := hsame k hk
  refine ⟨?_, hkf.trans hkfirst, by rwa [hkp, hkl]⟩
  cases hdk : Table.read? d k with
  | none =>
    obtain ⟨-, hlast⟩ := hknone hdk
    exact trieWord_missing (hkl.trans hlast) _
  | some w => exact h.word_of_sameEntriesBut hq hsame le_rfl (hkword.trans hdk)

/-! ## The entries of `RAW` and of `TAIL` -/

/-- The entry of a `RAW` is a root. -/
theorem addRoot_represents {t : TrieD} {d : DictD} {k : Nat} (h : t.represents d) (hk : Table.read? d k = none) (u : Elem) :
    (t.addRoot k u).represents (Table.write d k [u]) := by
  have hlast : Table.read? (t.addRoot k u).last k = some u := Table.read?_write_same _ _ _
  have hparent : Table.read? (t.addRoot k u).parent k = none := by
    obtain ⟨-, -, hnone⟩ := h k
    exact (hnone hk).1
  exact h.write hk (fun j hj => ⟨rfl, Table.read?_write_other _ _ hj, Table.read?_write_other _ _ hj⟩)
    (trieWord_root hlast hparent k) (Table.read?_write_same _ _ _)

/-- The fill of the pending entry makes it a child of the previous one. The link leads to a smaller code, so the fuel of the entry
is enough for its parent. -/
theorem trieFill_represents {x : Elem} {t : TrieD} {s : State} {p q : Nat} {y : Elem} {w : Phrase} (h : t.represents s.dictD)
    (hp : s.prev = some p) (hq : s.pend = some q) (hpq : p < q) (hfree : Table.read? s.dictD q = none)
    (hw : Table.read? s.dictD p = some (y :: w)) :
    ∃ t', trieFill x t s = .ok t' ∧ t'.represents (Table.write s.dictD q (y :: w ++ [x])) := by
  obtain ⟨hpword, hpfirst, -⟩ := h p
  have hfirst : Table.read? t.first p = some y := hpfirst.trans (by rw [hw]; rfl)
  set t' : TrieD :=
    { parent := Table.write t.parent q p, last := Table.write t.last q x, first := Table.write t.first q y }
  have hfill : trieFill x t s = .ok t' := by simp only [trieFill, hq, hp, Option.bind_some, hfirst, Option.map_some, t']
  have hsame : SameEntriesBut q t t' := fun j hj =>
    ⟨Table.read?_write_other _ _ hj, Table.read?_write_other _ _ hj, Table.read?_write_other _ _ hj⟩
  have hparent : t'.word q p = some (y :: w) := h.word_of_sameEntriesBut hfree hsame hpq (hpword.trans hw)
  have hword : t'.word (q + 1) q = some (y :: w ++ [x]) := by
    rw [trieWord_child (Table.read?_write_same _ _ _) (Table.read?_write_same _ _ _) q, hparent, Option.map_some]
  exact ⟨t', hfill, h.write hfree hsame hword (Table.read?_write_same _ _ _)⟩

/-- Settles O56: with no pending entry neither form does anything; else the fill is `trieFill_represents`. The entry of `RAW` is
`addRoot_represents`. -/
theorem trieEntriesHoldTheMap : Obligations.TrieEntriesHoldTheMap := by
  refine ⟨fun x t s u _ hne h hpend hfill => ?_, fun u t d k h hk => addRoot_represents h hk u⟩
  cases hq : s.pend with
  | none =>
    have hsame : fillPending x s = .ok s := by simp only [fillPending, hq]
    cases hsame.symm.trans hfill
    exact ⟨t, by simp only [trieFill, hq], h⟩
  | some q =>
    obtain ⟨hfree, p, hp, hpq, hsome⟩ := hpend q hq
    obtain ⟨w, hw⟩ := Option.isSome_iff_exists.1 hsome
    obtain ⟨y, w, rfl⟩ := List.exists_cons_of_ne_nil (hne _ (Table.mem_of_read? hw))
    have hmap : fillPending x s = .ok { s with dictD := Table.write s.dictD q (y :: w ++ [x]) } := by
      have hbind : s.prev.bind (Table.read? s.dictD) = some (y :: w) := by rw [hp]; exact hw
      simp only [fillPending, hq, hbind]
    cases hmap.symm.trans hfill
    exact trieFill_represents h hp hq hpq hfree hw

end Sys2Proof.Machine
end
section
/-! PROOFS of the statements of 43_alphabets.md: the encode tables (R191, R192, R195, R196), `DEC` against `ENC` (R194, R197, R200), the
padding (R193), and the alphabets of the text outputs (R202). -/

namespace Sys2Proof.Machine

open Sys2Proof.Safety Sys2Proof.Claims

/-! ## The tables -/

/-- An element keeps a value that has room in it. -/
theorem toNat_ofNat_elem {n : Nat} (hn : n < 2 ^ 16) : (BitVec.ofNat 16 n : Elem).toNat = n := Nat.mod_eq_of_lt hn

/-- The sextet table, row by row (43_alphabets.md R192, R195). -/
theorem encSextet_cases (last : Elem) (v : Nat) :
    (v < 26 ∧ (encSextet last v).toNat = 0x41 + v) ∨
    (26 ≤ v ∧ v < 52 ∧ (encSextet last v).toNat = 0x61 + (v - 26)) ∨
    (52 ≤ v ∧ v < 62 ∧ (encSextet last v).toNat = 0x30 + (v - 52)) ∨
    (v = 62 ∧ (encSextet last v).toNat = 0x2B) ∨ (63 ≤ v ∧ encSextet last v = last) := by
  unfold encSextet
  split_ifs with hupper hlower hdigit hplus
  · exact .inl ⟨hupper, toNat_ofNat_elem (by omega)⟩
  · exact .inr (.inl ⟨by omega, hlower, toNat_ofNat_elem (by omega)⟩)
  · exact .inr (.inr (.inl ⟨by omega, hdigit, toNat_ofNat_elem (by omega)⟩))
  · exact .inr (.inr (.inr (.inl ⟨hplus, rfl⟩)))
  · exact .inr (.inr (.inr (.inr ⟨by omega, rfl⟩)))

/-- The whole sextet table: only its last code unit depends on the adapter. -/
theorem encSextet_table (last : Elem) :
    (List.range 64).map (fun v => (encSextet last v).toNat) =
      List.range' 0x41 26 ++ List.range' 0x61 26 ++ List.range' 0x30 10 ++ [0x2B, last.toNat] := rfl

/-- Settles O57: the two text tables are `encSextet_table` at their last code units; the other two adapters keep a value that has
room in an element. -/
theorem encodeTables : Obligations.EncodeTables := by
  refine ⟨⟨rfl, rfl, rfl, rfl⟩, encSextet_table base64Last, encSextet_table uriLast, fun v hv => ?_, fun v hv => ?_⟩
  · exact toNat_ofNat_elem hv
  · exact toNat_ofNat_elem (hv.trans (by decide))

/-! ## `DEC` and `ENC` -/

/-- The trailing `=` of a list of symbols and its padding are the padding (43_alphabets.md R193, R194). -/
theorem trailingPads_append_pads {get : Nat → Elem} {l : List Elem} {m : Nat} (hl : ∀ x ∈ l, x ≠ padElem)
    (hget : ∀ i, ∀ h : i < (l ++ List.replicate m padElem).length, get i = (l ++ List.replicate m padElem)[i]) :
    trailingPads get (l ++ List.replicate m padElem).length = m := by
  have hlen : (l ++ List.replicate m padElem).length = l.length + m := by rw [List.length_append, List.length_replicate]
  rw [hlen]
  refine trailing_pads get m l.length (fun i hi => ?_) fun i hi him => ?_
  · rw [hget i (by omega), List.getElem_append_left hi]
    exact hl _ (List.getElem_mem hi)
  · rw [hget i (by omega), List.getElem_append_right hi, List.getElem_replicate]

/-- No symbol of `BASE64` is rendered as `=` (43_alphabets.md R200). -/
theorem base64_enc_ne_pad {v : Nat} (hv : v < 2 ^ Adapter.base64.sb) : Adapter.base64.enc v ≠ padElem :=
  (enc64_ne_pad v hv).left

/-- Settles O27: `DEC` undoes `ENC` by `dec_enc`; no symbol is `=`, so the trailing run of `=` is the padding
(`trailingPads_append_pads`). -/
theorem decUndoesEnc : Obligations.DecUndoesEnc := by
  refine ⟨dec_enc, fun v hv => base64_enc_ne_pad hv, ?_⟩
  rintro vs out get hvs rfl hget
  have hne : ∀ x ∈ vs.map Adapter.base64.enc, x ≠ padElem := by
    intro x hx
    obtain ⟨v, hv, rfl⟩ := List.mem_map.1 hx
    exact base64_enc_ne_pad (hvs v hv)
  rw [Adapter.length, Whole.padding, trailingPads_append_pads hne hget, List.length_append, List.length_replicate,
    List.length_map, Nat.add_sub_cancel]

/-- Where `DEC` is defined it gives a symbol value whose element this is (43_alphabets.md R190, R194, R197). -/
theorem enc_dec {ad : Adapter} {x : Elem} {v : Nat} (h : ad.dec x = some v) : v < 2 ^ ad.sb ∧ ad.enc v = x := by
  cases ad with
  | raw16 =>
    cases h
    exact ⟨x.isLt, BitVec.eq_of_toNat_eq (toNat_ofNat_elem x.isLt)⟩
  | base64 => exact enc_dec64 (.inl rfl) h
  | uri => exact enc_dec64 (.inr rfl) h
  | bytes =>
    obtain ⟨hx, hv⟩ := Option.ite_none_right_eq_some.1 h
    cases hv
    exact ⟨Nat.lt_succ_of_le hx, BitVec.eq_of_toNat_eq (toNat_ofNat_elem x.isLt)⟩

/-- Settles O28: `enc_dec`, and the elements outside each table. -/
theorem encUndoesDec : Obligations.EncUndoesDec := by
  refine ⟨fun ad x v => enc_dec, ?_, by decide, fun x => ?_⟩
  · rintro ad (rfl | rfl) <;> decide
  · rw [Adapter.dec, ite_eq_right_iff, ← Nat.not_le]
    exact imp_congr_right fun _ => iff_false_intro (Option.some_ne_none _)

/-! ## The alphabets of the outputs -/

/-- An element of a rendered stream is the element of a symbol value or of the padding (40_bitstream.md R103, 43_alphabets.md
R193). -/
theorem mem_render {ad : Adapter} {bits : List Bool} {x : Elem} (hx : x ∈ Whole.render ad bits) :
    (∃ v < 2 ^ ad.sb, x = ad.enc v) ∨ (ad = .base64 ∧ x = padElem) := by
  rcases List.mem_append.1 hx with hsym | hpad
  · obtain ⟨v, hv, rfl⟩ := List.mem_map.1 hsym
    exact .inl ⟨v, symbols_lt _ _ _ v hv, rfl⟩
  · cases ad with
    | base64 => exact .inr ⟨rfl, List.eq_of_mem_replicate hpad⟩
    | raw16 | uri | bytes => cases hpad

/-- An element of a sextet table is one of the code units the two tables share, or the last one. -/
theorem encSextet_shared_or_last (last : Elem) (v : Nat) :
    sharedSymbol (encSextet last v).toNat ∨ encSextet last v = last := by
  unfold sharedSymbol
  rcases encSextet_cases last v with ⟨hv, h⟩ | ⟨hv, hv', h⟩ | ⟨hv, hv', h⟩ | ⟨-, h⟩ | ⟨-, h⟩
  · omega
  · omega
  · omega
  · omega
  · exact .inr h

/-- Settles O29: an output is a rendered stream (`command_compress_eq_ok`), and each element of it stands in the table of its
adapter or is padding (`mem_render`). -/
theorem alphabetContainment : Obligations.AlphabetContainment := by
  refine ⟨fun p xs out n nb h x hx => ?_, fun p xs out n nb h x hx => ?_⟩
  · obtain ⟨-, rfl, -⟩ := command_compress_eq_ok rfl h
    rcases mem_render hx with ⟨v, -, rfl⟩ | ⟨-, rfl⟩
    · exact (encSextet_shared_or_last base64Last v).imp_right fun hlast => .inl (congrArg BitVec.toNat hlast)
    · exact .inr (.inr rfl)
  · obtain ⟨-, rfl, -⟩ := command_compress_eq_ok rfl h
    rcases mem_render hx with ⟨v, -, rfl⟩ | ⟨huri, -⟩
    · exact (encSextet_shared_or_last uriLast v).imp_right (congrArg BitVec.toNat)
    · cases huri

end Sys2Proof.Machine
end
section
/-! PROOFS of the statements of 44_commands.md: how a command starts (R210, R258), that it computes its function (R221), also under
the host protocol (R222), the transitions of `PHASE` (R212), and the outputs and inputs of the adapters (R213 to R216, R219). -/

namespace Sys2Proof.Machine

open Sys2Proof.Safety Sys2Proof.Claims

/-! ## Commands on the block -/

/-- Settles O30: a command is its start and a run of engine steps, which is followed in `run_reports_command`. -/
theorem commandComputesItsFunction : Obligations.CommandComputesItsFunction := fun _ _ h => run_reports_command h

/-- Settles O35: after the host's writes the block is about to start on the elements written (`run_hostProtocol`). -/
theorem hostProtocolRunsCommand : Obligations.HostProtocolRunsCommand := fun _ _ _ hinv hp hh => run_hostProtocol hinv hp hh

/-- An idle block whose input is within `P_IN_MAX` starts the operation (R210). -/
theorem start_of_fits {v : BitVec 3} {s : State} (hb : s.busy = false) (hx : exceeds s.params.inMax s.inLen = false) :
    start v s = .next (begun v s) := by
  simp [start, hb, hx, settle]

/-- One whose input is not fails at once (70_reset_and_hazards.md R258). -/
theorem start_of_exceeds {v : BitVec 3} {s : State} (hb : s.busy = false) (hx : exceeds s.params.inMax s.inLen = true) :
    start v s = .next (fail .capacity (begun v s)) := by
  simp [start, hb, hx, settle]

/-- The upper four values of `CMD` decompress (30_encoding.md R79). -/
theorem cmdDir_eq (v : BitVec 3) : cmdDir v = decide (4 ≤ v.toNat) := by
  revert v
  decide

/-- Settles O4: a command is a write of its value to `CMD` (`exec_decodeCommand`), which starts the operation or fails by the bound
on `IN_LEN` alone. -/
theorem commandStartsOperation : Obligations.CommandStartsOperation := by
  intro c s hc hb
  have hexec : exec c.1 s = start c.2 s := by rw [← decodeCommand_of_mem_commands hc, exec_decodeCommand]
  rw [hexec]
  refine ⟨fun hfits => ?_, fun hover => ?_⟩
  · refine ⟨begun c.2 s, start_of_fits hb (exceeds_eq_false.2 hfits), rfl, rfl, rfl, rfl, rfl, fun hv => ?_, fun hv => ?_,
      rfl, rfl, rfl, fun _ => rfl, rfl⟩
    · exact ⟨by simp [cmdDir_eq, hv], rfl, rfl, rfl, rfl, rfl⟩
    · exact ⟨by simp [cmdDir_eq, hv], rfl, rfl, rfl⟩
  · exact ⟨fail .capacity (begun c.2 s), start_of_exceeds hb (exceeds_eq_true.2 hover), reports_fail _ _, rfl, rfl, rfl,
      fun _ => rfl, rfl⟩

/-! ## The transitions of `PHASE` -/

/-- A running block is busy (10_state.md R23, R39). -/
theorem busy_of_running {s : State} (h : StatusOk s) (hp : s.phase ≠ .idle) : s.busy = true := by
  rw [State.busy, busy_of h hp]
  rfl

/-- A spoiled operation ends, whatever its report (70_reset_and_hazards.md R256). -/
theorem spoiledEnd_ends (s : State) : (spoiledEnd s).phase = .idle ∧ (spoiledEnd s).done = true := by
  have hfail (c : Cause) : (fail c s).phase = .idle ∧ (fail c s).done = true := ⟨rfl, reports_done (reports_fail c s)⟩
  have hsuccess : statusSuccess.getLsbD 1 = true := by decide
  unfold spoiledEnd
  split
  · exact ⟨rfl, hsuccess⟩
  · split <;> exact hfail _

/-- A `C_SCAN` step with a unit to read: the phase stays and the cursor moves on, or it fails for capacity. -/
theorem engineStep_cScan_unit {s t : State} (h : Inv s) (hp : s.phase = .cScan) (hs : s.spoiled = false)
    (hlt : s.inPtr < s.inLen) (hst : engineStep s = .next t) :
    t.phase = .cScan ∧ t.inPtr = s.inPtr + 1 ∨ failed .capacity t := by
  obtain ⟨hc, hco⟩ := Inv_cScan (inv_tick h) hp hs
  have hscan : scanStep (tick s) = (scan (s.inAt s.inPtr) (tick s)).map fun t => { t with inPtr := t.inPtr + 1 } := if_pos hlt
  rw [engineStep_cScan hp hs, hscan] at hst
  rcases scan_cases (s.inAt s.inPtr) hc (inv_tick h).out hco with ⟨u, hu, -⟩ | hu <;> rw [hu] at hst <;> cases hst
  · have hkept := scan_kept hu
    exact .inl ⟨hkept.phase.trans hp, congrArg (· + 1) hkept.inPtr⟩
  · exact .inr (reports_fail _ _)

/-- With no unit left it moves to `C_END`. -/
theorem engineStep_cScan_end {s t : State} (hp : s.phase = .cScan) (hs : s.spoiled = false) (hend : s.inPtr = s.inLen)
    (hst : engineStep s = .next t) : t.phase = .cEnd := by
  have hscan : scanStep (tick s) = .ok { tick s with phase := .cEnd } := if_neg hend.not_lt
  rw [engineStep_cScan hp hs, hscan] at hst
  cases hst
  rfl

/-- What the `C_END` step can do: success, or `ERR_CAPACITY` from one of its three parts. -/
theorem endStep_cases {s : State} (hc : CodesOk s) (ho : OutOk s) (hco : CompressOk s) :
    (∃ t, endStep s = .ok (complete t)) ∨ endStep s = .error (.cause .capacity) := by
  unfold endStep
  rcases endPhrase_cases hc ho hco with ⟨t, ht, -, hot, hat, -⟩ | ht <;> rw [ht]
  · rcases write_cases eosCode t.nb hot hat with ⟨u, hu, hw⟩ | hu <;> simp only [Except.bind, hu]
    · rcases finish_cases hw.out hw.acc with ⟨z, hz, -⟩ | hz <;> rw [hz]
      · exact .inl ⟨z, rfl⟩
      · exact .inr rfl
    · exact .inr rfl
  · exact .inr rfl

/-- The `C_END` step ends the compression. -/
theorem engineStep_cEnd_ends {s t : State} (h : Inv s) (hp : s.phase = .cEnd) (hs : s.spoiled = false)
    (hst : engineStep s = .next t) : t.phase = .idle ∧ (t.status = statusSuccess ∨ failed .capacity t) := by
  obtain ⟨hc, hco⟩ := Inv_cEnd (inv_tick h) hp hs
  rw [engineStep_cEnd hp hs] at hst
  rcases endStep_cases hc (inv_tick h).out hco with ⟨u, hu⟩ | hu <;> rw [hu] at hst <;> cases hst
  · exact ⟨rfl, .inl rfl⟩
  · exact ⟨rfl, .inr (reports_fail _ _)⟩

/-- The `D_CHECK` step moves to `D_DECODE` exactly on legal input, and fails on any other (`checkStepUnpacks`). -/
theorem step_dCheck_phase {s t : State} {rest : List HostAct} (hturn : engineTurn s rest) (hp : s.phase = .dCheck)
    (hs : s.spoiled = false) (hst : step s = .next t) :
    (t.phase = .dDecode ↔ ∀ i < s.adapter.length s.inAt s.inLen, s.adapter.dec (s.inAt i) ≠ none) ∧
      (t.phase ≠ .dDecode → failed .alphabet t) := by
  obtain ⟨hlegal, hillegal⟩ := checkStepUnpacks s rest _ hp hs hturn rfl
  by_cases h : ∀ i < s.adapter.length s.inAt s.inLen, s.adapter.dec (s.inAt i) ≠ none
  · obtain ⟨u, hu, hup, -⟩ := hlegal h
    cases hst.symm.trans hu
    exact ⟨iff_of_true hup h, fun hne => absurd hup hne⟩
  · obtain ⟨u, hu, hfailed, -⟩ := hillegal (by push Not at h; exact h)
    cases hst.symm.trans hu
    have hidle := reports_idle (r := .fail .alphabet) hfailed
    exact ⟨iff_of_false (by rw [hidle]; nofun) h, fun _ => hfailed⟩

/-- A code word other than `EOS` fails or leaves the operation running (42_decompress.md R163 to R166). -/
theorem exec_codeWord_cases {i : Instr} {s t : State} (hi : i.isCodeWord = true) (hne : i ≠ .eos) (h : exec i s = .next t) :
    (∃ c, t = fail c s) ∨ Kept s t := by
  have hsettle {r : Except Stop State} (h : settle s r = .next t) (hr : ∀ u, r = .ok u → Kept s u) :
      (∃ c, t = fail c s) ∨ Kept s t := by
    rcases settle_eq_next.1 h with h | ⟨c, -, rfl⟩
    · exact .inr (hr t h)
    · exact .inl ⟨c, rfl⟩
  have htail {k : Nat} {e : Phrase} (h : settle s (tail k e (s.consume s.nb)) = .next t) : (∃ c, t = fail c s) ∨ Kept s t :=
    hsettle h fun _ hu => (grown_consume s s.nb).kept.trans (tail_kept hu)
  cases i with
  | raw u =>
    refine hsettle h fun v hv => ?_
    obtain ⟨a, ha, hv⟩ := bind_eq_ok.1 hv
    have hentry : Kept s { s.consume (s.nb + rawBits) with dictD := Table.write s.dictD s.n [u] } :=
      ⟨rfl, rfl, rfl, rfl, rfl, rfl, rfl, rfl, rfl, rfl, rfl⟩
    exact (hentry.trans (advance_kept ha)).trans (tail_kept hv)
  | eos => exact absurd rfl hne
  | ref k =>
    simp only [exec, execRef] at h
    split at h
    · cases h
    · exact htail h
  | refAhead k =>
    simp only [exec, execRefAhead] at h
    split at h
    · cases h
    · cases h
    · exact htail h
  | illegalCode k =>
    cases h
    exact .inl ⟨.badCode, rfl⟩
  | _ => cases hi

/-- What the `D_DECODE` step can do: success on `EOS`, and on no other code word. -/
theorem decodeStep_cases {s t : State} (h : decodeStep s = .next t) :
    (t = complete (s.consume s.nb) ∧ ∃ tl, decodeCode s.codeCtx s.restBits = .ok (.eos, tl)) ∨
    ((∃ c, t = fail c s) ∨ Kept s t) ∧ ¬ ∃ tl, decodeCode s.codeCtx s.restBits = .ok (.eos, tl) := by
  obtain ⟨hrun, herror⟩ := decodeStep_eq s
  cases hcode : decodeCode s.codeCtx s.restBits with
  | error e =>
    cases h.symm.trans (herror e hcode)
    exact .inr ⟨.inl ⟨.truncated, rfl⟩, nofun⟩
  | ok r =>
    obtain ⟨i, tl⟩ := r
    have hexec : exec i s = .next t := (hrun i tl hcode).symm.trans h
    by_cases hi : i = .eos
    · subst hi
      cases hexec
      exact .inl ⟨rfl, tl, rfl⟩
    · obtain ⟨hword, -⟩ := encodingUndoesDecoding _ _ _ _ hcode
      refine .inr ⟨exec_codeWord_cases hword hi hexec, ?_⟩
      rintro ⟨tl', heos⟩
      cases heos
      exact hi rfl

/-- The `D_DECODE` step succeeds exactly on `EOS`; else it fails, or the next code word is due. -/
theorem engineStep_dDecode_phase {s t : State} (hp : s.phase = .dDecode) (hs : s.spoiled = false)
    (hst : engineStep s = .next t) :
    (t.phase = .idle ∧ t.status = statusSuccess ↔ ∃ tl, decodeCode s.codeCtx s.restBits = .ok (.eos, tl)) ∧
      (t.phase = .dDecode ∨ t.status = statusSuccess ∧ t.phase = .idle ∨ ∃ c, failed c t) := by
  rw [engineStep_dDecode hp hs] at hst
  rcases decodeStep_cases hst with ⟨rfl, heos⟩ | ⟨⟨c, rfl⟩ | hkept, hne⟩
  · exact ⟨iff_of_true ⟨rfl, rfl⟩ heos, .inr (.inl ⟨rfl, rfl⟩)⟩
  · have hfailure : (fail c (tick s)).status ≠ statusSuccess := (statusFailure_ne c).left
    exact ⟨iff_of_false (fun h => hfailure h.right) hne, .inr (.inr ⟨c, reports_fail _ _⟩)⟩
  · have hphase : t.phase = .dDecode := hkept.phase.trans hp
    exact ⟨iff_of_false (by rw [hphase]; nofun) hne, .inl hphase⟩

/-- A write of `CMD` leaves the phase of a running block, and starts an idle one in the phase of its direction, or fails. -/
theorem start_phase {v : BitVec 3} {s t : State} (h : StatusOk s) (hst : start v s = .next t) :
    (s.phase ≠ .idle → t.phase = s.phase) ∧
      (s.phase = .idle → t.phase = (if cmdDir v then .dCheck else .cScan) ∨ failed .capacity t) := by
  refine ⟨fun hp => ?_, fun hp => ?_⟩
  · have hbusy := busy_of_running h hp
    rcases start_cases v s with ⟨-, he⟩ | ⟨hb, -, -⟩ | ⟨hb, -, -⟩
    · cases hst.symm.trans he
      rfl
    · cases hbusy.symm.trans hb
    · cases hbusy.symm.trans hb
  · have hidle := busy_of_idle h hp
    rcases start_cases v s with ⟨hb, -⟩ | ⟨-, -, he⟩ | ⟨-, -, he⟩
    · cases hb.symm.trans hidle
    · cases hst.symm.trans he
      exact .inr (reports_fail _ _)
    · cases hst.symm.trans he
      exact .inl rfl

/-- Settles O47: an engine step by the phase it begins in, and the host's actions one by one. -/
theorem phaseTransitions : Obligations.PhaseTransitions := by
  intro s t h hst
  refine ⟨fun rest hturn => ?_, fun v rest hh => ?_, fun i x rest hh => ?_, fun n rest hh => ?_, fun rest hh => ?_⟩
  · have hinv := inv_host h rest
    have hengine : engineStep { s with host := rest } = .next t := (step_of_engineTurn hturn).symm.trans hst
    refine ⟨fun hp => ?_, fun hp hs => ?_, fun hs hp hlt => ?_, fun hs hp hend => ?_, fun hs hp => ?_, fun hs hp => ?_,
      fun hs hp => ?_⟩
    · cases hengine.symm.trans (engineStep_idle hp)
      exact hp
    · cases hengine.symm.trans (engineStep_spoiled hp hs)
      exact spoiledEnd_ends _
    · exact engineStep_cScan_unit (s := { s with host := rest }) hinv hp hs hlt hengine
    · exact engineStep_cScan_end (s := { s with host := rest }) hp hs hend hengine
    · exact engineStep_cEnd_ends hinv hp hs hengine
    · exact step_dCheck_phase hturn hp hs hst
    · exact engineStep_dDecode_phase (s := { s with host := rest }) hp hs hengine
  · have hstart : start v { s with host := rest } = .next t := by
      rw [← exec_decodeCommand, ← step_of_host_writeCmd hh, hst]
    exact start_phase (s := { s with host := rest }) (inv_host h rest).status hstart
  all_goals
    simp only [step, hh, Host.Outcome.next.injEq] at hst
    exact hst ▸ rfl

/-! ## `URI` against `BASE64` -/

/-- The two tables differ at their last code unit alone (43_alphabets.md R192, R195). -/
theorem uri_enc_eq {v : Nat} (hv : v < 2 ^ Adapter.base64.sb) :
    Adapter.uri.enc v = if Adapter.base64.enc v = base64Last then uriLast else Adapter.base64.enc v := by
  have hall : ∀ v < 64, encSextet uriLast v =
      if encSextet base64Last v = base64Last then uriLast else encSextet base64Last v := by
    decide
  exact hall v hv

/-- No symbol of `BASE64` is `=`, so without its `=` the rendering is the symbols (43_alphabets.md R193). -/
theorem filter_render_base64 (bits : List Bool) :
    (Whole.render .base64 bits).filter (fun x => x ≠ padElem) =
      (Whole.symbols 6 ((bits.length + 6 - 1) / 6) bits).map Adapter.base64.enc := by
  have hsymbols : ∀ x ∈ (Whole.symbols 6 ((bits.length + 6 - 1) / 6) bits).map Adapter.base64.enc,
      decide (x ≠ padElem) = true := by
    intro x hx
    obtain ⟨v, hv, rfl⟩ := List.mem_map.1 hx
    exact decide_eq_true (base64_enc_ne_pad (symbols_lt _ _ _ v hv))
  have hpads (n : Nat) : (List.replicate n padElem).filter (fun x => x ≠ padElem) = [] := by simp
  rw [Whole.render, List.filter_append, Whole.padding, hpads, List.append_nil]
  exact List.filter_eq_self.2 hsymbols

/-- Away from their last code units the two tables decode alike (43_alphabets.md R194, R195). -/
theorem uri_dec_eq {x : Elem} (hb : x ≠ base64Last) (hu : x ≠ uriLast) : Adapter.uri.dec x = Adapter.base64.dec x := by
  simp only [Adapter.dec, decSextet, if_neg hb, if_neg hu]

/-- Adapters of one width that decode the elements alike unpack them alike. -/
theorem unpackElems_congr {ad ad' : Adapter} {xs : List Elem} (hsb : ad.sb = ad'.sb) (h : ∀ x ∈ xs, ad.dec x = ad'.dec x) :
    unpackElems ad xs = unpackElems ad' xs := by
  induction xs with
  | nil => rfl
  | cons x xs ih =>
    obtain ⟨hx, hxs⟩ := List.forall_mem_cons.1 h
    simp only [unpackElems, hx, hsb, ih hxs]

/-- Input with neither of the last code units and no `=` unpacks alike under both. -/
theorem unpackAll_uri_eq {xs : List Elem} (h : ∀ x ∈ xs, x ≠ base64Last ∧ x ≠ padElem ∧ x ≠ uriLast) :
    Whole.unpackAll .uri xs = Whole.unpackAll .base64 xs := by
  have hstrip : (xs.reverse.dropWhile (· = padElem)).reverse = xs := by
    simpa using strip_pads xs 0 fun x hx => let ⟨_, hpad, _⟩ := h x hx; hpad
  simp only [Whole.unpackAll, hstrip]
  refine unpackElems_congr rfl fun x hx => ?_
  obtain ⟨hb, -, hu⟩ := h x hx
  exact uri_dec_eq hb hu

/-- Settles O39: the renderings are the same symbols under two tables (`uri_enc_eq`), and such input unpacks to the same bits
(`unpackAll_uri_eq`). -/
theorem uriAgainstBase64 : Obligations.UriAgainstBase64 := by
  refine ⟨fun bits => ?_, fun p xs h => ?_⟩
  · have huri : Whole.render .uri bits = (Whole.symbols 6 ((bits.length + 6 - 1) / 6) bits).map Adapter.uri.enc :=
      List.append_nil _
    rw [filter_render_base64, huri, List.map_map]
    exact List.map_congr_left fun v hv => uri_enc_eq (symbols_lt _ _ _ v hv)
  · have hdec : decResult .uri p xs = decResult .base64 p xs := by rw [decResult, decResult, unpackAll_uri_eq h]
    rw [command_eq, command_eq]
    exact congrArg (ite _ _) hdec

/-! ## Lengths -/

/-- Settles O40: an output has as many symbols as the code stream fills, and under `BASE64` the padding up to a multiple of 4. -/
theorem resultLengths : Obligations.ResultLengths := by
  intro bits
  refine ⟨length_render (.inl rfl) bits, ?_, ?_, length_render (.inr rfl) bits⟩
  · have hlen : (Whole.render .base64 bits).length = (bits.length + 5) / 6 + (4 - (bits.length + 5) / 6 % 4) % 4 := by
      simp [Whole.render, Whole.padding, Adapter.sb]
    omega
  · simp [Whole.render, Whole.padding, Adapter.sb]

end Sys2Proof.Machine
end
section
/-! PROOFS of the statements of 60_exceptions.md: the machine never stops (R235), when an operation fails for capacity (R230, R231),
that the next command runs after a failure (R234), and that an idle block holds its state (R243). -/

namespace Sys2Proof.Machine

open Sys2Proof.Safety Sys2Proof.Claims

/-- Settles O54: the step goes on, to a sound block (`step_inv`). -/
theorem everyStepGoesOn : Obligations.EveryStepGoesOn := by
  intro s h
  obtain ⟨t, ht, -⟩ := step_inv h
  exact ⟨t, ht⟩

/-- Settles O46: the step is the engine's, which does nothing in `IDLE`. -/
theorem idleHolds : Obligations.IdleHolds := by
  intro s rest hp hturn
  rw [step_of_engineTurn hturn]
  exact engineStep_idle hp

/-- `FAIL` leaves the block free for the next command (R233). -/
theorem fail_busy (c : Cause) (s : State) : (fail c s).busy = false := by
  rw [State.busy, fail_status]
  cases c <;> rfl

/-- Settles O6: the block is not busy, so the command starts (`commandStartsOperation`). -/
theorem failureIsNotFatal : Obligations.FailureIsNotFatal := by
  intro c e s hc hin
  obtain ⟨hstart, -⟩ := commandStartsOperation c (fail e s) hc (fail_busy e s)
  obtain ⟨t, ht, hcmd, hstatus, -, hn, hnb, -⟩ := hstart hin
  exact ⟨t, ht, hcmd, hstatus, hn, hnb⟩

/-! ## Code words without room -/

/-- A word does not fit when a bound is below its output or below its width. -/
theorem not_fits_iff {s : State} {l n : Nat} :
    ¬ fits s l n ↔ exceeds s.params.outMax l = true ∨ exceeds s.params.maxCodeBits (bitlen n) = true := by
  rw [fits, ← exceeds_eq_false, ← exceeds_eq_false, not_and_or, Bool.not_eq_false, Bool.not_eq_false]

/-- `TAIL` without room for its word or the next code, R167. -/
theorem tail_not_fits (k : Nat) (x : Elem) (e : Phrase) {s : State} (hc : CodesOk s)
    (hl : ∀ m ∈ s.params.outMax, s.outLen ≤ m) (hp : PendOk s) (h : ¬ fits s (s.outLen + (e.length + 1)) (s.n + 1)) :
    tail k (x :: e) s = .error (.cause .capacity) := by
  simp only [tail, fillPending_eq (PendOk_prev hp), Except.bind, appendAll_eq (x :: e) { s with dictD := filled s x } hl]
  cases hx : exceeds s.params.outMax (s.outLen + (x :: e).length) with
  | true => rfl
  | false =>
    have hw : exceeds s.params.maxCodeBits (bitlen (s.n + 1)) = true :=
      (not_fits_iff.1 h).resolve_left (Bool.eq_false_iff.1 hx)
    rw [if_neg Bool.false_ne_true]
    dsimp only
    rw [CodesOk_advance]
    · exact if_pos hw
    · exact hc

/-- A step that ends with `ERR_CAPACITY` fails so (R233). -/
theorem settle_capacity_failed (s : State) :
    ∃ t, settle s (.error (.cause .capacity)) = .next t ∧ failed .capacity t ∧ sameInput s t :=
  ⟨fail .capacity s, rfl, reports_fail .capacity s, rfl, fun _ => rfl, rfl⟩

/-- A reference without room, R164 and R165. -/
theorem reference_not_fits (k : Nat) (x : Elem) (e : Phrase) {s : State} (hc : CodesOk s) (hd : DecodeOk s)
    (hl : ∀ m ∈ s.params.outMax, s.outLen ≤ m) (h : ¬ fits s (s.outLen + (e.length + 1)) (s.n + 1)) :
    ∃ t, settle s (tail k (x :: e) (s.consume s.nb)) = .next t ∧ failed .capacity t ∧ sameInput s t := by
  have hp : PendOk (s.consume s.nb) := DecodeOk_pendOk (s := s) hd
  have htail : tail k (x :: e) (s.consume s.nb) = .error (.cause .capacity) := tail_not_fits k x e hc hl hp h
  rw [htail]
  exact settle_capacity_failed s

/-- A raw unit without room, R163: its own code passes the bound, or its `TAIL` has no room. -/
theorem raw_not_fits (u : Elem) {s : State} (hc : CodesOk s) (hd : DecodeOk s) (hl : ∀ m ∈ s.params.outMax, s.outLen ≤ m)
    (h : ¬ fits s (s.outLen + 1) (s.n + 2)) :
    ∃ t, exec (.raw u) s = .next t ∧ failed .capacity t ∧ sameInput s t := by
  set a : State := { s.consume (s.nb + rawBits) with dictD := Table.write s.dictD s.n [u] }
  have hexec : exec (.raw u) s = settle s ((advance a).bind (tail s.n [u])) := rfl
  have hover : (advance a).bind (tail s.n [u]) = .error (.cause .capacity) := by
    rcases advance_cases (s := a) hc with ⟨-, hadvance, hcb⟩ | ⟨-, hadvance⟩ <;> rw [hadvance]
    · have hpb : PendOk { a with n := a.n + 1, nb := bitlen (a.n + 1) } :=
        (DecodeOk_pendOk hd).of_write_n (DecodeOk_read?_n hd) rfl rfl rfl (Nat.le_succ _)
      exact tail_not_fits s.n u [] hcb hl hpb h
    · rfl
  rw [hexec, hover]
  exact settle_capacity_failed s

/-- Settles O19: each code word ends with `ERR_CAPACITY` in its `TAIL` (`tail_not_fits`), or in the code of its own entry. -/
theorem codeWordsFailAtCapacity : Obligations.CodeWordsFailAtCapacity := by
  intro s hc hd hl
  refine ⟨fun u h => raw_not_fits u hc hd hl h, fun k e hk h => ?_, fun k p w _ hprev hw h => ?_⟩
  · obtain ⟨x, e, rfl⟩ := DecodeOk_entry hd hk
    have hexec : exec (.ref k) s = settle s (tail k (x :: e) (s.consume s.nb)) := by simp only [exec, execRef, hk]
    rw [hexec]
    exact reference_not_fits k x e hc hd hl h
  · obtain ⟨x, w, rfl⟩ := DecodeOk_entry hd hw
    have hbind : s.prev.bind (Table.read? s.dictD) = some (x :: w) := by rw [hprev]; exact hw
    have hexec : exec (.refAhead k) s = settle s (tail k (x :: (w ++ [x])) (s.consume s.nb)) := by
      simp only [exec, execRefAhead, hbind, List.cons_append]
    rw [hexec]
    refine reference_not_fits k x (w ++ [x]) hc hd hl ?_
    rw [List.length_append, List.length_singleton]
    exact h

/-! ## Only a bound is a reason for `ERR_CAPACITY` -/

/-- The implementation bounds the code width or the output (00_scope.md R10). -/
def Bounded (s : State) : Prop := s.params.maxCodeBits ≠ none ∨ s.params.outMax ≠ none

/-- No micro-operation changes the bounds. -/
theorem Kept.bounded {s t : State} (h : Kept s t) (ht : Bounded t) : Bounded s := by
  rw [Bounded, ← h.params]
  exact ht

/-- `APPEND` raises only at `P_OUT_MAX` (20_memory.md R53). -/
theorem append_bounded {v : Elem} {s : State} {e : Stop} (h : append v s = .error e) : Bounded s := by
  obtain ⟨-, hfull⟩ := append_eq_error.1 h
  exact .inr (by rw [hfull]; nofun)

/-- So do several. -/
theorem appendAll_bounded {e : Phrase} {s : State} {x : Stop} (h : appendAll e s = .error x) : Bounded s := by
  induction e generalizing s with
  | nil => cases h
  | cons v e ih =>
    rcases bind_eq_error.1 h with h | ⟨a, ha, h⟩
    · exact append_bounded h
    · exact (append_kept ha).bounded (ih h)

/-- `ADVANCE` raises only past `P_MAX_CODE_BITS` (41_compress.md R134). -/
theorem advance_bounded {s : State} {e : Stop} (h : advance s = .error e) : Bounded s := by
  obtain ⟨-, -, hover⟩ := advance_eq_error h
  obtain ⟨m, hm, -⟩ := exceeds_eq_true.1 hover
  exact .inl (by rw [Option.mem_def.1 hm]; nofun)

/-- A bit raises only in the `APPEND` of a full symbol (40_bitstream.md R101). -/
theorem putBit_bounded {b : Bool} {s : State} {e : Stop} (h : putBit b s = .error e) : Bounded s := by
  by_cases hfull : s.accCnt + 1 = s.adapter.sb
  · rw [putBit_flush b hfull] at h
    exact append_bounded (map_eq_error.1 h)
  · rw [putBit_shift b hfull] at h
    cases h

/-- `WRITE`, bit by bit. -/
theorem putBits_bounded {bs : List Bool} {s : State} {e : Stop} (h : putBits bs s = .error e) : Bounded s := by
  induction bs generalizing s with
  | nil => cases h
  | cons b bs ih =>
    rcases bind_eq_error.1 h with h | ⟨a, ha, h⟩
    · exact putBit_bounded h
    · exact (putBit_kept ha).bounded (ih h)

/-- The padding, bit by bit. -/
theorem padZeros_bounded {f : Nat} {s : State} (h : padZeros f s = .error (.cause .capacity)) : Bounded s := by
  induction f generalizing s with
  | zero =>
    unfold padZeros at h
    split at h <;> cases h
  | succ f ih =>
    unfold padZeros at h
    split at h
    · cases h
    · rcases bind_eq_error.1 h with h | ⟨a, ha, h⟩
      · exact putBit_bounded h
      · exact (putBit_kept ha).bounded (ih h)

/-- `FINISH`: the bits of its padding, or the `=` after them. -/
theorem finish_bounded {s : State} (h : finish s = .error (.cause .capacity)) : Bounded s := by
  rcases bind_eq_error.1 h with h | ⟨a, ha, h⟩
  · exact padZeros_bounded h
  · refine (padZeros_kept ha).bounded ?_
    unfold adapterFinish at h
    split at h
    · cases h
    · exact appendAll_bounded h
    · cases h
    · cases h

/-- `ASSIGN` is `ADVANCE` under another dictionary. -/
theorem assign_bounded {p : Phrase} {s : State} {e : Stop} (h : assign p s = .error e) : Bounded s :=
  advance_bounded (s := { s with dictC := DictC.add s.dictC p s.n }) h

/-- `EMIT_PHRASE`: a code word, a literal after it, or the code of a new unit. -/
theorem emitPhrase_bounded {p : Phrase} {s : State} (h : emitPhrase p s = .error (.cause .capacity)) : Bounded s := by
  unfold emitPhrase at h
  split at h
  · exact putBits_bounded h
  · split at h
    · rcases bind_eq_error.1 h with h | ⟨b, hb, h⟩
      · rcases bind_eq_error.1 h with h | ⟨a, ha, h⟩
        · exact putBits_bounded h
        · exact (putBits_kept ha).bounded (putBits_bounded h)
      · obtain ⟨a, ha, hb⟩ := bind_eq_ok.1 hb
        exact ((putBits_kept ha).trans (putBits_kept hb)).bounded (assign_bounded h)
    · cases h

/-- The `C_SCAN` step: the emission of the phrase, or the code of the new one. -/
theorem scanStep_bounded {s : State} (h : scanStep s = .error (.cause .capacity)) : Bounded s := by
  unfold scanStep at h
  split at h
  · have h := map_eq_error.1 h
    unfold scan at h
    split at h
    · cases h
    · split at h
      · cases h
      · rcases bind_eq_error.1 (map_eq_error.1 h) with h | ⟨a, ha, h⟩
        · exact emitPhrase_bounded h
        · exact (emitPhrase_kept ha).bounded (assign_bounded h)
  · cases h

/-- The last phrase: its emission, or the slot after it. -/
theorem endPhrase_bounded {s : State} (h : endPhrase s = .error (.cause .capacity)) : Bounded s := by
  unfold endPhrase at h
  split at h
  · cases h
  · rcases bind_eq_error.1 h with h | ⟨a, ha, h⟩
    · exact emitPhrase_bounded h
    · exact (emitPhrase_kept ha).bounded (advance_bounded h)

/-- The `C_END` step: the last phrase, the terminator or the flush. -/
theorem endStep_bounded {s : State} (h : endStep s = .error (.cause .capacity)) : Bounded s := by
  rcases bind_eq_error.1 (map_eq_error.1 h) with h | ⟨b, hb, h⟩
  · rcases bind_eq_error.1 h with h | ⟨a, ha, h⟩
    · exact endPhrase_bounded h
    · exact (endPhrase_kept ha).bounded (putBits_bounded h)
  · obtain ⟨a, ha, hb⟩ := bind_eq_ok.1 hb
    exact ((endPhrase_kept ha).trans (putBits_kept hb)).bounded (finish_bounded h)

/-- `TAIL`: its output, or the next code. -/
theorem tail_bounded {k : Nat} {e : Phrase} {s : State} (h : tail k e s = .error (.cause .capacity)) : Bounded s := by
  unfold tail at h
  split at h
  · cases h
  · rcases bind_eq_error.1 h with h | ⟨b, hb, h⟩
    · rcases bind_eq_error.1 h with h | ⟨a, ha, h⟩
      · unfold fillPending at h
        split at h
        · cases h
        · split at h <;> cases h
      · exact (fillPending_kept ha).bounded (appendAll_bounded h)
    · obtain ⟨a, ha, hb⟩ := bind_eq_ok.1 hb
      exact ((fillPending_kept ha).trans (appendAll_kept hb)).bounded
        (advance_bounded (s := { b with prev := some k, pend := some b.n }) h)

/-- The causes have different reports (60_exceptions.md R230). -/
theorem statusFailure_inj {c d : Cause} (h : statusFailure c = statusFailure d) : c = d := by
  revert h
  cases c <;> cases d <;> decide

/-- A step reports `ERR_CAPACITY` only by raising it, where one that ends well does not report it. -/
theorem capacity_of_settle {s t : State} {r : Except Stop State} (h : settle s r = .next t)
    (ht : t.status = statusFailure .capacity) (hr : ∀ u, r = .ok u → u.status ≠ statusFailure .capacity) :
    r = .error (.cause .capacity) := by
  rcases settle_eq_next.1 h with h | ⟨c, hc, rfl⟩
  · exact absurd ht (hr t h)
  · rw [hc, statusFailure_inj ht]

/-- A code word reports `ERR_CAPACITY` only in its `TAIL`, or in the code of its own entry. -/
theorem exec_codeWord_bounded {i : Instr} {s t : State} (hi : i.isCodeWord = true) (hs : s.status ≠ statusFailure .capacity)
    (h : exec i s = .next t) (ht : t.status = statusFailure .capacity) : Bounded s := by
  have hsettle {r : Except Stop State} (h : settle s r = .next t) (hr : ∀ u, r = .ok u → Kept s u) :
      r = .error (.cause .capacity) :=
    capacity_of_settle h ht fun u hu => by rw [(hr u hu).status]; exact hs
  have htail {k : Nat} {e : Phrase} (h : settle s (tail k e (s.consume s.nb)) = .next t) : Bounded s :=
    tail_bounded (s := s.consume s.nb) (hsettle h fun _ hu => (grown_consume s s.nb).kept.trans (tail_kept hu))
  cases i with
  | raw u =>
    have hentry : Kept s { s.consume (s.nb + rawBits) with dictD := Table.write s.dictD s.n [u] } :=
      ⟨rfl, rfl, rfl, rfl, rfl, rfl, rfl, rfl, rfl, rfl, rfl⟩
    have herror := hsettle h fun v hv => by
      obtain ⟨a, ha, hv⟩ := bind_eq_ok.1 hv
      exact (hentry.trans (advance_kept ha)).trans (tail_kept hv)
    rcases bind_eq_error.1 herror with ha | ⟨a, ha, hv⟩
    · exact hentry.bounded (advance_bounded ha)
    · exact (hentry.trans (advance_kept ha)).bounded (tail_bounded hv)
  | eos =>
    cases h
    exact absurd ht.symm (statusFailure_ne .capacity).left
  | ref k =>
    simp only [exec, execRef] at h
    split at h
    · cases h
    · exact htail h
  | refAhead k =>
    simp only [exec, execRefAhead] at h
    split at h
    · cases h
    · cases h
    · exact htail h
  | illegalCode k =>
    cases h
    cases statusFailure_inj ht
  | _ => cases hi

/-- The `D_DECODE` step: a code word, or `ERR_TRUNCATED` where there is none to read. -/
theorem decodeStep_bounded {s t : State} (hs : s.status ≠ statusFailure .capacity) (h : decodeStep s = .next t)
    (ht : t.status = statusFailure .capacity) : Bounded s := by
  obtain ⟨hrun, herror⟩ := decodeStep_eq s
  cases hcode : decodeCode s.codeCtx s.restBits with
  | error e =>
    cases h.symm.trans (herror e hcode)
    cases statusFailure_inj ht
  | ok r =>
    obtain ⟨i, tl⟩ := r
    obtain ⟨hword, -⟩ := encodingUndoesDecoding _ _ _ _ hcode
    exact exec_codeWord_bounded hword hs ((hrun i tl hcode).symm.trans h) ht

/-- The `D_CHECK` step raises `ERR_ALPHABET` alone. -/
theorem checkStep_error {s : State} {e : Stop} (h : checkStep s = .error e) : e = .cause .alphabet := by
  have h := map_eq_error.1 h
  unfold unpack at h
  split at h
  · cases h
    rfl
  · cases h

/-- A scan step that goes well leaves the operation running. -/
theorem scanStep_status {s t : State} (h : scanStep s = .ok t) : t.status = s.status := by
  unfold scanStep at h
  split at h
  · obtain ⟨u, hu, rfl⟩ := map_eq_ok.1 h
    exact (scan_kept hu).status
  · cases h
    rfl

/-- An engine step of a running operation reports `ERR_CAPACITY` only where there is a bound: one case per phase. -/
theorem engineStep_bounded {s t : State} (h : Inv s) (hp : s.phase ≠ .idle) (hs : s.spoiled = false)
    (hst : engineStep s = .next t) (ht : t.status = statusFailure .capacity) : Bounded s := by
  have hbusy : (tick s).status ≠ statusFailure .capacity := by
    rw [tick_status, busy_of h.status hp]
    exact (statusFailure_ne .capacity).right.symm
  suffices hb : Bounded (tick s) from hb
  cases hph : s.phase with
  | idle => exact absurd hph hp
  | cScan =>
    rw [engineStep_cScan hph hs] at hst
    exact scanStep_bounded (capacity_of_settle hst ht fun u hu => by rw [scanStep_status hu]; exact hbusy)
  | cEnd =>
    rw [engineStep_cEnd hph hs] at hst
    refine endStep_bounded (capacity_of_settle hst ht fun u hu => ?_)
    obtain ⟨v, -, rfl⟩ := map_eq_ok.1 hu
    exact (statusFailure_ne .capacity).left.symm
  | dCheck =>
    rw [engineStep_dCheck hph hs] at hst
    have herror := capacity_of_settle hst ht fun u hu => by
      obtain ⟨b, rfl⟩ := checkStep_eq_ok hu
      exact hbusy
    cases checkStep_error herror
  | dDecode =>
    rw [engineStep_dDecode hph hs] at hst
    exact decodeStep_bounded hbusy hst ht

/-- A running operation has reported no error (10_state.md R23). -/
theorem err_of_running {s : State} (h : StatusOk s) (hp : s.phase ≠ .idle) : s.err = false := by
  rw [State.err, busy_of h hp]
  rfl

/-- A compression step that ends with an error ends with `ERR_CAPACITY`, by the transitions of `PHASE` (R212). -/
theorem failed_of_err {s t : State} {rest : List HostAct} (hinv : Inv s) (hp : s.phase = .cScan ∨ s.phase = .cEnd)
    (hs : s.spoiled = false) (hturn : engineTurn s rest) (hst : step s = .next t) (herr : t.err = true) :
    failed .capacity t := by
  have hidle : t.phase = .idle := by
    by_contra hne
    rw [err_of_running (stepKeepsInvariant s t hinv hst).status hne] at herr
    cases herr
  obtain ⟨htransitions, -⟩ := phaseTransitions s t hinv hst
  obtain ⟨-, -, hunit, hlast, hend, -⟩ := htransitions rest hturn
  rcases hp with hp | hp
  · obtain ⟨-, -, -, -, -, hle⟩ := Inv_cScan hinv hp hs
    rcases hle.lt_or_eq with hlt | heq
    · rcases hunit hs hp hlt with ⟨hscan, -⟩ | hfailed
      · cases hidle.symm.trans hscan
      · exact hfailed
    · cases hidle.symm.trans (hlast hs hp heq)
  · rcases hend hs hp with ⟨-, hsuccess | hfailed⟩
    · rw [State.err, hsuccess] at herr
      cases herr
    · exact hfailed

/-- Settles O51: the error of a compression step is `ERR_CAPACITY` (`failed_of_err`), which only a bound is a reason for
(`engineStep_bounded`). -/
theorem capacityOnlyWhenBounded : Obligations.CapacityOnlyWhenBounded := by
  rintro s t ph rest ⟨hinv, rfl, hs, hturn⟩ hp hst
  have herror (hph : s.phase = .cScan ∨ s.phase = .cEnd) (herr : t.err = true) : failed .capacity t :=
    failed_of_err hinv hph hs hturn hst herr
  refine ⟨herror, fun hcodes hout => ?_⟩
  have hnot : t.status ≠ statusFailure .capacity := by
    intro ht
    rw [step_of_engineTurn hturn] at hst
    rcases engineStep_bounded (inv_host hinv rest) hp hs hst ht with hb | hb
    · exact hb hcodes
    · exact hb hout
  refine ⟨hnot, fun hph => Bool.eq_false_iff.2 fun herr => ?_⟩
  obtain ⟨-, hstatus, -⟩ := herror hph herr
  exact hnot hstatus

end Sys2Proof.Machine
end
section
/-! PROOFS of the statements of 70_reset_and_hazards.md: the bounds on a command's steps (R263), power-on reset (R250 to R252), host
writes of `CMD` while busy (R257), and host writes of `IN` and `IN_LEN` with the end of an operation they disturb (R256). -/

namespace Sys2Proof.Machine

open Sys2Proof.Safety Sys2Proof.Claims

/-! ## How many steps a success takes -/

/-- A running operation has not succeeded yet (10_state.md R23), so a run from it to a success takes a step. -/
theorem run_success_pos {k : Nat} {s t : State} (h : StatusOk s) (hp : s.phase ≠ .idle) (hrun : run k s = .next t)
    (ht : t.status = statusSuccess) : 0 < k := by
  refine Nat.pos_of_ne_zero ?_
  rintro rfl
  cases hrun
  exact absurd ((busy_of h hp).symm.trans ht) (by decide)

/-- A failure stays (60_exceptions.md R243). -/
theorem run_failed_ne_success {k : Nat} {c : Cause} {s t : State} (hh : s.host = []) (h : failed c s)
    (hrun : run k s = .next t) : t.status ≠ statusSuccess := by
  obtain ⟨-, hstatus, hp⟩ := h
  cases hrun.symm.trans (run_idle hh hp k)
  rw [hstatus]
  exact (statusFailure_ne c).left

/-- The `C_SCAN` step is no host write, so it leaves the mark of one as it was. -/
theorem scanStep_spoiled {s t : State} (h : scanStep s = .ok t) : t.spoiled = s.spoiled := by
  unfold scanStep at h
  split at h
  · obtain ⟨u, hu, rfl⟩ := map_eq_ok.1 h
    exact (scan_kept hu).spoiled
  · cases h
    rfl

/-- The steps before a compression's success: one for each unit not yet scanned, the move to `C_END`, and the end (R263). -/
theorem run_cScan_success_le {k : Nat} {s t : State} (hinv : Inv s) (hp : s.phase = .cScan) (hs : s.spoiled = false)
    (hh : s.host = []) (hrun : run k s = .next t) (ht : t.status = statusSuccess) : s.inLen + 2 ≤ s.inPtr + k := by
  induction k generalizing s with
  | zero => exact absurd (run_success_pos hinv.status (by rw [hp]; nofun) hrun ht) (Nat.lt_irrefl 0)
  | succ k ih =>
    obtain ⟨u, hu, hinvu⟩ := engineStep_inv hinv
    have hhu : u.host = [] := (engineStep_host hinv hu).trans hh
    rw [run_engineStep k hh hu] at hrun
    obtain ⟨-, -, -, -, -, hle⟩ := Inv_cScan hinv hp hs
    rcases hle.lt_or_eq with hlt | hend
    · rcases engineStep_cScan_unit hinv hp hs hlt hu with ⟨hpu, hptr⟩ | hfailed
      · have hscan : scanStep (tick s) = .ok u :=
          settle_running ((engineStep_cScan hp hs).symm.trans hu) (by rw [hpu]; nofun)
        have hlen : u.inLen = s.inLen := congrArg Prod.fst (scanStep_input hscan)
        have := ih hinvu hpu ((scanStep_spoiled hscan).trans hs) hhu hrun
        omega
      · exact absurd ht (run_failed_ne_success hhu hfailed hrun)
    · have hpu := engineStep_cScan_end hp hs hend hu
      have := run_success_pos hinvu.status (by rw [hpu]; nofun) hrun ht
      omega

/-- Settles O31: the upper bounds are those of the run that reports the command's function (`run_reports_command`); a compression
that succeeds has started, and then has all its units to scan (`run_cScan_success_le`). -/
theorem terminationBound : Obligations.TerminationBound := by
  intro v s h
  refine ⟨?_, fun k t hk hv hrun ht => ?_⟩
  · obtain ⟨t, ht, hr⟩ := run_reports_command h
    exact ⟨t, ht, reports_idle hr, reports_done hr⟩
  · obtain ⟨hinv, hp, hh⟩ := h
    obtain ⟨k, rfl⟩ := Nat.exists_eq_add_of_le' hk
    set s' : State := { s with host := [] }
    have hstep : step s = start v s' := (step_of_host_writeCmd hh).trans (exec_decodeCommand _ _)
    rcases start_cases v s' with ⟨hb, -⟩ | ⟨-, -, he⟩ | ⟨-, -, he⟩
    · exact absurd ((busy_of_idle (s := s') hinv.status hp).symm.trans hb) (by decide)
    · rw [run_next k (hstep.trans he)] at hrun
      exact absurd ht (run_failed_ne_success rfl (reports_fail _ _) hrun)
    · rw [run_next k (hstep.trans he)] at hrun
      have hbegun := inv_begun v (s := s') hinv.params hinv.inWf
      have hle : s.inLen + 2 ≤ 0 + k := run_cScan_success_le hbegun (by simp [hv]) rfl rfl hrun ht
      omega

/-! ## Power-on reset -/

/-- A power-on reset is the host's next action like any other, whatever the block is doing (R250). -/
theorem step_of_host_powerOnReset {s : State} {rest : List HostAct} (h : s.host = .powerOnReset :: rest) :
    step s = .next (powerOnReset { s with host := rest }) := by
  simp only [step, h]

/-- Settles O1: the fields of `powerOnReset`, and `STATUS` is the idle word, so neither `DONE` nor `BUSY`. -/
theorem powerOnResetState : Obligations.PowerOnResetState := by
  refine ⟨⟨rfl, rfl, rfl, rfl⟩, fun s rest hh => ?_⟩
  have hdone : statusIdle.getLsbD 1 = false := by decide
  have hbusy : statusIdle.getLsbD 0 = false := by decide
  exact ⟨_, step_of_host_powerOnReset hh, rfl, rfl, hdone, hbusy, rfl, rfl, rfl, rfl⟩

/-- What a reset makes of a block: the parameters and the model's own list and draw are all it takes from it. -/
theorem powerOnReset_congr {s₁ s₂ : State} (hparams : s₁.params = s₂.params) (hhost : s₁.host = s₂.host)
    (hfree : s₁.free = s₂.free) : powerOnReset s₁ = powerOnReset s₂ := by
  simp only [powerOnReset, deadWorking, tick, hparams, hhost, hfree]

/-- Settles O2: both steps are a reset, which reads the equal fields alone (`powerOnReset_congr`). -/
theorem resetForgetsEverything : Obligations.ResetForgetsEverything := by
  intro s₁ s₂ rest h₁ h₂ hparams hfree
  rw [step_of_host_powerOnReset h₁, step_of_host_powerOnReset h₂]
  exact congrArg Host.Outcome.next (powerOnReset_congr hparams rfl hfree)

/-! ## Host writes while the block is busy -/

/-- A busy block ignores a write of `CMD` (R257). -/
theorem start_of_busy {v : BitVec 3} {s : State} (hb : s.busy = true) : start v s = .next s := if_pos hb

/-- Settles O5: each command is a write of its value to `CMD`, which `start_of_busy` answers. -/
theorem commandWhileBusyIgnored : Obligations.CommandWhileBusyIgnored := by
  intro s hb
  refine ⟨fun c hc => ?_, fun v rest hh => ?_⟩
  · rw [← decodeCommand_of_mem_commands hc, exec_decodeCommand, start_of_busy hb]
  · rw [step_of_host_writeCmd hh, exec_decodeCommand]
    exact start_of_busy (s := { s with host := rest }) hb

/-- A write of `IN` is one step, taken whether or not an operation runs (44_commands.md R222). -/
theorem step_of_host_writeIn {s : State} {i : Nat} {x : Elem} {rest : List HostAct} (h : s.host = .writeIn i x :: rest) :
    step s = .next (hostWriteIn i x { s with host := rest }) := by
  simp only [step, h]

/-- So is a write of `IN_LEN`. -/
theorem step_of_host_writeInLen {s : State} {n : Nat} {rest : List HostAct} (h : s.host = .writeInLen n :: rest) :
    step s = .next (hostWriteInLen n { s with host := rest }) := by
  simp only [step, h]

/-- Settles O45: the write of an element is read back at its index alone (`inAt_hostWriteIn`); both writes set the mark and change no
other field. -/
theorem hostInputWrites : Obligations.HostInputWrites := by
  intro s rest
  refine ⟨fun i x hh => ⟨_, step_of_host_writeIn hh, ?_, fun j hj => ?_, rfl⟩, fun n hh => step_of_host_writeInLen hh⟩
  · rw [inAt_hostWriteIn, if_pos rfl]
  · rw [inAt_hostWriteIn, if_neg hj]
    rfl

/-- A spoiled operation reports a success, or a failure with one of the four causes (log entry 11). -/
theorem spoiledEnd_report (s : State) : (spoiledEnd s).status = statusSuccess ∨ ∃ c, failed c (spoiledEnd s) := by
  unfold spoiledEnd
  split
  · exact .inl rfl
  · split <;> exact .inr ⟨_, reports_fail _ _⟩

/-- Settles O52: the step is `spoiledEnd`. It leaves a sound block, whose output is within `P_OUT_MAX` by the invariant. -/
theorem spoiledOperationEnds : Obligations.SpoiledOperationEnds := by
  intro s rest hinv hp hs hturn
  set s' : State := { s with host := rest }
  have hstep : step s = .next (spoiledEnd (tick s')) := (step_of_engineTurn hturn).trans (engineStep_spoiled (s := s') hp hs)
  have hin : sameInput s (spoiledEnd (tick s')) := sameInput_of_input_eq (spoiledEnd_input _)
  obtain ⟨hidle, hdone⟩ := spoiledEnd_ends (tick s')
  obtain ⟨hcmd, -⟩ := spoiledEnd_keepsReport (tick s')
  obtain ⟨-, hout⟩ := (stepKeepsInvariant s _ hinv hstep).out
  rw [sameInput_params hin] at hout
  exact ⟨_, hstep, hidle, hdone, hout, spoiledEnd_report _, hcmd, spoiledEnd_host _, hin⟩

end Sys2Proof.Machine
end

section
/-! PROOFS of the statements of 41_compress.md, part 1: `ADVANCE` (R134), a scan step with nothing to emit (R135, R136, R139), and
the compression of the empty input (R145). -/

namespace Sys2Proof.Machine

open Sys2Proof.Safety Sys2Proof.Claims

/-- Settles O20: the width of the count after `ADVANCE` is the width it sets (`bitlen_succ`), so both tests are on one number. -/
theorem advanceCountsOneCode : Obligations.AdvanceCountsOneCode := by
  intro s hc
  have hwidth : bitlen (s.n + 1) = if s.n + 1 = 2 ^ s.nb then s.nb + 1 else s.nb := by
    rw [CodesOk_nb hc]
    exact bitlen_succ s.n
  refine ⟨fun hfits => ⟨?_, lt_two_pow_bitlen _, hwidth⟩, fun hover => ?_⟩ <;> rw [CodesOk_advance hc]
  · rw [if_neg (Bool.eq_false_iff.1 (exceeds_eq_false.2 hfits)), hwidth]
  · exact if_pos (exceeds_eq_true.2 hover)

/-! ## The scan step -/

/-- The engine's step in `C_SCAN`. -/
theorem step_cScan {s : State} {rest : List HostAct} (hturn : engineTurn s rest) (hp : s.phase = .cScan)
    (hs : s.spoiled = false) :
    step s = settle (tick { s with host := rest }) (scanStep (tick { s with host := rest })) :=
  (step_of_engineTurn hturn).trans (engineStep_cScan (s := { s with host := rest }) hp hs)

/-- A scan step with a unit to read scans it, R139. -/
theorem scanStep_unit {s : State} (h : s.inPtr < s.inLen) :
    scanStep s = (scan (s.inAt s.inPtr) s).map fun t => { t with inPtr := t.inPtr + 1 } := if_pos h

/-- Settles O21: in each case the step is a branch of `SCAN` or of the step itself that writes nothing. -/
theorem scanStepExtendsPhrase : Obligations.ScanStepExtendsPhrase := by
  intro s rest hp hs hturn
  rw [step_cScan hturn hp hs]
  set u : State := tick { s with host := rest }
  refine ⟨fun hlt hw => ?_, fun hlt hw hhit => ?_, fun hle => ?_⟩
  · have hscan : scan (u.inAt u.inPtr) u = .ok { u with w := [u.inAt u.inPtr] } := if_pos hw
    rw [scanStep_unit (s := u) hlt, hscan]
    rfl
  · have hscan : scan (u.inAt u.inPtr) u = .ok { u with w := u.w ++ [u.inAt u.inPtr] } := (if_neg hw).trans (if_pos hhit)
    rw [scanStep_unit (s := u) hlt, hscan]
    rfl
  · have hend : scanStep u = .ok { u with phase := .cEnd } := if_neg (Nat.not_lt.2 hle)
    rw [hend]
    rfl

/-! ## The empty input -/

/-- The output of the empty input under an adapter, R145. -/
def emptyOutput : Adapter → List Elem
  | .raw16 => [0x4000]
  | .base64 => [0x51, 0x3D, 0x3D, 0x3D]
  | .uri => [0x51]
  | .bytes => [0x40]

/-- They are the elements of its code stream. -/
theorem compress_nil (ad : Adapter) : Whole.compress ad Params.unbounded [] = .ok (emptyOutput ad) 2 2 := by
  cases ad <;> decide

/-- An output reported is what the host finds in `OUT` (44_commands.md R221). -/
theorem outElems_of_reports {out : List Elem} {n nb : Nat} {t : State} (h : reports (.ok out n nb) t) : t.outElems = out := by
  obtain ⟨-, -, hlen, hout, -⟩ := h
  refine List.ext_getElem ((length_outElems t).trans hlen) fun i hi hi' => ?_
  rw [getElem_outElems hi, hout i hi']

/-- Settles O44: three steps are the bound of a command on no input, so the block reports the function of the empty input
(`run_reports_command`), which is computed for each adapter (`compress_nil`). -/
theorem emptyInputCompresses : Obligations.EmptyInputCompresses := by
  refine ⟨by decide, fun v s hstart hv hlen hparams => ?_⟩
  obtain ⟨t, ht, hr⟩ := run_reports_command hstart
  have hbound : stepBound v s = 3 := by simp [stepBound, hv, hlen]
  have hcommand : Whole.command v s.params (s.inElems s.inLen) = .ok (emptyOutput (cmdAdapter v)) 2 2 := by
    rw [Whole.command, hv, hlen, hparams]
    exact compress_nil _
  rw [hcommand] at hr
  have hout : t.outElems = emptyOutput (cmdAdapter v) := outElems_of_reports hr
  obtain ⟨hstatus, -, -, -, hn, hnb⟩ := hr
  refine ⟨t, hbound ▸ ht, hstatus, hn, hnb, ?_⟩
  cases had : cmdAdapter v <;> rw [had] at hout <;> exact hout

end Sys2Proof.Machine
end

section
/-! PROOFS of the statements of 41_compress.md, part 2: a scan step on a miss (R137, R138) and the end step (R140). Each builds what
the function form builds (`Builds`), or fails, and it fails exactly when that does not fit. -/

namespace Sys2Proof.Machine

open Sys2Proof.Safety Sys2Proof.Claims

/-! ## What an emission adds -/

/-- The bits of the pending phrase, R138. -/
theorem emit_enc_stream {s : State} (hc : CodesOk s) (bits : List Bool) :
    (s.enc bits).emit.stream = bits ++ phraseBits s := by
  have hbits : emitBits (s.enc bits) = phraseBits s := by
    rw [phraseBits, CodesOk_nb hc]
    rfl
  rw [emit_stream, hbits]

/-- Its codes, R138. -/
theorem emit_enc_n (s : State) (bits : List Bool) : (s.enc bits).emit.n = s.n + phraseCodes s := by
  unfold phraseCodes
  cases hk : DictC.code? s.dictC s.w with
  | some k => rw [enc_emit_known hk]; rfl
  | none => rw [enc_emit_new hk]; rfl

/-- A new phrase is registered, R133. -/
theorem code?_emit_new {e : Whole.Enc} (hk : DictC.code? e.dict e.w = none) : DictC.code? e.emit.dict e.w = some e.n := by
  rw [enc_emit_new hk, DictC.code?_add, if_pos rfl]

/-- No other word is touched. -/
theorem code?_emit_other {e : Whole.Enc} {p : Phrase} (hp : p ≠ e.w) : DictC.code? e.emit.dict p = DictC.code? e.dict p := by
  cases hk : DictC.code? e.dict e.w with
  | some k => rw [enc_emit_known hk]
  | none => rw [enc_emit_new hk, DictC.code?_add, if_neg hp]

/-! ## What has been written -/

/-- The bits that element `i` of `OUT` stands for (43_alphabets.md R190). -/
def State.symbolBits (s : State) (i : Nat) : List Bool := msb s.adapter.sb ((s.adapter.dec (s.outAt i)).getD 0)

theorem written_eq (s : State) :
    written s = ((List.range s.outLen).map s.symbolBits).flatten ++ msb s.accCnt s.acc := rfl

/-- An element that the writer wrote stands for its group. -/
theorem Wrote.symbolBits {o : Nat} {s : State} {bits : List Bool} (h : Wrote o s bits) {i : Nat} (ho : o ≤ i)
    (hi : i < s.outLen) : s.symbolBits i = (bits.drop (i * s.adapter.sb)).take s.adapter.sb := by
  have hgroup := h.group hi
  rw [Nat.succ_mul] at hgroup
  have hlen : ((bits.drop (i * s.adapter.sb)).take s.adapter.sb).length = s.adapter.sb := by
    rw [List.length_take, List.length_drop]
    omega
  show msb s.adapter.sb ((s.adapter.dec (s.outAt i)).getD 0) = _
  rw [h.outAt ho hi, dec_enc _ _ (val_group_lt _ _), Option.getD_some]
  calc msb s.adapter.sb _ = msb ((bits.drop (i * s.adapter.sb)).take s.adapter.sb).length _ := by rw [hlen]
    _ = _ := msb_val _

/-- The accumulator holds the bits after the last whole group (10_state.md R34). -/
theorem Wrote.msb_acc {o : Nat} {s : State} {bits : List Bool} (h : Wrote o s bits) :
    msb s.accCnt s.acc = bits.drop (s.outLen * s.adapter.sb) := by
  have hlen : (bits.drop (s.outLen * s.adapter.sb)).length = s.accCnt := by
    rw [List.length_drop, h.length_eq, Nat.add_sub_cancel_left]
  rw [h.acc, ← hlen, msb_val]

/-- What the writer adds to what has been written, it adds to `written`: the elements before stay, and the new ones are the
groups of the bits after them. -/
theorem written_of_wrote {s t : State} {bits : List Bool} (ha : AccOk s) (hst : WriterStep s t) (hk : KeepsOut s t)
    (hw : Wrote s.outLen t (written s ++ bits)) : written t = written s ++ bits := by
  obtain ⟨k, hlen⟩ : ∃ k, t.outLen = s.outLen + k := by obtain ⟨hle, -⟩ := hk; exact Nat.exists_eq_add_of_le hle
  have hold : (List.range s.outLen).map t.symbolBits = (List.range s.outLen).map s.symbolBits :=
    List.map_congr_left fun i hi => by
      show msb t.adapter.sb ((t.adapter.dec (t.outAt i)).getD 0) = _
      rw [hst.adapter, hk.outAt hst (List.mem_range.1 hi)]
      rfl
  set rest := msb s.accCnt s.acc ++ bits
  have hfirst : (((List.range s.outLen).map s.symbolBits).flatten).length = s.outLen * s.adapter.sb := by
    have := (wrote_written ha).length_eq
    rw [written_eq, List.length_append, msb_length] at this
    exact Nat.add_right_cancel this
  have hall : written s ++ bits = ((List.range s.outLen).map s.symbolBits).flatten ++ rest := by
    rw [written_eq, List.append_assoc]
  have hdrop (i : Nat) : (written s ++ bits).drop ((s.outLen + i) * s.adapter.sb) = rest.drop (i * s.adapter.sb) := by
    rw [hall, Nat.add_mul, ← hfirst, ← List.drop_drop, List.drop_left]
  have hnew : (List.range k).map (t.symbolBits ∘ fun i => s.outLen + i) =
      (List.range k).map fun i => (rest.drop (i * s.adapter.sb)).take s.adapter.sb :=
    List.map_congr_left fun i hi => by
      rw [Function.comp, hw.symbolBits (Nat.le_add_right _ _) (by have := List.mem_range.1 hi; omega), hst.adapter, hdrop]
  have hroom : k * s.adapter.sb ≤ rest.length := by
    have := hw.length_eq
    rw [hall, List.length_append, hfirst, hlen, hst.adapter, Nat.add_mul] at this
    omega
  rw [written_eq t, hw.msb_acc, hst.adapter, hlen, hdrop, List.range_add, List.map_append, List.flatten_append, hold,
    List.map_map, hnew, groups_flatten _ _ _ hroom, List.append_assoc, List.take_append_drop, hall]

/-! ## Building, and fitting -/

/-- An operation that builds `e` ends well exactly when `e` fits (00_scope.md R10). -/
theorem Builds.fits_or {o : Nat} {s : State} {e : Whole.Enc} {r : Except Stop State} (h : Builds o s e r) :
    (fits s (e.stream.length / s.adapter.sb) e.n ∧
      ∃ t, r = .ok (t.built e) ∧ WriterStep s t ∧ KeepsOut s t ∧ Wrote o t e.stream) ∨
    (¬ fits s (e.stream.length / s.adapter.sb) e.n ∧ r = .error (.cause .capacity)) := by
  rcases h with ⟨t, rfl, hc, hst, hk, hw⟩ | ⟨rfl, hx⟩
  · refine .inl ⟨⟨?_, ?_⟩, t, rfl, hst, hk, hw⟩
    · obtain ⟨-, hmax⟩ := hst.out
      rwa [hw.len, hst.adapter, hst.params] at hmax
    · rw [← hst.params]
      exact exceeds_eq_false.1 (CodesOk_exceeds hc)
  · exact .inr ⟨not_fits_iff.2 hx, rfl⟩

/-! ## A scan step on a miss -/

/-- Settles O22: the scan builds what the function form builds (`scan_enc`), which on a miss is the emission, the code of the longer
word and the unit (`enc_scan_miss`). -/
theorem scanStepEmitsOnMiss : Obligations.ScanStepEmitsOnMiss := by
  rintro s rest c ⟨hinv, hp, hs, hturn⟩ hlt rfl hw hmiss
  set c := s.inAt s.inPtr
  set u : State := tick { s with host := rest }
  set e := s.enc (written s)
  obtain ⟨hc, hco⟩ := Inv_cScan hinv hp hs
  have ha : AccOk u := by obtain ⟨-, ha, -⟩ := hco; exact ha
  have hmiss' : ¬ (DictC.code? e.dict (e.w ++ [c])).isSome := by simp [e, hmiss]
  have hbuilds : Builds s.outLen u (e.scan c) (scan c u) := scan_enc (s := u) c hc hinv.out hco (wrote_written ha)
  rw [enc_scan_miss hw hmiss'] at hbuilds
  have hn : e.emit.n = s.n + phraseCodes s := emit_enc_n s _
  have hstream : e.emit.stream = written s ++ phraseBits s := emit_enc_stream hc _
  have hstep : step s = settle u ((scan c u).map fun t => { t with inPtr := t.inPtr + 1 }) := by
    rw [step_cScan hturn hp hs, scanStep_unit (s := u) hlt]
    rfl
  rw [hstep]
  have hfits := hbuilds.fits_or
  dsimp only at hfits
  rw [hn, hstream, List.length_append] at hfits
  rcases hfits with ⟨hfits, a, hscan, hst, hk, hwrote⟩ | ⟨hnot, hscan⟩ <;> rw [hscan]
  · have hwritten : written a = written s ++ phraseBits s := written_of_wrote (s := u) ha hst hk hwrote
    have hout (i : Nat) (hi : i < s.outLen) : a.outAt i = s.outAt i := hk.outAt hst hi
    obtain ⟨_, _, _, _, rfl, -, -⟩ := hst
    have hother (p : Phrase) (hpc : p ≠ s.w ++ [c]) :
        DictC.code? (DictC.add e.emit.dict (s.w ++ [c]) (s.n + phraseCodes s)) p = DictC.code? e.emit.dict p := by
      rw [DictC.code?_add, if_neg hpc]
    have hwc : s.w ≠ s.w ++ [c] := by simp
    refine ⟨fun _ => ⟨_, rfl, hwritten, hout, rfl, rfl, rfl, rfl, ?_, fun hnew => ?_, fun p hpc hpw => ?_, fun k hk => ?_,
      rfl, ⟨rfl, rfl, rfl, rfl, rfl, rfl⟩, ⟨rfl, rfl, rfl, rfl, rfl⟩, rfl, fun _ => rfl, rfl⟩, fun hnot => absurd hfits hnot⟩
    · exact (DictC.code?_add ..).trans (if_pos rfl)
    · exact (hother _ hwc).trans (code?_emit_new (e := e) hnew)
    · exact (hother _ hpc).trans (code?_emit_other (e := e) hpw)
    · exact (hother _ hwc).trans (code?_emit (e := e) hk)
  · exact ⟨fun hfits => absurd hfits hnot, fun _ => ⟨_, rfl, reports_fail _ _, rfl, rfl, fun _ => rfl, rfl⟩⟩

/-! ## The end of a compression -/

/-- What the writer does after an operation leaves alone what has been built. -/
theorem WriterStep.trans_built {s t a : State} {e : Whole.Enc} (h : WriterStep s t) (hc : CodesOk (t.built e))
    (h' : WriterStep (t.built e) a) : ∃ b : State, a = b.built e ∧ CodesOk (b.built e) ∧ WriterStep s b := by
  obtain ⟨m, l, acc, cnt, rfl, ho, ha⟩ := h'
  exact ⟨{ t with outBuf := m, outLen := l, acc := acc, accCnt := cnt }, rfl, hc, h.trans ⟨m, l, acc, cnt, rfl, ho, ha⟩⟩

/-- A `WRITE` at the current width after an operation, R100. -/
theorem Builds.bind_write {o : Nat} {s : State} {e : Whole.Enc} {r : Except Stop State} (h : Builds o s e r) (v : Nat) :
    Builds o s { e with stream := e.stream ++ msb (bitlen e.n) v } (r.bind fun t => write v t.nb t) := by
  rcases h with ⟨t, rfl, hc, hst, hk, hw⟩ | ⟨rfl, hx⟩
  · have hw' : Wrote o (t.built e) e.stream := ⟨hw.cnt, hw.acc, hw.len, hw.out⟩
    rcases wrote_putBits (msb (bitlen e.n) v) hw' hst.out hst.acc with ⟨a, ha, hsa, hka, hwa⟩ | ⟨ha, hx⟩
    · obtain ⟨b, rfl, hcb, hsb⟩ := hst.trans_built hc hsa
      exact .inl ⟨b, ha, hcb, hsb, hk.trans hka, ⟨hwa.cnt, hwa.acc, hwa.len, hwa.out⟩⟩
    · refine .inr ⟨ha, .inl ?_⟩
      rw [List.length_append, ← hst.adapter, ← hst.params]
      exact hx
  · exact .inr ⟨rfl, overBound_mono (e := e) le_rfl (by simp) hx⟩

/-- A closed compression, R140: the final phrase with the slot reserved after it, and the terminator. -/
theorem close_enc {s : State} {o : Nat} {bits : List Bool} (hc : CodesOk s) (ho : OutOk s) (hco : CompressOk s)
    (hw : Wrote o s bits) :
    Builds o s (s.enc bits).close ((endPhrase s).bind fun t => write eosCode t.nb t) := by
  obtain ⟨d, hd, hb⟩ := endPhrase_enc hc ho hco hw
  rw [hd]
  exact hb.bind_write eosCode

/-- No rendering has fewer elements than its stream has whole symbols. -/
theorem div_le_length_render (ad : Adapter) (bits : List Bool) : bits.length / ad.sb ≤ (Whole.render ad bits).length := by
  have hceil : bits.length / ad.sb ≤ (bits.length + ad.sb - 1) / ad.sb :=
    Nat.div_le_div_right (by have := sb_pos ad; omega)
  simp only [Whole.render, List.length_append, List.length_map, symbols_length]
  omega

/-- `FINISH` after an operation: the code stream is rendered in `OUT`, exactly when that fits (R102, R103). -/
theorem Builds.bind_finish {o : Nat} {s : State} {e : Whole.Enc} {r : Except Stop State} (h : Builds o s e r) :
    (fits s (Whole.render s.adapter e.stream).length e.n ∧
      ∃ t, r.bind finish = .ok (t.built e) ∧ WriterStep s t ∧ KeepsOut s t ∧
        t.outLen = (Whole.render s.adapter e.stream).length ∧
        ∀ i, o ≤ i → ∀ h : i < (Whole.render s.adapter e.stream).length,
          Table.read? t.outBuf i = some (Whole.render s.adapter e.stream)[i]) ∨
    (¬ fits s (Whole.render s.adapter e.stream).length e.n ∧ r.bind finish = .error (.cause .capacity)) := by
  rcases h with ⟨t, rfl, hc, hst, hk, hw⟩ | ⟨rfl, hx⟩
  · have hw' : Wrote o (t.built e) e.stream := ⟨hw.cnt, hw.acc, hw.len, hw.out⟩
    have hadapter : (t.built e).adapter = s.adapter := hst.adapter
    have hparams : (t.built e).params = s.params := hst.params
    have hfinish := wrote_finish hw' hst.out hst.acc
    rw [hadapter, hparams] at hfinish
    rcases hfinish with ⟨a, ha, hsa, hka, hlen, hout, hx⟩ | ⟨ha, hx⟩
    · obtain ⟨b, rfl, hcb, hsb⟩ := hst.trans_built hc hsa
      have hcodes := CodesOk_exceeds hcb
      rw [hsb.params] at hcodes
      exact .inl ⟨⟨exceeds_eq_false.1 hx, exceeds_eq_false.1 hcodes⟩, b, ha, hsb, hk.trans hka, hlen, hout⟩
    · exact .inr ⟨not_fits_iff.2 (.inl hx), ha⟩
  · exact .inr ⟨not_fits_iff.2 (hx.imp_left (exceeds_mono (div_le_length_render _ _))), rfl⟩

/-- The count of a closed compression, R140. -/
theorem close_enc_n (s : State) (bits : List Bool) :
    (s.enc bits).close.n = if s.w = [] then s.n else s.n + phraseCodes s + 1 := by
  by_cases hw : s.w = []
  · rw [enc_close_empty hw, if_pos hw]
  · rw [enc_close_phrase hw, if_neg hw, emit_enc_n]

/-- Its code stream. -/
theorem close_enc_stream {s : State} (hc : CodesOk s) (bits : List Bool) :
    (s.enc bits).close.stream =
      bits ++ (if s.w = [] then [] else phraseBits s) ++ msb (bitlen (s.enc bits).close.n) eosCode := by
  by_cases hw : s.w = []
  · rw [enc_close_empty hw, if_pos hw, List.append_nil]
  · rw [enc_close_phrase hw, if_neg hw, emit_enc_stream hc]

/-- The engine's step in `C_END`. -/
theorem step_cEnd {s : State} {rest : List HostAct} (hturn : engineTurn s rest) (hp : s.phase = .cEnd)
    (hs : s.spoiled = false) :
    step s = settle (tick { s with host := rest }) (endStep (tick { s with host := rest })) :=
  (step_of_engineTurn hturn).trans (engineStep_cEnd (s := { s with host := rest }) hp hs)

/-- Settles O23: the end step is `FINISH` after the closed compression (`close_enc`), and success. -/
theorem endStepCompletes : Obligations.EndStepCompletes := by
  rintro s rest n all out ⟨hinv, hp, hs, hturn⟩ hn hall rfl
  set u : State := tick { s with host := rest }
  obtain ⟨hc, hco⟩ := Inv_cEnd hinv hp hs
  have ha : AccOk u := by obtain ⟨-, ha, -⟩ := hco; exact ha
  have hcn : (s.enc (written s)).close.n = n := (close_enc_n s _).trans hn.symm
  have hstream : (s.enc (written s)).close.stream = all := by rw [hall, close_enc_stream hc, hcn]
  have hbuilds : Builds s.outLen u (s.enc (written s)).close ((endPhrase u).bind fun t => write eosCode t.nb t) :=
    close_enc (s := u) hc hinv.out hco (wrote_written ha)
  have hfinish := hbuilds.bind_finish
  rw [hstream, hcn] at hfinish
  rw [step_cEnd hturn hp hs, endStep]
  rcases hfinish with ⟨hfits, a, hend, hst, hk, hlen, hrender⟩ | ⟨hnot, hend⟩ <;> rw [hend]
  · have hold (i : Nat) (hi : i < s.outLen) : a.outAt i = s.outAt i := hk.outAt hst hi
    have hnew (i : Nat) (hi : i < (Whole.render s.adapter all).length) (ho : s.outLen ≤ i) :
        a.outAt i = (Whole.render s.adapter all)[i] := by
      rw [State.outAt, hrender i ho hi]
      rfl
    obtain ⟨_, _, _, _, rfl, -, -⟩ := hst
    exact ⟨fun _ => ⟨_, rfl, rfl, rfl, hcn, congrArg bitlen hcn, hlen, hold, hnew, rfl, rfl, rfl, fun _ => rfl, rfl⟩,
      fun hnot => absurd hfits hnot⟩
  · exact ⟨fun hfits => absurd hfits hnot, fun _ => ⟨_, rfl, reports_fail _ _, rfl, rfl, rfl, fun _ => rfl, rfl⟩⟩

end Sys2Proof.Machine
end

section
/-! PROOFS of the statements of 41_compress.md, part 3: the trie form of `SCAN` (R144). What a trie says of the words alone is
`TrieC.holds`; a new link keeps it (`TrieC.holds.setChild`), and the rest of R144 is which kind `W` is of. -/

namespace Sys2Proof.Machine

open Sys2Proof.Safety

/-! ## The writer and the counters beside `DICT_C` and `W` -/

/-- The map and the phrase are as they were. -/
def KeepsWords (s t : State) : Prop := t.dictC = s.dictC ∧ t.w = s.w

theorem KeepsWords.trans {s t u : State} (h : KeepsWords s t) (g : KeepsWords t u) : KeepsWords s u := by
  obtain ⟨hd, hw⟩ := h
  obtain ⟨gd, gw⟩ := g
  exact ⟨gd.trans hd, gw.trans hw⟩

/-- The writer leaves the dictionary engine alone, in any state. -/
theorem putBit_words {b : Bool} {s t : State} (h : putBit b s = .ok t) : KeepsWords s t ∧ t.n = s.n := by
  by_cases hsb : s.accCnt + 1 = s.adapter.sb
  · rw [putBit_flush b hsb] at h
    obtain ⟨u, hu, rfl⟩ := map_eq_ok.1 h
    obtain ⟨-, rfl⟩ := append_eq_ok.1 hu
    exact ⟨⟨rfl, rfl⟩, rfl⟩
  · rw [putBit_shift b hsb] at h
    cases h
    exact ⟨⟨rfl, rfl⟩, rfl⟩

theorem putBits_words {bs : List Bool} {s t : State} (h : putBits bs s = .ok t) : KeepsWords s t ∧ t.n = s.n := by
  induction bs generalizing s with
  | nil => cases h; exact ⟨⟨rfl, rfl⟩, rfl⟩
  | cons b bs ih =>
    obtain ⟨u, hu, ht⟩ := bind_eq_ok.1 h
    obtain ⟨hsu, hnu⟩ := putBit_words hu
    obtain ⟨hut, hnt⟩ := ih ht
    exact ⟨hsu.trans hut, hnt.trans hnu⟩

/-- `ADVANCE` does not look at `DICT_C`. -/
theorem advance_dictC (s : State) (d : DictC) :
    advance { s with dictC := d } = (advance s).map fun t => { t with dictC := d } := by
  unfold advance
  split
  · split <;> rfl
  · rfl

/-- `ADVANCE` counts one code. -/
theorem advance_words {s t : State} (h : advance s = .ok t) : KeepsWords s t ∧ t.n = s.n + 1 := by
  rcases advance_eq_ok h with ⟨-, -, rfl⟩ | ⟨-, rfl⟩ <;> exact ⟨⟨rfl, rfl⟩, rfl⟩

/-- `ASSIGN` is `ADVANCE` and the new pair, R133. -/
theorem assign_eq (p : Phrase) (s : State) :
    assign p s = (advance s).map fun t => { t with dictC := DictC.add s.dictC p s.n } := advance_dictC s _

/-- Two of them, one after the other. -/
theorem assign_bind_assign (p q : Phrase) (s : State) :
    (assign p s).bind (assign q) = (advance s).bind fun s2 => (advance s2).map fun s3 =>
      { s3 with dictC := DictC.add (DictC.add s.dictC p s.n) q s2.n } := by
  rw [assign_eq]
  cases advance s with
  | error e => rfl
  | ok s2 =>
    have hsecond : assign q { s2 with dictC := DictC.add s.dictC p s.n } =
        (advance { s2 with dictC := DictC.add s.dictC p s.n }).map fun s3 =>
          { s3 with dictC := DictC.add (DictC.add s.dictC p s.n) q s2.n } := assign_eq q _
    refine hsecond.trans ?_
    rw [advance_dictC]
    show _ = (advance s2).map _
    cases advance s2 <;> rfl

/-! ## Paths -/

/-- The node at the end of a word's path; `none` is the root, where the empty word ends (R33). -/
def TrieC.node? (t : TrieC) (p : Phrase) : Option (Option Nat) := if p = [] then some none else (t.walk none p).map some

@[simp] theorem TrieC.node?_nil (t : TrieC) : t.node? [] = some none := rfl

theorem TrieC.node?_of_ne (t : TrieC) {p : Phrase} (h : p ≠ []) : t.node? p = (t.walk none p).map some := if_neg h

@[simp] theorem TrieC.walk_nil (t : TrieC) (at? : Option Nat) : t.walk at? [] = at? := rfl

/-- A path: its first link, and the rest from there. -/
theorem TrieC.walk_cons (t : TrieC) (at? : Option Nat) (c : Elem) (p : Phrase) :
    t.walk at? (c :: p) = (t.child? at? c).bind fun k => t.walk (some k) p := by
  show (match t.child? at? c with | none => none | some k => t.walk (some k) p) = _
  cases t.child? at? c <;> rfl

theorem TrieC.walk_singleton (t : TrieC) (at? : Option Nat) (c : Elem) : t.walk at? [c] = t.child? at? c := by
  rw [t.walk_cons]
  cases t.child? at? c <;> rfl

/-- A path of more than one unit, from any node: its last link. -/
theorem TrieC.walk_append_singleton (t : TrieC) (at? : Option Nat) {q : Phrase} (hq : q ≠ []) (c : Elem) :
    t.walk at? (q ++ [c]) = (t.walk at? q).bind fun k => t.child? (some k) c := by
  induction q generalizing at? with
  | nil => exact absurd rfl hq
  | cons d q ih =>
    rw [List.cons_append, t.walk_cons, t.walk_cons, Option.bind_assoc]
    refine congrArg _ (funext fun k => ?_)
    by_cases h : q = []
    · subst h
      exact t.walk_singleton (some k) c
    · exact ih (some k) h

/-- A path from the root: its last link, which leaves the node of the word before. -/
theorem TrieC.walk_snoc (t : TrieC) (q : Phrase) (c : Elem) :
    t.walk none (q ++ [c]) = (t.node? q).bind fun parent => t.child? parent c := by
  by_cases hq : q = []
  · subst hq
    exact t.walk_singleton none c
  · rw [t.walk_append_singleton none hq, t.node?_of_ne hq, Option.bind_map]
    rfl

theorem TrieC.node?_snoc (t : TrieC) (q : Phrase) (c : Elem) :
    t.node? (q ++ [c]) = ((t.node? q).bind fun parent => t.child? parent c).map some := by
  rw [t.node?_of_ne (by simp), t.walk_snoc]

/-- A link set is found again, and no other changes. -/
theorem TrieC.child?_setChild (t : TrieC) (parent : Option Nat) (c : Elem) (k : Nat) (parent' : Option Nat) (c' : Elem) :
    (t.setChild parent c k).child? parent' c' = if parent' = parent ∧ c' = c then some k else t.child? parent' c' := by
  delta TrieC.child? TrieC.setChild
  by_cases h : parent' = parent ∧ c' = c
  · obtain ⟨rfl, rfl⟩ := h
    simp
  · have hne : ((parent, c) : Option Nat × Elem) ≠ (parent', c') := by
      rintro heq
      cases heq
      exact h ⟨rfl, rfl⟩
    rw [if_neg h, List.find?_cons_of_neg (by simpa using hne)]

/-! ## What a trie says of the words -/

/-- The trie holds the words of the dictionary, and a link leaves the root or a code below `n` (R33, R144). -/
def TrieC.holds (t : TrieC) (d : DictC) (n : Nat) : Prop :=
  (∀ p : Phrase, p ≠ [] → t.walk none p = DictC.code? d p) ∧ ∀ e ∈ t.child, ∀ k, e.1.1 = some k → k < n

theorem TrieC.represents.holds {t : TrieC} {s : State} (h : t.represents s) : t.holds s.dictC s.n := by
  obtain ⟨hwalk, hlinks, -⟩ := h
  exact ⟨hwalk, hlinks⟩

theorem TrieC.holds.node? {t : TrieC} {d : DictC} {n : Nat} (h : t.holds d n) {p : Phrase} (hp : p ≠ []) :
    t.node? p = (DictC.code? d p).map some := by
  obtain ⟨hwalk, -⟩ := h
  rw [t.node?_of_ne hp, hwalk p hp]

/-- The link from a word's node is the code of the longer word. -/
theorem TrieC.holds.child? {t : TrieC} {d : DictC} {n : Nat} (h : t.holds d n) {p : Phrase} {parent : Option Nat}
    (hp : t.node? p = some parent) (c : Elem) : t.child? parent c = DictC.code? d (p ++ [c]) := by
  obtain ⟨hwalk, -⟩ := h
  rw [← hwalk _ (by simp), t.walk_snoc, hp]
  rfl

/-- No link leaves a code not yet assigned. -/
theorem TrieC.holds.child?_unassigned {t : TrieC} {d : DictC} {n : Nat} (h : t.holds d n) (c : Elem) :
    t.child? (some n) c = none := by
  obtain ⟨-, hlinks⟩ := h
  have hfind : (t.child.find? fun e => e.1 = (some n, c)) = none := by
    refine List.find?_eq_none.2 fun e he heq => ?_
    have hparent : e.1.1 = some n := congrArg Prod.fst (of_decide_eq_true heq)
    exact absurd (hlinks e he n hparent) (Nat.lt_irrefl n)
  exact congrArg (Option.map Prod.snd) hfind

/-- No two words of a sound dictionary have one code (10_state.md R31). -/
theorem DictCOk_injective {s : State} (h : DictCOk s) {p q : Phrase} {k : Nat} (hp : DictC.code? s.dictC p = some k)
    (hq : DictC.code? s.dictC q = some k) : p = q := by
  obtain ⟨-, hcodes, -⟩ := h
  have hnodup : (s.dictC.map Prod.snd).Nodup := hcodes.imp Nat.ne_of_lt
  exact congrArg Prod.fst (List.inj_on_of_nodup_map hnodup (DictC.mem_of_code? hp) (DictC.mem_of_code? hq) rfl)

/-- Every code of a sound dictionary is assigned. -/
theorem DictCOk_code_lt {s : State} (h : DictCOk s) {p : Phrase} {k : Nat} (hp : DictC.code? s.dictC p = some k) : k < s.n := by
  obtain ⟨-, -, hentries, -⟩ := h
  obtain ⟨-, -, hlt⟩ := hentries _ (DictC.mem_of_code? hp)
  exact hlt

/-- No word goes on from a new one. -/
theorem DictCOk_code_snoc {s : State} (h : DictCOk s) {p : Phrase} (hne : p ≠ []) (hp : DictC.code? s.dictC p = none) (c : Elem) :
    DictC.code? s.dictC (p ++ [c]) = none := by
  obtain ⟨-, -, -, hclosed⟩ := h
  cases hk : DictC.code? s.dictC (p ++ [c]) with
  | none => rfl
  | some k =>
    have := hclosed p c hne (by rw [hk]; rfl)
    rw [hp] at this
    cases this

/-- So no two words end at one node. -/
theorem TrieC.holds.node?_injective {t : TrieC} {s : State} (h : t.holds s.dictC s.n) (hd : DictCOk s) {p q : Phrase}
    {parent : Option Nat} (hp : t.node? p = some parent) (hq : t.node? q = some parent) : p = q := by
  by_cases hp0 : p = [] <;> by_cases hq0 : q = []
  · rw [hp0, hq0]
  · subst hp0
    rw [h.node? hq0] at hq
    cases hp
    simp at hq
  · subst hq0
    rw [h.node? hp0] at hp
    cases hq
    simp at hp
  · rw [h.node? hp0] at hp
    rw [h.node? hq0] at hq
    obtain ⟨k, hk, rfl⟩ := Option.map_eq_some_iff.1 hp
    obtain ⟨j, hj, heq⟩ := Option.map_eq_some_iff.1 hq
    cases heq
    exact DictCOk_injective hd hk hj

/-- The parent of a new link is the root or an assigned code. -/
theorem TrieC.holds.parent_lt {t : TrieC} {s : State} (h : t.holds s.dictC s.n) (hd : DictCOk s) {p : Phrase} {k : Nat}
    (hp : t.node? p = some (some k)) : k < s.n := by
  have hne : p ≠ [] := by
    rintro rfl
    cases hp
  rw [h.node? hne] at hp
  obtain ⟨j, hj, heq⟩ := Option.map_eq_some_iff.1 hp
  cases heq
  exact DictCOk_code_lt hd hj

/-- A new link, from the node of `w` to the next code: it is the path of the one word `w ++ [c]`. -/
theorem TrieC.holds.node?_setChild {t : TrieC} {s : State} (h : t.holds s.dictC s.n) (hd : DictCOk s) {w : Phrase}
    {parent : Option Nat} (hw : t.node? w = some parent) {c : Elem} (hnew : DictC.code? s.dictC (w ++ [c]) = none)
    (p : Phrase) :
    (t.setChild parent c s.n).node? p = if p = w ++ [c] then some (some s.n) else t.node? p := by
  induction p using List.reverseRecOn with
  | nil => simp
  | append_singleton q x ih =>
    rw [TrieC.node?_snoc, ih]
    by_cases hq : q = w ++ [c]
    · have hparent : some s.n ≠ parent := by
        rintro rfl
        exact absurd (h.parent_lt hd hw) (Nat.lt_irrefl _)
      have hold : t.node? (w ++ [c]) = none := by rw [h.node? (by simp), hnew]; rfl
      rw [if_pos hq, Option.bind_some, TrieC.child?_setChild, if_neg (fun heq => hparent heq.1), h.child?_unassigned,
        if_neg (by simp [hq]), TrieC.node?_snoc, hq, hold]
      rfl
    · rw [if_neg hq, TrieC.node?_snoc]
      cases hy : t.node? q with
      | none =>
        have hqw : q ≠ w := by
          rintro rfl
          cases hy.symm.trans hw
        have hne : q ++ [x] ≠ w ++ [c] := fun heq => hqw (List.append_inj' heq rfl).1
        rw [if_neg hne]
        rfl
      | some y =>
        have hiff : (y = parent ∧ x = c) ↔ q ++ [x] = w ++ [c] := by
          constructor
          · rintro ⟨rfl, rfl⟩
            rw [h.node?_injective hd hy hw]
          · intro heq
            obtain ⟨rfl, hx⟩ := List.append_inj' heq rfl
            exact ⟨Option.some.inj (hy.symm.trans hw), List.singleton_inj.1 hx⟩
        rw [Option.bind_some, TrieC.child?_setChild, Option.bind_some]
        by_cases heq : q ++ [x] = w ++ [c]
        · rw [if_pos heq, if_pos (hiff.2 heq)]
          rfl
        · rw [if_neg heq, if_neg (fun hand => heq (hiff.1 hand))]

/-- So the trie holds the dictionary with that word added. -/
theorem TrieC.holds.setChild {t : TrieC} {s : State} (h : t.holds s.dictC s.n) (hd : DictCOk s) {w : Phrase}
    {parent : Option Nat} (hw : t.node? w = some parent) {c : Elem} (hnew : DictC.code? s.dictC (w ++ [c]) = none) :
    (t.setChild parent c s.n).holds (DictC.add s.dictC (w ++ [c]) s.n) (s.n + 1) := by
  refine ⟨fun p hp => ?_, ?_⟩
  · have hnode := h.node?_setChild hd hw hnew p
    rw [TrieC.node?_of_ne _ hp, h.node? hp] at hnode
    refine Option.map_injective (Option.some_injective _) (hnode.trans ?_)
    rw [DictC.code?_add]
    split <;> rfl
  · rintro e (- | ⟨-, he⟩) k hk
    · exact Nat.lt_succ_of_lt (h.parent_lt hd (hw.trans (congrArg some hk)))
    · obtain ⟨-, hlinks⟩ := h
      exact Nat.lt_succ_of_lt (hlinks e he k hk)

/-- A new unit and the longer word, two links: the second leaves the node that the first leads to. -/
theorem TrieC.holds.setChild_unit {t : TrieC} {s : State} (h : t.holds s.dictC s.n) (hc : CodesOk s) (hd : DictCOk s) {u : Elem}
    (hu : DictC.code? s.dictC [u] = none) (c : Elem) :
    ((t.setChild none u s.n).setChild (some s.n) c (s.n + 1)).holds
      (DictC.add (DictC.add s.dictC [u] s.n) ([u] ++ [c]) (s.n + 1)) (s.n + 1 + 1) := by
  have hunit := h.setChild hd (w := []) rfl hu
  have hnode : (t.setChild none u s.n).node? [u] = some (some s.n) := by
    rw [hunit.node? (by simp), List.nil_append, DictC.code?_add, if_pos rfl]
    rfl
  have hclosed (q : Phrase) (x : Elem) (hq : q ≠ []) (heq : q ++ [x] = [u]) : (DictC.code? s.dictC q).isSome :=
    absurd (List.append_inj' (t₁ := [x]) (s₂ := []) heq rfl).1 hq
  have hdict := DictCOk_add (nb' := s.nb) hd (by simp) hu hclosed (Nat.lt_succ_self _) (CodesOk_two_le hc)
  have hnew : DictC.code? (DictC.add s.dictC [u] s.n) ([u] ++ [c]) = none := by
    rw [DictC.code?_add, if_neg (by simp)]
    exact DictCOk_code_snoc hd (by simp) hu c
  exact TrieC.holds.setChild hunit hdict hnode hnew

/-- It holds them whatever `W` is. -/
theorem TrieC.holds.withKind {t : TrieC} {d : DictC} {n : Nat} (h : t.holds d n) (kind : WKind) :
    ({ t with kind := kind } : TrieC).holds d n := by
  obtain ⟨hwalk, hlinks⟩ := h
  have hpath (at? : Option Nat) (p : Phrase) : ({ t with kind := kind } : TrieC).walk at? p = t.walk at? p := by
    induction p generalizing at? with
    | nil => rfl
    | cons c p ih =>
      rw [TrieC.walk_cons, TrieC.walk_cons, funext fun k => ih (some k)]
      rfl
  exact ⟨fun p hp => (hpath none p).trans (hwalk p hp), hlinks⟩

/-! ## `SCAN` -/

/-- A trie of kind `W` is a node, R33. -/
theorem TrieC.holds.represents_node {t : TrieC} {s : State} (h : t.holds s.dictC s.n) {k : Nat} (hw : s.w ≠ [])
    (hk : DictC.code? s.dictC s.w = some k) : ({ t with kind := .node k } : TrieC).represents s := by
  obtain ⟨hwalk, hlinks⟩ := h.withKind (.node k)
  exact ⟨hwalk, hlinks, hw, hk⟩

/-- `W` starts again with one unit, of the kind that stands for it. -/
theorem TrieC.holds.restart {t : TrieC} {s : State} (h : t.holds s.dictC s.n) (c : Elem) :
    (t.restart c).represents { s with w := [c] } := by
  have hchild : t.child? none c = DictC.code? s.dictC [c] := h.child? (p := []) rfl c
  delta TrieC.restart
  cases hk : t.child? none c with
  | none =>
    obtain ⟨hwalk, hlinks⟩ := h.withKind (.new c)
    exact ⟨hwalk, hlinks, rfl, hchild.symm.trans hk⟩
  | some k => exact TrieC.holds.represents_node (s := { s with w := [c] }) h (by simp) (hchild.symm.trans hk)

/-- A scan on a miss, R137. -/
theorem scan_miss {c : Elem} {s : State} (hw : s.w ≠ []) (hmiss : DictC.code? s.dictC (s.w ++ [c]) = none) :
    scan c s = ((emitPhrase s.w s).bind (assign (s.w ++ [c]))).map fun t => { t with w := [c] } :=
  (if_neg hw).trans (if_neg (by simp [hmiss]))

/-- The emission of a known word, R138. -/
theorem emitPhrase_known {p : Phrase} {s : State} {k : Nat} (hk : DictC.code? s.dictC p = some k) :
    emitPhrase p s = write k s.nb s := by
  delta emitPhrase
  rw [hk]

/-- The emission of a new unit, R138. -/
theorem emitPhrase_new {u : Elem} {s : State} (hu : DictC.code? s.dictC [u] = none) :
    emitPhrase [u] s = ((write rawCode s.nb s).bind (write u.toNat rawBits)).bind (assign [u]) := by
  delta emitPhrase
  rw [hu]

/-- The trie scan from a node, R144: along its link, or a reference and a new link. -/
theorem trieScan_node {t : TrieC} {k : Nat} (hkind : t.kind = .node k) (c : Elem) (s : State) :
    (∀ k', t.child? (some k) c = some k' → trieScan c t s = .ok ({ t with kind := .node k' }, s)) ∧
    (t.child? (some k) c = none → trieScan c t s = (write k s.nb s).bind fun s1 =>
      (advance s1).map fun s2 => ((t.setChild (some k) c s1.n).restart c, s2)) := by
  obtain ⟨child, kind⟩ := t
  cases hkind
  delta trieScan
  dsimp only
  exact ⟨fun k' hlink => by rw [hlink], fun hlink => by rw [hlink]⟩

/-- The two forms of `SCAN` do the same from `s`: they fail alike, or the trie holds what the map form has built, and the state is
its state but for the map and the phrase. -/
def ScansAlike (s : State) (r : Except Stop State) (r' : Except Stop (TrieC × State)) : Prop :=
  match r with
  | .ok u => ∃ t' v, r' = .ok (t', v) ∧ t'.represents u ∧ v = { u with dictC := s.dictC, w := s.w }
  | .error e => r' = .error e

/-- They do when both have written and counted alike, the trie holds the new map, and `W` starts again. -/
theorem scansAlike_restart {t : TrieC} {s v : State} {d : DictC} (hwords : KeepsWords s v) (h : t.holds d v.n) (c : Elem) :
    ScansAlike s (.ok { v with dictC := d, w := [c] }) (.ok (t.restart c, v)) := by
  obtain ⟨hd, hw⟩ := hwords
  refine ⟨_, _, rfl, TrieC.holds.restart (s := { v with dictC := d }) h c, ?_⟩
  rw [← hd, ← hw]

/-- From nothing, R135. -/
theorem scansAlike_empty {t : TrieC} {s : State} (h : t.holds s.dictC s.n) (hkind : t.kind = .empty) (hw : s.w = [])
    (c : Elem) : ScansAlike s (scan c s) (trieScan c t s) := by
  have hscan : scan c s = .ok { s with w := [c] } := if_pos hw
  have htrie : trieScan c t s = .ok (t.restart c, s) := by
    obtain ⟨child, kind⟩ := t
    cases hkind
    rfl
  rw [hscan, htrie]
  exact ⟨_, _, rfl, h.restart c, rfl⟩

/-- From a known word with a link on, R136: along the link. -/
theorem scansAlike_hit {t : TrieC} {s : State} (h : t.holds s.dictC s.n) {c : Elem} {k k' : Nat} (hkind : t.kind = .node k)
    (hw : s.w ≠ []) (hlink : t.child? (some k) c = some k') (hk' : DictC.code? s.dictC (s.w ++ [c]) = some k') :
    ScansAlike s (scan c s) (trieScan c t s) := by
  have hscan : scan c s = .ok { s with w := s.w ++ [c] } := (if_neg hw).trans (if_pos (by rw [hk']; rfl))
  obtain ⟨htrie, -⟩ := trieScan_node hkind c s
  rw [hscan, htrie k' hlink]
  exact ⟨_, _, rfl, TrieC.holds.represents_node (s := { s with w := s.w ++ [c] }) h (by simp) hk', rfl⟩

/-- From a known word without one, R137: a reference, and a link to the next code. -/
theorem scansAlike_node_miss {t : TrieC} {s : State} (hd : DictCOk s) (h : t.holds s.dictC s.n) {c : Elem} {k : Nat}
    (hkind : t.kind = .node k) (hw : s.w ≠ []) (hk : DictC.code? s.dictC s.w = some k)
    (hlink : t.child? (some k) c = none) (hnew : DictC.code? s.dictC (s.w ++ [c]) = none) :
    ScansAlike s (scan c s) (trieScan c t s) := by
  obtain ⟨-, htrie⟩ := trieScan_node hkind c s
  have hnode : t.node? s.w = some (some k) := by rw [h.node? hw, hk]; rfl
  rw [scan_miss hw hnew, emitPhrase_known hk, htrie hlink]
  cases hwrite : write k s.nb s with
  | error e => rfl
  | ok s1 =>
    obtain ⟨⟨hd1, hw1⟩, hn1⟩ := putBits_words hwrite
    have hmap : assign (s.w ++ [c]) s1 = (advance s1).map fun s2 =>
        { s2 with dictC := DictC.add s.dictC (s.w ++ [c]) s.n } := by rw [assign_eq, hd1, hn1]
    simp only [Except.bind, hmap, hn1]
    cases hadvance : advance s1 with
    | error e => rfl
    | ok s2 =>
      obtain ⟨hwords2, hn2⟩ := advance_words hadvance
      have hholds := h.setChild hd hnode hnew
      rw [← hn1, ← hn2, hn1] at hholds
      exact scansAlike_restart (KeepsWords.trans ⟨hd1, hw1⟩ hwords2) hholds c

/-- From a unit not yet registered, R137: an escape, a link from the root for the unit, and one from there. -/
theorem scansAlike_new {t : TrieC} {s : State} (hc : CodesOk s) (hd : DictCOk s) (h : t.holds s.dictC s.n) {u : Elem}
    (hkind : t.kind = .new u) (hw : s.w = [u]) (hu : DictC.code? s.dictC [u] = none) (c : Elem) :
    ScansAlike s (scan c s) (trieScan c t s) := by
  have hlong : DictC.code? s.dictC (s.w ++ [c]) = none := by rw [hw]; exact DictCOk_code_snoc hd (by simp) hu c
  have htrie : trieScan c t s = ((write rawCode s.nb s).bind (write u.toNat rawBits)).bind fun s1 =>
      (advance s1).bind fun s2 => (advance s2).map fun s3 =>
        (((t.setChild none u s1.n).setChild (some s1.n) c s2.n).restart c, s3) := by
    obtain ⟨child, kind⟩ := t
    cases hkind
    rfl
  rw [scan_miss (by simp [hw]) hlong, hw, emitPhrase_new hu, htrie]
  cases hwrite : (write rawCode s.nb s).bind (write u.toNat rawBits) with
  | error e => rfl
  | ok s1 =>
    obtain ⟨s0, h0, h1⟩ := bind_eq_ok.1 hwrite
    obtain ⟨hwords0, hn0⟩ := putBits_words h0
    obtain ⟨hwords1, hn1⟩ := putBits_words h1
    obtain ⟨hd1, hw1⟩ := hwords0.trans hwords1
    have hn : s1.n = s.n := hn1.trans hn0
    show ScansAlike s (((assign [u] s1).bind (assign ([u] ++ [c]))).map _) ((advance s1).bind _)
    rw [assign_bind_assign, hd1, hn]
    cases hadvance : advance s1 with
    | error e => rfl
    | ok s2 =>
      obtain ⟨hwords2, hn2⟩ := advance_words hadvance
      rw [hn] at hn2
      show ScansAlike s (((advance s2).map _).map _) ((advance s2).map _)
      cases hadvance' : advance s2 with
      | error e => rfl
      | ok s3 =>
        obtain ⟨hwords3, hn3⟩ := advance_words hadvance'
        rw [hn2] at hn3
        have hholds := h.setChild_unit hc hd hu c
        rw [← hn3, ← hn2] at hholds
        exact scansAlike_restart ((KeepsWords.trans ⟨hd1, hw1⟩ hwords2).trans hwords3) hholds c

/-- Settles O55: by the kind of `W`; a node either has the link on or not. -/
theorem trieScanDoesTheSame : Obligations.TrieScanDoesTheSame := by
  intro c t s hc hd h
  suffices hsame : ScansAlike s (scan c s) (trieScan c t s) from hsame
  have hholds := h.holds
  obtain ⟨-, -, hw⟩ := h
  cases hkind : t.kind with
  | empty =>
    rw [hkind] at hw
    exact scansAlike_empty hholds hkind hw c
  | new u =>
    rw [hkind] at hw
    obtain ⟨hw, hu⟩ := hw
    exact scansAlike_new hc hd hholds hkind hw hu c
  | node k =>
    rw [hkind] at hw
    obtain ⟨hw, hk⟩ := hw
    have hnode : t.node? s.w = some (some k) := by rw [hholds.node? hw, hk]; rfl
    have hlong := hholds.child? hnode c
    cases hlink : t.child? (some k) c with
    | none => exact scansAlike_node_miss hd hholds hkind hw hk hlink (hlong.symm.trans hlink)
    | some k' => exact scansAlike_hit hholds hkind hw hlink (hlong.symm.trans hlink)

end Sys2Proof.Machine
end
